-- ==== Sys2Proof/Word.lean ====
section
/-! DEFINITION. The word types of the block (00_scope.md R11, R12). -/

namespace Sys2Proof

/-- A 32-bit word, bit 0 the least significant (R11). -/
abbrev Word := BitVec 32

/-- A byte: one lane of a word, or one byte of a ROM (R11). -/
abbrev Byte := BitVec 8

/-- The 16-bit value the blitter writes into one half of a word (48_blitter_optional.md R134). -/
abbrev Half := BitVec 16

/-- A pen: the 16-bit value plotted into a framebuffer pixel (30_encoding.md R68). -/
abbrev Pen := BitVec 16

/-- A 4-bit lane enable: bit `i` enables lane `i` (R13). -/
abbrev Lanes := BitVec 4

end Sys2Proof
end

