-- ==== Sys2Proof/Config.lean ====
section
/-! DEFINITION. The configuration record of 00_scope.md R9 and 48_blitter_optional.md R127 (what R10
asks to be a field and not a constant), and the free values of `draw` (R14).

A `Config` is fixed for a machine: no input changes it (10_state.md R20). It stands in `State.cfg`
(log 1), so every statement about a state is a statement about every configuration. -/

namespace Sys2Proof

/-- The two outputs of the block (10_state.md R19 `Screen`). -/
inductive Screen where
  | left
  | right
  deriving DecidableEq, Repr

/-- The windows of the bus (20_memory.md R45). -/
inductive Region where
  | tile (bank : BitVec 2)
  | sprite
  | palette
  | treg (t : BitVec 2)
  | sreg
  | brt (port : BitVec 1)
  | bltreg
  deriving DecidableEq, Repr

/-- One row of `ADDR_MAP`: a window and the byte address of its first word (R45). -/
structure Window where
  region : Region
  base   : Nat
  deriving DecidableEq, Repr

/-- `HOST_LANE_ORDER` (20_memory.md R40). -/
inductive LaneOrder where
  | big
  | little
  deriving DecidableEq, Repr

/-- `SPRITE_INDEX_POLICY` (41_tile_decoder.md R97). -/
inductive IndexPolicy where
  | wrap
  | fault
  deriving DecidableEq, Repr

/-- `TILE_DESC_LAYOUT`: the lowest bit of each field of a tile descriptor; the widths are the
source's (30_encoding.md R58). `flipXY` and `blank` are defined in the layout and read by no rule
(R69). -/
structure TileDescLayout where
  tileAddress : Nat
  colorBank   : Nat
  depth       : Nat
  flipXY      : Nat
  blank       : Nat
  deriving DecidableEq, Repr

/-- `TREG_LAYOUT`: the mode bit of word 0, the lowest bits of the scroll fields of word 2
(30_encoding.md R59, R60). -/
structure TregLayout where
  tileSizeFlag : Nat
  scrollX      : Nat
  scrollY      : Nat
  deriving DecidableEq, Repr

/-- `SPR_LAYOUT`: the lowest bit of each field of the two sprite words (30_encoding.md R61, R62). -/
structure SprLayout where
  xPos      : Nat
  yFlip     : Nat
  xFlip     : Nat
  yPos      : Nat
  tileIndex : Nat
  colorBank : Nat
  deriving DecidableEq, Repr

/-- Where one blitter register field stands: a register word and its lowest bit. -/
structure BltField where
  word : BitVec 3
  lo   : Nat
  deriving DecidableEq, Repr

/-- `BLT_REG_LAYOUT` (48_blitter_optional.md R129). -/
structure BltRegLayout where
  src   : BltField
  col   : BltField
  line  : BltField
  tm    : BltField
  odd   : BltField
  start : BitVec 3
  deriving DecidableEq, Repr

/-- `BLT_AMOUNT_UNIT` (48_blitter_optional.md R127). -/
inductive AmountUnit where
  | bytes
  | halfwords
  deriving DecidableEq, Repr

/-- `BLT_HALF_POLARITY` (48_blitter_optional.md R127). -/
inductive HalfPolarity where
  | upperOn0
  | upperOn1
  deriving DecidableEq, Repr

/-- `CONTRAST_SCALE` as data (43_palette_output.md R120; log 15): the default formula, or any other
function of a component and a numerator written out as a table of rows of 256 bytes, row `n` for the
numerator `n` in 0..15. Numerator 16 is the identity in every instantiation, as R120 requires. -/
inductive ContrastScale where
  | floor16
  | table (rows : List Byte)
  deriving DecidableEq, Repr

/-- The configuration record of R9 and R127. The rows R9 marks *source* are constants of the model;
the rows marked *decision* or *OPEN* are the fields here. -/
structure Config where
  /-- `ADDR_MAP`. -/
  addrMap           : List Window
  /-- `SREG_WORDS`. -/
  sregWords         : Nat
  /-- `SCREEN_W`. -/
  screenW           : Nat
  /-- `SCREEN_H`. -/
  screenH           : Nat
  /-- `TILE_ROM`; `TILE_ROM_SIZE` is its length. -/
  tileRom           : List Byte
  /-- `SPRITE_ROM`; `SPRITE_ROM_SIZE` is its length. -/
  spriteRom         : List Byte
  /-- `SPRITE_INDEX_POLICY`. -/
  spriteIndexPolicy : IndexPolicy
  /-- `SPRITE_TILE_COUNT`: a count, or `none` for the default, which depends on the sprite ROM:
  `SPRITE_ROM_SIZE div 256` (92_eei_decisions.md D14). -/
  spriteTileCount   : Option Nat
  /-- `TILE_DESC_LAYOUT`. -/
  tileDesc          : TileDescLayout
  /-- `TREG_LAYOUT`. -/
  tregLayout        : TregLayout
  /-- `SPR_LAYOUT`. -/
  sprLayout         : SprLayout
  /-- `TILE_CLIP_EXCLUSIVE`. -/
  tileClipExclusive : Bool
  /-- `TILE4_COLOUR_BANK`. -/
  tile4ColourBank   : Bool
  /-- `TILE4_BANK_SHIFT`: OPEN, so it may be unset. -/
  tile4BankShift    : Option Nat
  /-- `CONTRAST_SCALE`. -/
  contrastScale     : ContrastScale
  /-- `BRT_CACHE_RESET`. -/
  brtCacheReset     : BitVec 4
  /-- `HOST_LANE_ORDER`. -/
  hostLaneOrder     : LaneOrder
  /-- `BLITTER_PRESENT`. -/
  blitterPresent    : Bool
  /-- `BLIT_ROM`; `BLIT_ROM_SIZE` is its length. -/
  blitRom           : List Byte
  /-- `BLT_REG_LAYOUT`. -/
  bltRegLayout      : BltRegLayout
  /-- `BLT_AMOUNT_UNIT`. -/
  bltAmountUnit     : AmountUnit
  /-- `BLT_HALF_POLARITY`. -/
  bltHalfPolarity   : HalfPolarity
  /-- `BLT_DONE_DELAY` in microseconds: the host's; no rule of the model reads it (R127). -/
  bltDoneDelay      : Nat
  deriving DecidableEq, Repr

/-- A displayed colour (43_palette_output.md R116). -/
structure Rgb where
  r : Byte
  g : Byte
  b : Byte
  deriving DecidableEq, Repr, Inhabited

/-- The free values of `draw UInt32` (00_scope.md R14; log 4): the `n`-th word drawn in a run. It has
no body, so nothing can be proved of its values. Read by write-only and unmapped reads
(40_bus_access.md R81, R83, R85, R87; 48_blitter_optional.md R130). -/
opaque Config.freeWord : Nat → Word

/-- The free values of `draw RGB` (R14; log 5): the colour the `n`-th observation shows where
43_palette_output.md R122 fixes none. -/
opaque Config.freeColour : Nat → Rgb

end Sys2Proof
end

