-- ==== Sys2Proof/Syntax.lean ====
section
/-! DEFINITION. What the host can send (30_encoding.md R54, R55), the blitter's commands
(48_blitter_optional.md R133), and the instruction type: one constructor per row of
spec/opcode_table.json (00_scope.md R4). -/

namespace Sys2Proof

/-- A bus request in the format `BUSREQ` (R54). `be` and `data` are used by writes only. -/
structure BusReq where
  w    : Bool
  addr : BitVec 20
  be   : Lanes
  data : Word
  deriving DecidableEq, Repr

/-- One input of the host: a bus request or an event code (R54, R55). -/
inductive Input where
  | bus (r : BusReq)
  | evt (code : BitVec 2)
  deriving DecidableEq, Repr

/-- One command of the blitter's stream (R133). -/
inductive BltCmd where
  | endList
  | copy (amt : Byte)
  | fill (amt : Byte) (v : Half)
  | nextline
  | unknown (c0 : Byte)
  deriving DecidableEq, Repr

/-- The inputs of the block by name, one constructor per row of the opcode table. Offsets are word
indices within the window. The unmapped rows carry the word address `addr[19:2]` they were sent to;
no meaning reads it. -/
inductive Instr where
  | tileRd (bank : BitVec 2) (off : BitVec 14)
  | tileWr (bank : BitVec 2) (off : BitVec 14) (data : Word) (be : Lanes)
  | sprRd (off : BitVec 14)
  | sprWr (off : BitVec 14) (data : Word) (be : Lanes)
  | palRd (idx : BitVec 12)
  | palWr (idx : BitVec 12) (data : Word) (be : Lanes)
  | tregRd (t : BitVec 2) (off : BitVec 5)
  | tregWr (t : BitVec 2) (off : BitVec 5) (data : Word) (be : Lanes)
  | sregRd (off : BitVec 4)
  | sregWr (off : BitVec 4) (data : Word) (be : Lanes)
  | brtRd (p : BitVec 1)
  | brtWr (p : BitVec 1) (data : Word) (be : Lanes)
  | bltregRd (off : BitVec 3)
  | bltregWr (off : BitVec 3) (data : Word) (be : Lanes)
  | unmappedRd (wa : BitVec 18)
  | unmappedWr (wa : BitVec 18) (data : Word) (be : Lanes)
  | refreshLeft
  | refreshRight
  | blitDone
  | reset
  | bltEnd
  | bltCopy (amt : Byte)
  | bltFill (amt : Byte) (v : Half)
  | bltNextline
  | bltUnknown (c0 : Byte)
  deriving DecidableEq, Repr

/-- A blitter command as an instruction. -/
def BltCmd.instr : BltCmd → Instr
  | .endList    => .bltEnd
  | .copy amt   => .bltCopy amt
  | .fill amt v => .bltFill amt v
  | .nextline   => .bltNextline
  | .unknown c0 => .bltUnknown c0

end Sys2Proof
end

