-- ==== Sys2Proof/Machine/Params.lean ====
section
/-! DEFINITION. The *source* rows of 00_scope.md R9 as constants, the spec's default for every other
row (`defaultConfig`), and the windows of an address map (20_memory.md R45). -/

namespace Sys2Proof

/-- `TILE_BANK_WORDS` (R9; 10_state.md R22). -/
def tileBankWords : Nat := 0x8000

/-- `TILE_WINDOW_WORDS` (R9; 90_conflicts.md C1). -/
def tileWindowWords : Nat := 0x4000

/-- `SPRITE_WORDS` (R9; 10_state.md R24). -/
def spriteWords : Nat := 0x3000

/-- `PALETTE_ENTRIES` (R9). -/
def paletteEntries : Nat := 0x1000

/-- `PALETTE_SPLIT` (R9): the first entry of contrast bank 1. -/
def paletteSplit : Nat := 0x800

/-- `TREG_WORDS` (R9; 90_conflicts.md C6). -/
def tregWords : Nat := 24

/-- `GRID_W` and `GRID_H` (R9). -/
def gridSize : Nat := 64

/-- `TILE_UNIT` (R9): bytes of tile ROM per unit of `tileAddress`. -/
def tileUnit : Nat := 32

/-- `SPRITE_SIZE` (R9). -/
def spriteSize : Nat := 16

/-- `SPRITE_BIAS` (R9; 42_compositor.md R106). -/
def spriteBias : Int := 8

/-- `SPRITE_XOFF_LEFT` and `SPRITE_XOFF_RIGHT` (R9; 42_compositor.md R110, R111). -/
def spriteXoff : Screen → Int
  | .left  => 320
  | .right => 0

/-- The words of a blitter register window (48_blitter_optional.md R129). -/
def bltregWords : Nat := 8

/-- The default `ADDR_MAP` (R45). -/
def defaultAddrMap : List Window :=
  [ ⟨.tile 0, 0x00000⟩, ⟨.tile 1, 0x10000⟩, ⟨.tile 2, 0x20000⟩, ⟨.tile 3, 0x30000⟩,
    ⟨.sprite, 0x40000⟩, ⟨.palette, 0x50000⟩,
    ⟨.treg 0, 0x60000⟩, ⟨.treg 1, 0x60080⟩, ⟨.treg 2, 0x60100⟩, ⟨.treg 3, 0x60180⟩,
    ⟨.sreg, 0x60200⟩, ⟨.brt 0, 0x60300⟩, ⟨.brt 1, 0x60304⟩, ⟨.bltreg, 0x60400⟩ ]

/-- The default `TILE_DESC_LAYOUT` (30_encoding.md R58; log 10). -/
def defaultTileDesc : TileDescLayout :=
  { tileAddress := 0, colorBank := 20, depth := 28, flipXY := 29, blank := 31 }

/-- The default `TREG_LAYOUT` (30_encoding.md R59, R60; log 10). -/
def defaultTregLayout : TregLayout :=
  { tileSizeFlag := 22, scrollX := 4, scrollY := 20 }

/-- The default `SPR_LAYOUT` (30_encoding.md R61, R62; log 10). -/
def defaultSprLayout : SprLayout :=
  { xPos := 0, yFlip := 14, xFlip := 15, yPos := 16, tileIndex := 0, colorBank := 20 }

/-- The default `BLT_REG_LAYOUT` (48_blitter_optional.md R129; log 10). -/
def defaultBltRegLayout : BltRegLayout :=
  { src := ⟨0, 0⟩, col := ⟨1, 0⟩, line := ⟨2, 0⟩, tm := ⟨3, 0⟩, odd := ⟨4, 0⟩, start := 5 }

/-- The configuration with every row of R9 and R127 at the spec's default. The three ROMs are OPEN
in the spec and empty here (log 9). -/
def defaultConfig : Config :=
  { addrMap           := defaultAddrMap
    sregWords         := 9
    screenW           := 320
    screenH           := 240
    tileRom           := []
    spriteRom         := []
    spriteIndexPolicy := .wrap
    spriteTileCount   := none
    tileDesc          := defaultTileDesc
    tregLayout        := defaultTregLayout
    sprLayout         := defaultSprLayout
    tileClipExclusive := true
    tile4ColourBank   := false
    tile4BankShift    := none
    contrastScale     := .floor16
    brtCacheReset     := 0
    hostLaneOrder     := .big
    blitterPresent    := false
    blitRom           := []
    bltRegLayout      := defaultBltRegLayout
    bltAmountUnit     := .bytes
    bltHalfPolarity   := .upperOn0
    bltDoneDelay      := 500 }

/-- The words of a window (R45, column *words*). -/
def regionWords (c : Config) : Region → Nat
  | .tile _  => tileWindowWords
  | .sprite  => spriteWords
  | .palette => paletteEntries
  | .treg _  => tregWords
  | .sreg    => c.sregWords
  | .brt _   => 1
  | .bltreg  => bltregWords

/-- Whether a window exists at all: BLTREG only if `BLITTER_PRESENT` (R45; 48_blitter_optional.md
R126). -/
def regionPresent (c : Config) : Region → Bool
  | .bltreg => c.blitterPresent
  | _       => true

/-- The word index of byte address `a` in a window: the byte offset shifted right by 2 (20_memory.md
R43). -/
def wordIndex (w : Window) (a : Nat) : Nat :=
  (a - w.base) / 4

/-- Whether byte address `a` falls in the window `w` (R45). -/
def windowHolds (c : Config) (a : Nat) (w : Window) : Bool :=
  regionPresent c w.region && decide (w.base ≤ a) && decide (wordIndex w a < regionWords c w.region)

/-- The first window of the map that holds byte address `a`; none if it is unmapped (R46). -/
def windowAt (c : Config) (a : Nat) : Option Window :=
  c.addrMap.find? (windowHolds c a)

/-- The base address of a region in the map; 0 for a region the map does not list, which no sound
map leaves out (`mapSound`). -/
def regionBase (c : Config) (r : Region) : Nat :=
  ((c.addrMap.find? fun w => decide (w.region = r)).map Window.base).getD 0

end Sys2Proof
end

