-- ==== Sys2Proof/WellFormed.lean ====
section
/-! DEFINITION. Which instructions the decoder can give (30_encoding.md R56, column *valid if*), and
which configurations are sound instantiations of 00_scope.md R9. -/

namespace Sys2Proof

/-- An instruction a request, event or command byte of a machine with configuration `c` can decode
to (R56; 48_blitter_optional.md R126, R133). -/
def Instr.wf (c : Config) : Instr → Bool
  | .tileRd _ _ => true
  | .tileWr _ _ _ _ => true
  | .sprRd off => decide (off.toNat < spriteWords)
  | .sprWr off _ _ => decide (off.toNat < spriteWords)
  | .palRd _ => true
  | .palWr _ _ _ => true
  | .tregRd _ off => decide (off.toNat < tregWords)
  | .tregWr _ off _ _ => decide (off.toNat < tregWords)
  | .sregRd off => decide (off.toNat < c.sregWords)
  | .sregWr off _ _ => decide (off.toNat < c.sregWords)
  | .brtRd _ => true
  | .brtWr _ _ _ => true
  | .bltregRd _ => c.blitterPresent
  | .bltregWr _ _ _ => c.blitterPresent
  | .unmappedRd wa => (windowAt c (4 * wa.toNat)).isNone
  | .unmappedWr wa _ _ => (windowAt c (4 * wa.toNat)).isNone
  | .refreshLeft => true
  | .refreshRight => true
  | .blitDone => true
  | .reset => true
  | .bltEnd => c.blitterPresent
  | .bltCopy amt => c.blitterPresent && decide (amt ≠ 0)
  | .bltFill _ _ => c.blitterPresent
  | .bltNextline => c.blitterPresent
  | .bltUnknown c0 => c.blitterPresent && decide (c0 ≠ 0 ∧ c0 ≠ 2 ∧ c0 ≠ 3)

/-- Every window an address map has to list (20_memory.md R45). -/
def allRegions : List Region :=
  [.tile 0, .tile 1, .tile 2, .tile 3, .sprite, .palette, .treg 0, .treg 1, .treg 2, .treg 3,
   .sreg, .brt 0, .brt 1, .bltreg]

/-- The byte after the last byte of a window. -/
def windowEnd (c : Config) (w : Window) : Nat :=
  w.base + 4 * regionWords c w.region

/-- Two windows share no byte. -/
def windowsApart (c : Config) (v w : Window) : Bool :=
  decide (windowEnd c v ≤ w.base) || decide (windowEnd c w ≤ v.base)

/-- An address map a machine can have: every region is listed, each window starts at a word of the
20-bit space and ends inside it, no two windows share a byte, and `SREG_WORDS` fits the four offset
bits of R56 row 9 (log 19). -/
def mapSound (c : Config) : Bool :=
  allRegions.all (fun r => c.addrMap.any fun w => decide (w.region = r))
    && c.addrMap.all (fun w => decide (4 ∣ w.base) && decide (windowEnd c w ≤ 0x100000))
    && decide (c.addrMap.Pairwise fun v w => windowsApart c v w = true)
    && decide (c.sregWords ≤ 16)

/-- A field of width `n` at bit `lo` lies inside a 32-bit word. -/
def fieldFits (lo n : Nat) : Bool :=
  decide (lo + n ≤ 32)

/-- The layouts place every field inside its word, with the widths of 30_encoding.md R58 to R62 and
48_blitter_optional.md R129. -/
def layoutsFit (c : Config) : Bool :=
  fieldFits c.tileDesc.tileAddress 20 && fieldFits c.tileDesc.colorBank 8
    && fieldFits c.tileDesc.depth 1 && fieldFits c.tileDesc.flipXY 2 && fieldFits c.tileDesc.blank 1
    && fieldFits c.tregLayout.tileSizeFlag 1 && fieldFits c.tregLayout.scrollX 12
    && fieldFits c.tregLayout.scrollY 12
    && fieldFits c.sprLayout.xPos 12 && fieldFits c.sprLayout.yFlip 1
    && fieldFits c.sprLayout.xFlip 1 && fieldFits c.sprLayout.yPos 12
    && fieldFits c.sprLayout.tileIndex 18 && fieldFits c.sprLayout.colorBank 8
    && fieldFits c.bltRegLayout.src.lo 32 && fieldFits c.bltRegLayout.col.lo 7
    && fieldFits c.bltRegLayout.line.lo 8 && fieldFits c.bltRegLayout.tm.lo 2
    && fieldFits c.bltRegLayout.odd.lo 1

/-- A contrast table has 16 rows of 256 bytes (43_palette_output.md R120; log 15). -/
def contrastScaleFits : ContrastScale → Bool
  | .floor16    => true
  | .table rows => decide (rows.length = 16 * 256)

/-- A configuration that instantiates R9 and R127. The bound on `TILE4_BANK_SHIFT` keeps the pens of
41_tile_decoder.md R94 inside 16 bits (log 16). -/
def Config.wf (c : Config) : Bool :=
  mapSound c && layoutsFit c && contrastScaleFits c.contrastScale
    && (match c.tile4BankShift with
        | none   => true
        | some n => decide (n ≤ 8))

end Sys2Proof
end

