-- ==== Sys2Proof/Decode.lean ====
section
/-! DEFINITION. The decoder of requests, events and command bytes (30_encoding.md R54 to R57;
48_blitter_optional.md R133), R56's own table beside it, and the encoder. -/

namespace Sys2Proof

/-- Why a decode gives no instruction: the command stream ends before byte `missing` of the command
(bytes counted from the command's first). The fetch turns it into the ROM fault of that byte's
address. Bus requests and events are never rejected (R57). -/
inductive DecodeErr where
  | streamShort (missing : Nat)
  deriving DecidableEq, Repr

/-- What an instruction is decoded from: an input of the host, or the bytes of the command ROM from
the source pointer on. -/
inductive Words where
  | input (i : Input)
  | cmd (bytes : List Byte)
  deriving DecidableEq, Repr

/-- The request for word `idx` of region `r` (R56). -/
def regionInstr (r : Region) (idx : Nat) (q : BusReq) : Instr :=
  match r, q.w with
  | .tile b, false  => .tileRd b (BitVec.ofNat 14 idx)
  | .tile b, true   => .tileWr b (BitVec.ofNat 14 idx) q.data q.be
  | .sprite, false  => .sprRd (BitVec.ofNat 14 idx)
  | .sprite, true   => .sprWr (BitVec.ofNat 14 idx) q.data q.be
  | .palette, false => .palRd (BitVec.ofNat 12 idx)
  | .palette, true  => .palWr (BitVec.ofNat 12 idx) q.data q.be
  | .treg t, false  => .tregRd t (BitVec.ofNat 5 idx)
  | .treg t, true   => .tregWr t (BitVec.ofNat 5 idx) q.data q.be
  | .sreg, false    => .sregRd (BitVec.ofNat 4 idx)
  | .sreg, true     => .sregWr (BitVec.ofNat 4 idx) q.data q.be
  | .brt p, false   => .brtRd p
  | .brt p, true    => .brtWr p q.data q.be
  | .bltreg, false  => .bltregRd (BitVec.ofNat 3 idx)
  | .bltreg, true   => .bltregWr (BitVec.ofNat 3 idx) q.data q.be

/-- The request for an address in no window (R56 rows 15 and 16). -/
def unmappedInstr (q : BusReq) : Instr :=
  match q.w with
  | false => .unmappedRd (q.addr.extractLsb' 2 18)
  | true  => .unmappedWr (q.addr.extractLsb' 2 18) q.data q.be

/-- Decode a bus request through the address map: the window that holds the address gives the row,
and an address in no window is unmapped (R56; 20_memory.md R45, R46). Total (R57). -/
def decodeBus (c : Config) (q : BusReq) : Instr :=
  match windowAt c q.addr.toNat with
  | some w => regionInstr w.region (wordIndex w q.addr.toNat) q
  | none   => unmappedInstr q

/-- Decode an event code (R55). All four codes are used. -/
def decodeEvt (code : BitVec 2) : Instr :=
  match code.toNat with
  | 0 => .refreshLeft
  | 1 => .refreshRight
  | 2 => .blitDone
  | _ => .reset

/-- Decode one input of the host. -/
def decodeInput (c : Config) : Input → Instr
  | .bus q    => decodeBus c q
  | .evt code => decodeEvt code

/-- Decode the command at the head of the byte stream (R133). A COPY's payload stays in the stream:
R135 reads it half-word by half-word. -/
def decodeCmd : List Byte → Except DecodeErr BltCmd
  | [] => .error (.streamShort 0)
  | c0 :: rest =>
    if c0 = 0x00 then
      match rest with
      | []       => .error (.streamShort 1)
      | amt :: _ => .ok (if amt = 0 then .endList else .copy amt)
    else if c0 = 0x02 then
      match rest with
      | []                   => .error (.streamShort 1)
      | [_]                  => .error (.streamShort 2)
      | [_, _]               => .error (.streamShort 3)
      | amt :: hi :: lo :: _ => .ok (.fill amt (hi ++ lo))
    else if c0 = 0x03 then .ok .nextline
    else .ok (.unknown c0)

/-- Decode any words: total on bus requests and events, rejecting a short command stream by name. -/
def decode (c : Config) : Words → Except DecodeErr Instr
  | .input i => .ok (decodeInput c i)
  | .cmd bs  => (decodeCmd bs).map BltCmd.instr

/-! ## R56's table, row by row -/

/-- One row of the decode table of R56. -/
structure BusRow where
  number : Nat
  mask   : BitVec 21
  pat    : BitVec 21
  valid  : BusReq → Bool
  instr  : BusReq → Instr

/-- The decode key `{W, addr}` of a request, `W` at bit 20 (R54). -/
def busKey (q : BusReq) : BitVec 21 :=
  BitVec.ofBool q.w ++ q.addr

/-- Bits `lo .. lo+n-1` of a request's address. -/
def addrField (lo n : Nat) (q : BusReq) : BitVec n :=
  q.addr.extractLsb' lo n

/-- The sixteen rows of R56. -/
def busTable (c : Config) : List BusRow :=
  [ ⟨1, 0x1C0000, 0x000000, fun _ => true, fun q => .tileRd (addrField 16 2 q) (addrField 2 14 q)⟩,
    ⟨2, 0x1C0000, 0x100000, fun _ => true,
      fun q => .tileWr (addrField 16 2 q) (addrField 2 14 q) q.data q.be⟩,
    ⟨3, 0x1F0000, 0x040000, fun q => decide ((addrField 2 14 q).toNat < 0x3000),
      fun q => .sprRd (addrField 2 14 q)⟩,
    ⟨4, 0x1F0000, 0x140000, fun q => decide ((addrField 2 14 q).toNat < 0x3000),
      fun q => .sprWr (addrField 2 14 q) q.data q.be⟩,
    ⟨5, 0x1FC000, 0x050000, fun _ => true, fun q => .palRd (addrField 2 12 q)⟩,
    ⟨6, 0x1FC000, 0x150000, fun _ => true, fun q => .palWr (addrField 2 12 q) q.data q.be⟩,
    ⟨7, 0x1FFE00, 0x060000, fun q => decide ((addrField 2 5 q).toNat < 24),
      fun q => .tregRd (addrField 7 2 q) (addrField 2 5 q)⟩,
    ⟨8, 0x1FFE00, 0x160000, fun q => decide ((addrField 2 5 q).toNat < 24),
      fun q => .tregWr (addrField 7 2 q) (addrField 2 5 q) q.data q.be⟩,
    ⟨9, 0x1FFFC0, 0x060200, fun q => decide ((addrField 2 4 q).toNat < 9),
      fun q => .sregRd (addrField 2 4 q)⟩,
    ⟨10, 0x1FFFC0, 0x160200, fun q => decide ((addrField 2 4 q).toNat < 9),
      fun q => .sregWr (addrField 2 4 q) q.data q.be⟩,
    ⟨11, 0x1FFFF8, 0x060300, fun _ => true, fun q => .brtRd (addrField 2 1 q)⟩,
    ⟨12, 0x1FFFF8, 0x160300, fun _ => true, fun q => .brtWr (addrField 2 1 q) q.data q.be⟩,
    ⟨13, 0x1FFFE0, 0x060400, fun _ => c.blitterPresent, fun q => .bltregRd (addrField 2 3 q)⟩,
    ⟨14, 0x1FFFE0, 0x160400, fun _ => c.blitterPresent,
      fun q => .bltregWr (addrField 2 3 q) q.data q.be⟩,
    ⟨15, 0x100000, 0x000000, fun _ => true, fun q => .unmappedRd (addrField 2 18 q)⟩,
    ⟨16, 0x100000, 0x100000, fun _ => true,
      fun q => .unmappedWr (addrField 2 18 q) q.data q.be⟩ ]

/-- Whether a request matches a row's mask and its *valid if* (R56). -/
def rowTakes (q : BusReq) (r : BusRow) : Bool :=
  decide (busKey q &&& r.mask = r.pat) && r.valid q

/-- The first row of R56 that takes the request, read from the table as printed. For the default map
it agrees with `decodeBus`. -/
def decodeByTable (c : Config) (q : BusReq) : Instr :=
  match (busTable c).find? (rowTakes q) with
  | some r => r.instr q
  | none   => unmappedInstr q

/-! ## The encoder -/

/-- The request for word `idx` of region `r` under the map of `c` (R54, R71). -/
def regionReq (c : Config) (r : Region) (idx : Nat) (w : Bool) (data : Word) (be : Lanes) : BusReq :=
  { w := w, addr := BitVec.ofNat 20 (regionBase c r + 4 * idx), be := be, data := data }

/-- The request for the unmapped word address `wa`. -/
def unmappedReq (wa : BitVec 18) (w : Bool) (data : Word) (be : Lanes) : BusReq :=
  { w := w, addr := wa ++ (0#2), be := be, data := data }

/-- A read carries no lane enable and no data: both are sent as zero. -/
def busRead (c : Config) (r : Region) (idx : Nat) : Words :=
  .input (.bus (regionReq c r idx false 0 0))

/-- A masked write of word `idx` of region `r`. -/
def busWrite (c : Config) (r : Region) (idx : Nat) (data : Word) (be : Lanes) : Words :=
  .input (.bus (regionReq c r idx true data be))

/-- The words of a well-formed instruction (R54, R55, R133). -/
def encode (c : Config) : Instr → Words
  | .tileRd b off          => busRead c (.tile b) off.toNat
  | .tileWr b off data be  => busWrite c (.tile b) off.toNat data be
  | .sprRd off             => busRead c .sprite off.toNat
  | .sprWr off data be     => busWrite c .sprite off.toNat data be
  | .palRd idx             => busRead c .palette idx.toNat
  | .palWr idx data be     => busWrite c .palette idx.toNat data be
  | .tregRd t off          => busRead c (.treg t) off.toNat
  | .tregWr t off data be  => busWrite c (.treg t) off.toNat data be
  | .sregRd off            => busRead c .sreg off.toNat
  | .sregWr off data be    => busWrite c .sreg off.toNat data be
  | .brtRd p               => busRead c (.brt p) 0
  | .brtWr p data be       => busWrite c (.brt p) 0 data be
  | .bltregRd off          => busRead c .bltreg off.toNat
  | .bltregWr off data be  => busWrite c .bltreg off.toNat data be
  | .unmappedRd wa         => .input (.bus (unmappedReq wa false 0 0))
  | .unmappedWr wa data be => .input (.bus (unmappedReq wa true data be))
  | .refreshLeft           => .input (.evt 0)
  | .refreshRight          => .input (.evt 1)
  | .blitDone              => .input (.evt 2)
  | .reset                 => .input (.evt 3)
  | .bltEnd                => .cmd [0x00, 0x00]
  | .bltCopy amt           => .cmd [0x00, amt]
  | .bltFill amt v         => .cmd [0x02, amt, v.extractLsb' 8 8, v.extractLsb' 0 8]
  | .bltNextline           => .cmd [0x03]
  | .bltUnknown c0         => .cmd [c0]

/-! ## The host's reading of one opcode-table word -/

/-- The words an opcode-table row of `nbits` bits stands for (log 13): up to 8 bits an event code, up
to 16 the key `{c0, c1}` of a blitter command with zero bytes after it, as many as the longest
command has, up to 24 the key `{W, addr}`
of a bus request with `be` and `data` zero. -/
def tableWords (nbits w : Nat) : Option Words :=
  if nbits = 0 then none
  else if nbits ≤ 8 then some (.input (.evt (BitVec.ofNat 2 w)))
  else if nbits ≤ 16 then
    some (.cmd (BitVec.ofNat 8 (w / 0x100) :: BitVec.ofNat 8 w :: List.replicate 510 0))
  else if nbits ≤ 24 then
    some (.input (.bus { w := (BitVec.ofNat 21 w).getLsbD 20, addr := BitVec.ofNat 20 w,
                         be := 0, data := 0 }))
  else none

/-- The default configuration with the annex present: the opcode table lists the annex's rows, so
its words are read with the blitter there (log 13). -/
def annexConfig : Config :=
  { defaultConfig with blitterPresent := true }

/-- The instruction the decoder reads from an opcode-table word. -/
def decodeTableWord (nbits w : Nat) : Option Instr :=
  match tableWords nbits w with
  | none    => none
  | some ws => (decode annexConfig ws).toOption

end Sys2Proof
end

