-- ==== Sys2Proof/Machine/State.lean ====
section
/-! DEFINITION. The state record (10_state.md R19; 48_blitter_optional.md R128), the reasons a step
can stop (60_exceptions.md R144, R145), and the state after reset (10_state.md R38). -/

namespace Sys2Proof.Machine

/-- The read-only byte arrays of 10_state.md R36. -/
inductive Rom where
  | tile
  | sprite
  | blit
  deriving DecidableEq, Repr

/-- The model's fault kinds, with the information R144 records. -/
inductive Fault where
  /-- A ROM fetch at or past the ROM's end (R14, R144): raised by a tile pixel or sprite pixel of a
  refresh that passed its clip test, and by a blit reading its command stream. Safe: the spec gives
  the fetch no value, and nothing can be proved of a run that reaches it. -/
  | romOutOfRange (rom : Rom) (addr : Nat)
  /-- A sprite tile index past the sprite graphics under the policy `fault`, or no sprite graphics at
  all (R97, R144): raised by a refresh. Safe. -/
  | spriteIndexOutOfRange (tile : Nat)
  /-- A blitter write at word index 0x8000 or more (R134, R144): raised by a blit. Safe. -/
  | bltDestOutOfRange (bank : BitVec 2) (idx : Nat)
  deriving DecidableEq, Repr

/-- The model's refusals (R145), and the rejection by name of an instruction with no meaning yet. -/
inductive Refusal where
  /-- Raised by an arm of `exec` whose instruction has no meaning yet; no arm raises it now. Safe. -/
  | notModelled (mnemonic : String)
  /-- A 4bpp tile pixel passes the clip test while `TILE4_COLOUR_BANK` is on and `TILE4_BANK_SHIFT`
  is not given (R94, R145): raised by a refresh. Safe. -/
  | tile4BankShiftUnset
  /-- A COPY or FILL with an odd amount while the amount counts bytes (R135, R137, R145): raised by a
  blit. Safe. -/
  | bltOddAmount
  deriving DecidableEq, Repr

/-- The fault and refusal marks (R19, R144, R145): what a step that stopped left behind (log 6). -/
structure Marks where
  fault   : Option Fault
  refusal : Option Refusal
  deriving DecidableEq, Repr

/-- A pixel of an output bitmap (R19, R34). -/
inductive Pixel where
  | undef
  | black
  | pen (p : Pen)
  deriving DecidableEq, Repr

/-- A word array of the spec (`TileMem[b]`, `SpriteMem`, `TReg[t]`, `SReg`, `BrtReg`, `PalMem`,
`Blt.Reg`) as its lanes: lane `i` of word `k` is the cell at address `4 * k + i`. Addresses rise
strictly, and a lane that holds 0, the reset value of every array (R38), is not listed (log 11). -/
abbrev Store := List Host.Cell

/-- One row of a bitmap: the pixels that differ from the bitmap's base pixel, by rising column. -/
abbrev Row := List (Nat × Pixel)

/-- An output bitmap (R34): every pixel shows `base` but for those listed, by rising row and column
(log 12). `base` is `undef` from reset and `black` from the first clear on (R109). -/
structure Frame where
  base : Pixel
  rows : List (Nat × Row)
  deriving DecidableEq, Repr

/-- The cursor of a running blit (48_blitter_optional.md R132): the source pointer, the line base,
the initial and the current column, the target bank and the half flag. It exists only inside the step
that runs the blit (R128; log 7). -/
structure BltCursor where
  src      : Nat
  col0     : BitVec 7
  col      : BitVec 7
  lineBase : Nat
  tm       : BitVec 2
  odd      : Bool
  deriving DecidableEq, Repr

/-- What an input returns to the host: a read's word (40_bus_access.md R73), or the completion
interrupt (48_blitter_optional.md R140). -/
inductive Output where
  | word (w : Word)
  | irqBlit
  deriving DecidableEq, Repr

/-- The state of the block (R19, R128), its fixed configuration, and the model's own fields `inbox`,
`out` and `draws`. -/
structure State where
  /-- The configuration record: no input changes it (R20; log 1). -/
  cfg        : Config
  /-- `TileMem` (R22). -/
  tile       : Vector Store 4
  /-- `SpriteMem` (R24). -/
  sprite     : Store
  /-- `TReg` (R25). -/
  treg       : Vector Store 4
  /-- `SReg` (R28). -/
  sreg       : Store
  /-- `BrtReg` (R29). -/
  brt        : Store
  /-- `BrtCache` (R30). -/
  brtCache   : Vector (BitVec 4) 2
  /-- `Contrast`: numerators of 16 (R31). -/
  contrast   : Vector (Fin 17) 2
  /-- `PalMem` (R32). -/
  pal        : Store
  /-- `Fb[LEFT]` (R34). -/
  fbLeft     : Frame
  /-- `Fb[RIGHT]` (R34). -/
  fbRight    : Frame
  /-- `Blt.Reg` (R128). -/
  bltReg     : Store
  /-- `Blt.pending` (R128). -/
  bltPending : Bool
  /-- The cursor of the blit that is running; none between steps (R128, R132; log 7). -/
  cursor     : Option BltCursor
  /-- `marks` (R144, R145). -/
  marks      : Marks
  /-- The model's own: the inputs the host has issued and the block has not taken, in the order of
  20_memory.md R49 (log 2). -/
  inbox      : List Input
  /-- The model's own: what the latest input returned to the host (log 3). -/
  out        : Option Output
  /-- The model's own: how many words have been drawn (log 4). -/
  draws      : Nat
  deriving DecidableEq, Repr

/-- The bitmap of a screen never rendered since reset (R34, R38). -/
def blankFrame : Frame :=
  { base := .undef, rows := [] }

/-- The initial state of a run of the machine with configuration `c`: R38, with both marks clear. -/
def initState (c : Config) : State :=
  { cfg        := c
    tile       := #v[[], [], [], []]
    sprite     := []
    treg       := #v[[], [], [], []]
    sreg       := []
    brt        := []
    brtCache   := #v[c.brtCacheReset, c.brtCacheReset]
    contrast   := #v[16, 16]
    pal        := []
    fbLeft     := blankFrame
    fbRight    := blankFrame
    bltReg     := []
    bltPending := false
    cursor     := none
    marks      := { fault := none, refusal := none }
    inbox      := []
    out        := none
    draws      := 0 }

/-- The machine right after reset (R38), with the spec's default configuration (log 9, log 10). -/
def State.reset : State :=
  initState defaultConfig

end Sys2Proof.Machine
end

