-- ==== Sys2Proof/Machine/Ops.lean ====
section
/-! DEFINITION. The named operations over stores, bitmaps, ROMs and the registers of State, the
stopping of a step, and the drawing of free values (00_scope.md R13, R14). -/

namespace Sys2Proof.Machine

/-! ## Cells: sparse data by address, in canonical form -/

/-- The value at address `a`; `d` where no cell is listed. -/
def cellGet {β : Type} (d : β) : List (Nat × β) → Nat → β
  | [], _ => d
  | (k, v) :: m, a => if k = a then v else cellGet d m a

/-- Put `v` at `a`, keeping the addresses rising. -/
def cellInsert {β : Type} : List (Nat × β) → Nat → β → List (Nat × β)
  | [], a, v => [(a, v)]
  | (k, u) :: m, a, v =>
    if a < k then (a, v) :: (k, u) :: m
    else if k = a then (a, v) :: m
    else (k, u) :: cellInsert m a v

/-- Remove the cell at `a`. -/
def cellErase {β : Type} : List (Nat × β) → Nat → List (Nat × β)
  | [], _ => []
  | (k, u) :: m, a => if k = a then cellErase m a else (k, u) :: cellErase m a

/-- Write `v` at `a`. Writing what an unlisted address reads as removes the cell. -/
def cellSet {β : Type} [DecidableEq β] (d : β) (m : List (Nat × β)) (a : Nat) (v : β) :
    List (Nat × β) :=
  if v = d then cellErase m a else cellInsert m a v

/-- The canonical form: addresses rise strictly and no cell holds `d`. -/
def cellsWf {β : Type} [DecidableEq β] (d : β) : List (Nat × β) → Bool
  | [] => true
  | [(_, v)] => decide (v ≠ d)
  | (k, v) :: (k', v') :: m => decide (v ≠ d) && decide (k < k') && cellsWf d ((k', v') :: m)

/-- Every listed address is below `n`. -/
def cellsBelow {β : Type} (n : Nat) (m : List (Nat × β)) : Bool :=
  m.all fun e => decide (e.1 < n)

/-! ## Word arrays -/

/-- Lane `k` of word `i` (R11). -/
def storeLane (m : Store) (i k : Nat) : Byte :=
  cellGet 0 m (4 * i + k)

/-- `S[i]` (R14): the four lanes of word `i`, lane 3 the highest (R11). -/
def storeWord (m : Store) (i : Nat) : Word :=
  storeLane m i 3 ++ storeLane m i 2 ++ storeLane m i 1 ++ storeLane m i 0

/-- `S[i] <- w` (R14). -/
def storePut (m : Store) (i : Nat) (w : Word) : Store :=
  let m0 := cellSet 0 m (4 * i) (w.extractLsb' 0 8)
  let m1 := cellSet 0 m0 (4 * i + 1) (w.extractLsb' 8 8)
  let m2 := cellSet 0 m1 (4 * i + 2) (w.extractLsb' 16 8)
  cellSet 0 m2 (4 * i + 3) (w.extractLsb' 24 8)

/-- The canonical form of a word array. -/
def Store.wf (m : Store) : Bool :=
  cellsWf 0 m

/-- A word array of `n` words lists no lane past its last word. -/
def storeBelow (n : Nat) (m : Store) : Bool :=
  cellsBelow (4 * n) m

/-- One lane of the mask: all ones if enabled. -/
def laneMask (b : Bool) : Byte :=
  if b then 0xFF else 0x00

/-- `lanes(be)` (R13). -/
def lanes (be : Lanes) : Word :=
  laneMask (be.getLsbD 3) ++ laneMask (be.getLsbD 2) ++ laneMask (be.getLsbD 1)
    ++ laneMask (be.getLsbD 0)

/-- `merge(old, data, be)` (R13). -/
def merge (old data : Word) (be : Lanes) : Word :=
  (old &&& ~~~(lanes be)) ||| (data &&& lanes be)

/-- `MemWrite(S, i, 4, data, be)` (R14): the masked write of one word. -/
def storeMerge (m : Store) (i : Nat) (data : Word) (be : Lanes) : Store :=
  storePut m i (merge (storeWord m i) data be)

/-! ## Banked registers -/

/-- Element `b` of four. -/
def quad {α : Type} (v : Vector α 4) (b : BitVec 2) : α :=
  v[b.toNat]'b.isLt

/-- Replace element `b` of four. -/
def setQuad {α : Type} (v : Vector α 4) (b : BitVec 2) (x : α) : Vector α 4 :=
  v.set b.toNat x b.isLt

/-- Element `b` of two. -/
def pair {α : Type} (v : Vector α 2) (b : BitVec 1) : α :=
  v[b.toNat]'b.isLt

/-- Replace element `b` of two. -/
def setPair {α : Type} (v : Vector α 2) (b : BitVec 1) (x : α) : Vector α 2 :=
  v.set b.toNat x b.isLt

/-! ## Bitmaps -/

/-- `Fb[s][y][x]` (R34). -/
def frameAt (f : Frame) (x y : Nat) : Pixel :=
  cellGet f.base (cellGet [] f.rows y) x

/-- `plot(s, x, y, p)` (R14). -/
def plot (f : Frame) (x y : Nat) (p : Pixel) : Frame :=
  { f with rows := cellSet [] f.rows y (cellSet f.base (cellGet [] f.rows y) x p) }

/-- `Clear(s)` (42_compositor.md R109): every pixel of the bitmap is black. -/
def clearedFrame : Frame :=
  { base := .black, rows := [] }

/-- The canonical form of a bitmap: rows and columns rise, no row is empty, no listed pixel equals
the base. -/
def Frame.wf (f : Frame) : Bool :=
  cellsWf [] f.rows && f.rows.all fun r => cellsWf f.base r.2

/-- A bitmap lists no pixel outside `w` columns and `h` rows (R34). -/
def frameWithin (w h : Nat) (f : Frame) : Bool :=
  cellsBelow h f.rows && f.rows.all fun r => cellsBelow w r.2

/-! ## Stopping a step -/

/-- Why a step ends without a next state: a fault or a refusal (60_exceptions.md R144, R145). -/
inductive Stop where
  | fault (f : Fault)
  | refusal (r : Refusal)
  deriving DecidableEq, Repr

/-- The outcome of a step that stops. -/
def stopOutcome {σ : Type} : Stop → Host.Outcome σ Fault Refusal
  | .fault f   => .fault f
  | .refusal r => .refused r

/-- A run of writes that stopped: why, and what it had written by then, which stays written (R144;
log 6). -/
structure Halt (σ : Type) where
  stop : Stop
  left : σ
  deriving DecidableEq, Repr

/-- A run of writes to `σ`: what it leaves, or the first stop its pseudocode reaches (R148) with what it
had written by then. -/
abbrev Run (σ : Type) := Except (Halt σ) σ

/-- What a run leaves, whether it completes or stops. -/
def leftBy {σ : Type} : Run σ → σ
  | .ok s    => s
  | .error h => h.left

/-- The outcome of a step that is a run over the state. -/
def finish {σ : Type} : Run σ → Host.Outcome σ Fault Refusal
  | .ok s    => .next s
  | .error h => stopOutcome h.stop

/-- The stop a marked state stays in: it takes no further step (R144, R145). -/
def markedStop (m : Marks) : Option Stop :=
  match m.fault, m.refusal with
  | some f, _      => some (.fault f)
  | none, some r   => some (.refusal r)
  | none, none     => none

/-- A state with the mark of a step that stopped in it (R144, R145). The step has ended, so no blit is
running any more (48_blitter_optional.md R128). -/
def markStop (s : State) : Stop → State
  | .fault f   => { s with cursor := none, marks := { s.marks with fault := some f } }
  | .refusal r => { s with cursor := none, marks := { s.marks with refusal := some r } }

/-! ## ROMs -/

/-- The bytes of a ROM (10_state.md R20, R36). -/
def romBytes (c : Config) : Rom → List Byte
  | .tile   => c.tileRom
  | .sprite => c.spriteRom
  | .blit   => c.blitRom

/-- `RomByte(ROM, a)` (R14): the byte, or the fault `RomOutOfRange`. -/
def romByte (c : Config) (rom : Rom) (a : Nat) : Except Stop Byte :=
  match (romBytes c rom)[a]? with
  | some b => .ok b
  | none   => .error (.fault (.romOutOfRange rom a))

/-! ## The fields of State -/

/-- Replace a tile bank. -/
def State.setTile (s : State) (b : BitVec 2) (m : Store) : State :=
  { s with tile := setQuad s.tile b m }

/-- Replace sprite memory. -/
def State.setSprite (s : State) (m : Store) : State :=
  { s with sprite := m }

/-- Replace a tilemap register set. -/
def State.setTreg (s : State) (t : BitVec 2) (m : Store) : State :=
  { s with treg := setQuad s.treg t m }

/-- Replace the sprite control registers. -/
def State.setSreg (s : State) (m : Store) : State :=
  { s with sreg := m }

/-- Replace the brightness ports. -/
def State.setBrt (s : State) (m : Store) : State :=
  { s with brt := m }

/-- Set the cached brightness level of a palette bank (R30). -/
def State.setBrtCache (s : State) (k : BitVec 1) (level : BitVec 4) : State :=
  { s with brtCache := setPair s.brtCache k level }

/-- Set the contrast numerator of a palette bank (R31). -/
def State.setContrast (s : State) (k : BitVec 1) (n : Fin 17) : State :=
  { s with contrast := setPair s.contrast k n }

/-- Replace palette memory. -/
def State.setPal (s : State) (m : Store) : State :=
  { s with pal := m }

/-- The bitmap of a screen. -/
def State.fb (s : State) : Screen → Frame
  | .left  => s.fbLeft
  | .right => s.fbRight

/-- Replace the bitmap of a screen. -/
def State.setFb (s : State) (scr : Screen) (f : Frame) : State :=
  match scr with
  | .left  => { s with fbLeft := f }
  | .right => { s with fbRight := f }

/-- Replace the blitter registers. -/
def State.setBltReg (s : State) (m : Store) : State :=
  { s with bltReg := m }

/-- Set or clear the pending completion. -/
def State.setPending (s : State) (b : Bool) : State :=
  { s with bltPending := b }

/-- Move the running cursor, or end the blit with `none`. -/
def State.setCursor (s : State) (c : Option BltCursor) : State :=
  { s with cursor := c }

/-- Take the inputs still to come from `rest`. -/
def State.setInbox (s : State) (rest : List Input) : State :=
  { s with inbox := rest }

/-- What this input returns to the host (40_bus_access.md R73; log 3). -/
def State.reply (s : State) (o : Option Output) : State :=
  { s with out := o }

/-- `return draw UInt32` (R14; log 4): a free word, the next one of the run. -/
def State.replyFree (s : State) : State :=
  { s with out := some (.word (Config.freeWord s.draws)), draws := s.draws + 1 }

end Sys2Proof.Machine
end

