-- ==== Sys2Proof/Machine/Operands.lean ====
section
/-! DEFINITION. The fields of every data word the block interprets (30_encoding.md R58 to R68;
48_blitter_optional.md R129), each read at the place its layout gives. -/

namespace Sys2Proof.Machine

/-- The field of `n` bits whose lowest bit is `lo` (R11). -/
def field (w : Word) (lo n : Nat) : BitVec n :=
  w.extractLsb' lo n

/-- Bit `i` of a word (R11). -/
def bit (w : Word) (i : Nat) : Bool :=
  w.getLsbD i

/-! ## Tile descriptors -/

/-- What `DecodeTile` returns (41_tile_decoder.md R90). -/
structure TileDesc where
  romBase   : Nat
  colorBank : Byte
  depth     : Bool
  deriving DecidableEq, Repr

/-- `DecodeTile(d)` (R65, R90): the ROM address counts 32-byte units; `flipXY` and `blank` are not
read (R69). -/
def decodeTile (c : Config) (d : Word) : TileDesc :=
  { romBase   := (field d c.tileDesc.tileAddress 20).toNat * tileUnit
    colorBank := field d c.tileDesc.colorBank 8
    depth     := bit d c.tileDesc.depth }

/-! ## Tilemap registers -/

/-- The cell size of a tilemap, from word 0 of its set (R66). -/
def cellSize (c : Config) (t : Store) : Nat :=
  if bit (storeWord t 0) c.tregLayout.tileSizeFlag then 16 else 8

/-- The horizontal scroll, from word 2: unsigned (R66). -/
def scrollX (c : Config) (t : Store) : Int :=
  ((field (storeWord t 2) c.tregLayout.scrollX 12).toNat : Int)

/-- The vertical scroll, from word 2: unsigned (R66). -/
def scrollY (c : Config) (t : Store) : Int :=
  ((field (storeWord t 2) c.tregLayout.scrollY 12).toNat : Int)

/-! ## Sprite descriptors -/

/-- What `DecodeSprite` returns (41_tile_decoder.md R96). -/
structure SpriteDesc where
  xs       : Int
  ys       : Int
  flipXeff : Bool
  flipY    : Bool
  tile     : Nat
  colour   : Byte
  deriving DecidableEq, Repr

/-- `DecodeSprite(w0, w1)` (R67, R96): X is signed, Y is not, the X flip is inverted, the tile index
is halved. -/
def decodeSprite (c : Config) (w0 w1 : Word) : SpriteDesc :=
  { xs       := (field w0 c.sprLayout.xPos 12).toInt
    ys       := ((field w0 c.sprLayout.yPos 12).toNat : Int)
    flipXeff := !bit w0 c.sprLayout.xFlip
    flipY    := bit w0 c.sprLayout.yFlip
    tile     := (field w1 c.sprLayout.tileIndex 18).toNat / 2
    colour   := field w1 c.sprLayout.colorBank 8 }

/-! ## Pens -/

/-- The pen `pixel + (bank << shift)` (R68). At shift 8 it never overflows. -/
def bankedPen (pixel bank : Byte) (shift : Nat) : Pen :=
  pixel.setWidth 16 + (bank.setWidth 16 <<< shift)

/-- The high or the low nibble of a byte as a pen (R68; 41_tile_decoder.md R93). -/
def nibble (b : Byte) (high : Bool) : BitVec 4 :=
  if high then b.extractLsb' 4 4 else b.extractLsb' 0 4

/-! ## Brightness words -/

/-- The `enable` bit of a brightness word (R63). -/
def brtEnable (v : Word) : Bool :=
  bit v 31

/-- The 4-bit level of a brightness word (R63). -/
def brtLevel (v : Word) : BitVec 4 :=
  field v 27 4

/-- The palette bank a brightness word selects (R63). -/
def brtBank (v : Word) : BitVec 1 :=
  field v 26 1

/-- A written level as a contrast numerator (10_state.md R31). -/
def levelNumerator (level : BitVec 4) : Fin 17 :=
  ⟨level.toNat, Nat.lt_trans level.isLt (by decide)⟩

/-! ## Blitter registers -/

/-- A field of the blitter registers (48_blitter_optional.md R129). -/
def bltField (regs : Store) (f : BltField) (n : Nat) : BitVec n :=
  field (storeWord regs f.word.toNat) f.lo n

/-- The cursor a start loads from the registers (48_blitter_optional.md R132): a line is 128 words. -/
def startCursor (c : Config) (regs : Store) : BltCursor :=
  { src      := (bltField regs c.bltRegLayout.src 32).toNat
    col0     := bltField regs c.bltRegLayout.col 7
    col      := bltField regs c.bltRegLayout.col 7
    lineBase := (bltField regs c.bltRegLayout.line 8).toNat * 128
    tm       := bltField regs c.bltRegLayout.tm 2
    odd      := bltField regs c.bltRegLayout.odd 1 = 1 }

end Sys2Proof.Machine
end

