-- ==== Sys2Proof/Machine/Flags.lean ====
section
/-! DEFINITION. The conditions the rules test. The block has no status flags, condition codes or
predicates (10_state.md R18), so no operation here writes one: these are the clip tests of the
compositor (42_compositor.md R99 to R102), the transparent values of the decoder and the condition of
a brightness write. -/

namespace Sys2Proof.Machine

/-- `maxX` of the clip rectangle; `minX` and `minY` are 0 (R99). -/
def clipMaxX (c : Config) : Int :=
  (c.screenW : Int) - 1

/-- `maxY` of the clip rectangle (R99). -/
def clipMaxY (c : Config) : Int :=
  (c.screenH : Int) - 1

/-- The inclusive clip test (R100, R101). -/
def insideInclusive (c : Config) (x y : Int) : Bool :=
  decide (0 ≤ x) && decide (x ≤ clipMaxX c) && decide (0 ≤ y) && decide (y ≤ clipMaxY c)

/-- The exclusive clip test (R100): the outermost rows and columns are dropped. -/
def insideExclusive (c : Config) (x y : Int) : Bool :=
  decide (0 < x) && decide (x < clipMaxX c) && decide (0 < y) && decide (y < clipMaxY c)

/-- `TileInside(X, Y)` (R100). -/
def tileInside (c : Config) (x y : Int) : Bool :=
  if c.tileClipExclusive then insideExclusive c x y else insideInclusive c x y

/-- `SpriteInside(X, Y)` (R101): always inclusive. -/
def spriteInside (c : Config) (x y : Int) : Bool :=
  insideInclusive c x y

/-- A square of side `n` with top-left `(x, y)` lies wholly outside the clip rectangle (R102). -/
def squareOutside (c : Config) (x y : Int) (n : Nat) : Bool :=
  decide (clipMaxX c < x) || decide (x + n - 1 < 0) || decide (clipMaxY c < y)
    || decide (y + n - 1 < 0)

/-- `Rejected(x, y, S)` (R102): the whole cell is skipped. -/
def rejected (c : Config) (x y : Int) (n : Nat) : Bool :=
  squareOutside c x y n

/-- The transparent nibble of a 4bpp tile (41_tile_decoder.md R93). -/
def transparentNibble : BitVec 4 := 15

/-- The transparent byte of an 8bpp tile and of a sprite (41_tile_decoder.md R93, R98). -/
def transparentByte : Byte := 255

/-- A brightness word changes the contrast of its bank (40_bus_access.md R86): it is enabled and its
level differs from the bank's cached level. -/
def brightnessApplies (v : Word) (cached : BitVec 4) : Bool :=
  brtEnable v && decide (brtLevel v ≠ cached)

end Sys2Proof.Machine
end

