-- ==== Sys2Proof/Machine/Palette.lean ====
section
/-! DEFINITION. The palette and brightness unit and the displayed colour (43_palette_output.md). -/

namespace Sys2Proof.Machine

/-- `unpackBGR(w)` (R116): blue in the low byte, then red, then green. -/
def unpackBGR (w : Word) : Rgb :=
  { r := field w 8 8, g := field w 16 8, b := field w 0 8 }

/-- The colour of palette entry `i`: the table is derived from `PalMem` (R117; 10_state.md R33), so
`setColor` has no state of its own to write. -/
def colourOf (s : State) (i : Nat) : Rgb :=
  unpackBGR (storeWord s.pal i)

/-- `setContrast(bank, level)` (R119): the bank's multiplier becomes `level/16`. -/
def setContrastLevel (s : State) (bank : BitVec 1) (level : BitVec 4) : State :=
  s.setContrast bank (levelNumerator level)

/-- The default `CONTRAST_SCALE(c, n) = floor(c * n / 16)` (R120). -/
def scaleFloor (x : Byte) (n : Nat) : Byte :=
  BitVec.ofNat 8 (x.toNat * n / 16)

/-- `CONTRAST_SCALE(c, n)` (R120; log 15). -/
def scaleComponent (c : Config) (x : Byte) (n : Fin 17) : Byte :=
  match c.contrastScale with
  | .floor16    => scaleFloor x n.val
  | .table rows => if n.val = 16 then x else rows.getD (n.val * 256 + x.toNat) 0

/-- A colour under a contrast numerator (R122). -/
def scaleRgb (c : Config) (x : Rgb) (n : Fin 17) : Rgb :=
  { r := scaleComponent c x.r n, g := scaleComponent c x.g n, b := scaleComponent c x.b n }

/-- The contrast bank of a palette entry (R122): 0 below 0x800, 1 from there. -/
def paletteBank (p : Nat) : BitVec 1 :=
  BitVec.ofNat 1 (p / paletteSplit)

/-- The colour a pixel shows now (R122, R123). `k` numbers the observation: where the rule says
`draw RGB` (a pixel never rendered, or a pen with no palette entry, R124) the colour is the free value
of that number (log 5). -/
def showPixel (s : State) (k : Nat) : Pixel → Rgb
  | .undef => Config.freeColour k
  | .black => { r := 0, g := 0, b := 0 }
  | .pen p =>
    if paletteEntries ≤ p.toNat then Config.freeColour k
    else scaleRgb s.cfg (colourOf s p.toNat) (pair s.contrast (paletteBank p.toNat))

/-- `DisplayColour(s, x, y)` of the current state, at observation `k` (R122). -/
def displayColour (s : State) (scr : Screen) (x y k : Nat) : Rgb :=
  showPixel s k (frameAt (s.fb scr) x y)

end Sys2Proof.Machine
end

