-- ==== Sys2Proof/Machine/Bus.lean ====
section
/-! DEFINITION. The bus access family (40_bus_access.md): one meaning per row of 30_encoding.md R56,
but for the blitter's two. No bus request here stops (R73; 60_exceptions.md R143). -/

namespace Sys2Proof.Machine

/-- A read returns one word and leaves the stores alone (R73). -/
def returnWord (s : State) (w : Word) : Host.Outcome State Fault Refusal :=
  .next (s.reply (some (.word w)))

/-- A write returns nothing (R73). -/
def returnNothing (s : State) : Host.Outcome State Fault Refusal :=
  .next (s.reply none)

/-- A read of a write-only or unmapped address returns a free word (20_memory.md R44, R46). -/
def returnFree (s : State) : Host.Outcome State Fault Refusal :=
  .next s.replyFree

/-- `TILE_RD` (R75). -/
def execTileRd (bank : BitVec 2) (off : BitVec 14) (s : State) :
    Host.Outcome State Fault Refusal :=
  returnWord s (storeWord (quad s.tile bank) off.toNat)

/-- `TILE_WR` (R76). -/
def execTileWr (bank : BitVec 2) (off : BitVec 14) (data : Word) (be : Lanes) (s : State) :
    Host.Outcome State Fault Refusal :=
  returnNothing (s.setTile bank (storeMerge (quad s.tile bank) off.toNat data be))

/-- `SPR_RD` (R77). -/
def execSprRd (off : BitVec 14) (s : State) : Host.Outcome State Fault Refusal :=
  returnWord s (storeWord s.sprite off.toNat)

/-- `SPR_WR` (R78). -/
def execSprWr (off : BitVec 14) (data : Word) (be : Lanes) (s : State) :
    Host.Outcome State Fault Refusal :=
  returnNothing (s.setSprite (storeMerge s.sprite off.toNat data be))

/-- `PAL_RD` (R79). -/
def execPalRd (idx : BitVec 12) (s : State) : Host.Outcome State Fault Refusal :=
  returnWord s (storeWord s.pal idx.toNat)

/-- `PAL_WR` (R80): the merged word is the entry's colour from now on, since the colour table is
derived from `PalMem` (43_palette_output.md R117). -/
def execPalWr (idx : BitVec 12) (data : Word) (be : Lanes) (s : State) :
    Host.Outcome State Fault Refusal :=
  returnNothing (s.setPal (storeMerge s.pal idx.toNat data be))

/-- `TREG_RD` (R81): write-only, so any value. -/
def execTregRd (_t : BitVec 2) (_off : BitVec 5) (s : State) : Host.Outcome State Fault Refusal :=
  returnFree s

/-- `TREG_WR` (R82). -/
def execTregWr (t : BitVec 2) (off : BitVec 5) (data : Word) (be : Lanes) (s : State) :
    Host.Outcome State Fault Refusal :=
  returnNothing (s.setTreg t (storeMerge (quad s.treg t) off.toNat data be))

/-- `SREG_RD` (R83): write-only, so any value. -/
def execSregRd (_off : BitVec 4) (s : State) : Host.Outcome State Fault Refusal :=
  returnFree s

/-- `SREG_WR` (R84): stored, and read by no rule. -/
def execSregWr (off : BitVec 4) (data : Word) (be : Lanes) (s : State) :
    Host.Outcome State Fault Refusal :=
  returnNothing (s.setSreg (storeMerge s.sreg off.toNat data be))

/-- `BRT_RD` (R85): write-only, so any value. -/
def execBrtRd (_p : BitVec 1) (s : State) : Host.Outcome State Fault Refusal :=
  returnFree s

/-- What a brightness word does once it is stored (R86): if it is enabled and its level differs from
the cached level of the bank its bit 26 names, that bank's contrast and cache take the level. -/
def applyBrightness (v : Word) (s : State) : State :=
  if brightnessApplies v (pair s.brtCache (brtBank v)) then
    (setContrastLevel s (brtBank v) (brtLevel v)).setBrtCache (brtBank v) (brtLevel v)
  else s

/-- `BRT_WR` (R86): the merged word is evaluated on every write, whatever lanes are enabled. -/
def execBrtWr (p : BitVec 1) (data : Word) (be : Lanes) (s : State) :
    Host.Outcome State Fault Refusal :=
  let v := merge (storeWord s.brt p.toNat) data be
  returnNothing (applyBrightness v (s.setBrt (storePut s.brt p.toNat v)))

/-- `UNMAPPED_RD` (R87). -/
def execUnmappedRd (_wa : BitVec 18) (s : State) : Host.Outcome State Fault Refusal :=
  returnFree s

/-- `UNMAPPED_WR` (R88): accepted and ignored. -/
def execUnmappedWr (_wa : BitVec 18) (_data : Word) (_be : Lanes) (s : State) :
    Host.Outcome State Fault Refusal :=
  returnNothing s

end Sys2Proof.Machine
end

