-- ==== Sys2Proof/Machine/Blitter.lean ====
section
/-! DEFINITION. The blitter (48_blitter_optional.md), behind `BLITTER_PRESENT`: its register window,
its five commands, each one definition that runs at the cursor of the running blit, and the run of a
whole command stream inside the step of the triggering write (R132). -/

namespace Sys2Proof.Machine

/-! ## Writing half-words -/

/-- The lanes of the half the odd/even flag selects (R134). -/
def halfLanes (c : Config) (odd : Bool) : Lanes :=
  match c.bltHalfPolarity, odd with
  | .upperOn0, false => 0b1100
  | .upperOn0, true  => 0b0011
  | .upperOn1, false => 0b0011
  | .upperOn1, true  => 0b1100

/-- `WriteHalf(h)` (R134) on the target bank and the cursor: the column advances modulo 128 and the
line stays. -/
def writeHalf (c : Config) (h : Half) (bank : Store) (cur : BltCursor) : Run (Store × BltCursor) :=
  let idx := cur.lineBase + cur.col.toNat
  if tileBankWords ≤ idx then .error ⟨.fault (.bltDestOutOfRange cur.tm idx), (bank, cur)⟩
  else .ok (storeMerge bank idx (h ++ h) (halfLanes c cur.odd), { cur with col := cur.col + 1 })

/-- The loop of `COPY` (R135): `n` half-words from ROM address `p` on, the first byte the high one. -/
def copyHalves (c : Config) : Nat → Nat → Store → BltCursor → Run (Store × BltCursor)
  | 0, _, bank, cur => .ok (bank, cur)
  | n + 1, p, bank, cur =>
    match romByte c .blit p with
    | .error e => .error ⟨e, (bank, cur)⟩
    | .ok hi =>
      match romByte c .blit (p + 1) with
      | .error e => .error ⟨e, (bank, cur)⟩
      | .ok lo =>
        match writeHalf c (hi ++ lo) bank cur with
        | .error h => .error h
        | .ok (bank', cur') => copyHalves c n (p + 2) bank' cur'

/-- The loop of `FILL` (R137): the value `v`, `n` times. -/
def fillHalves (c : Config) (v : Half) : Nat → Store → BltCursor → Run (Store × BltCursor)
  | 0, bank, cur => .ok (bank, cur)
  | n + 1, bank, cur =>
    match writeHalf c v bank cur with
    | .error h => .error h
    | .ok (bank', cur') => fillHalves c v n bank' cur'

/-- The half-word writes an amount stands for (R135, R137): an odd count of bytes is refused. -/
def halfCount (c : Config) (amt : Byte) : Except Stop Nat :=
  match c.bltAmountUnit with
  | .halfwords => .ok amt.toNat
  | .bytes     => if amt.toNat % 2 = 1 then .error (.refusal .bltOddAmount) else .ok (amt.toNat / 2)

/-! ## The commands -/

/-- Run a command at the cursor of the running blit. A command is read only inside a blit (R132), so
with no blit running it has no effect (log 14). -/
def atCursor (s : State) (f : BltCursor → Run State) : Run State :=
  match s.cursor with
  | none     => .ok (s.reply none)
  | some cur => f cur

/-- Run the loop of a writing command over the target bank: what it wrote is stored, whether it completes
or stops (60_exceptions.md R144), and the source pointer moves to `src` if it completes. -/
def writeBack (s : State) (cur : BltCursor) (r : Run (Store × BltCursor)) (src : Nat) : Run State :=
  match r with
  | .error h => .error ⟨h.stop, s.setTile cur.tm h.left.1⟩
  | .ok (bank, cur') =>
    .ok (((s.setTile cur.tm bank).setCursor (some { cur' with src := src })).reply none)

/-- A writing command: its loop of `n` half-words, the source pointer `n` leaves; an amount that counts no
half-words is refused before any write. -/
def writeCommand (s : State) (amt : Byte)
    (loop : Nat → BltCursor → Run (Store × BltCursor)) (src : Nat → BltCursor → Nat) : Run State :=
  atCursor s fun cur =>
    match halfCount s.cfg amt with
    | .error e => .error ⟨e, s⟩
    | .ok n    => writeBack s cur (loop n cur) (src n cur)

/-- `END` (R136): one completion is pending, and the blit stops. -/
def endRun (s : State) : Run State :=
  atCursor s fun _ => .ok (((s.setPending true).setCursor none).reply none)

/-- `COPY` (R135). -/
def copyRun (amt : Byte) (s : State) : Run State :=
  writeCommand s amt (fun n cur => copyHalves s.cfg n (cur.src + 2) (quad s.tile cur.tm) cur)
    fun n cur => cur.src + 2 + 2 * n

/-- `FILL` (R137): four bytes of the stream, whatever the amount. -/
def fillRun (amt : Byte) (v : Half) (s : State) : Run State :=
  writeCommand s amt (fun n cur => fillHalves s.cfg v n (quad s.tile cur.tm) cur)
    fun _ cur => cur.src + 4

/-- `NEXTLINE` (R138): back to the initial column, 128 words on. -/
def nextlineRun (s : State) : Run State :=
  atCursor s fun cur =>
    .ok ((s.setCursor (some { cur with col := cur.col0, lineBase := cur.lineBase + 128,
                                       src := cur.src + 1 })).reply none)

/-- `UNKNOWN` (R139): one byte is skipped. -/
def unknownRun (_c0 : Byte) (s : State) : Run State :=
  atCursor s fun cur => .ok ((s.setCursor (some { cur with src := cur.src + 1 })).reply none)

/-- A command by its name. -/
def runCmd : BltCmd → State → Run State
  | .endList, s    => endRun s
  | .copy amt, s   => copyRun amt s
  | .fill amt v, s => fillRun amt v s
  | .nextline, s   => nextlineRun s
  | .unknown c0, s => unknownRun c0 s

/-- `BLT_END` (R136). -/
def execBltEnd (s : State) : Host.Outcome State Fault Refusal :=
  finish (endRun s)

/-- `BLT_COPY` (R135). -/
def execBltCopy (amt : Byte) (s : State) : Host.Outcome State Fault Refusal :=
  finish (copyRun amt s)

/-- `BLT_FILL` (R137). -/
def execBltFill (amt : Byte) (v : Half) (s : State) : Host.Outcome State Fault Refusal :=
  finish (fillRun amt v s)

/-- `BLT_NEXTLINE` (R138). -/
def execBltNextline (s : State) : Host.Outcome State Fault Refusal :=
  finish (nextlineRun s)

/-- `BLT_UNKNOWN` (R139). -/
def execBltUnknown (c0 : Byte) (s : State) : Host.Outcome State Fault Refusal :=
  finish (unknownRun c0 s)

/-! ## Running a blit -/

/-- Read the command at the source pointer (R133): a byte of it past the ROM's end faults (R132). -/
def fetchCmd (c : Config) (src : Nat) : Except Stop BltCmd :=
  match decodeCmd (c.blitRom.drop src) with
  | .ok cmd                 => .ok cmd
  | .error (.streamShort k) => .error (.fault (.romOutOfRange .blit (src + k)))

/-- The loop of `RunBlit` (R132) for at most `n` commands: read and run the command at the cursor until
`END` has run. Running out of commands is the fault of a read at the source pointer; with the bound
`startBlit` gives, it is not reached (log 18). What the commands before a stop wrote stays written
(60_exceptions.md R144). -/
def runBlit : Nat → State → Run State
  | 0, s =>
    match s.cursor with
    | none     => .ok s
    | some cur => .error ⟨.fault (.romOutOfRange .blit cur.src), s⟩
  | n + 1, s =>
    match s.cursor with
    | none => .ok s
    | some cur =>
      match fetchCmd s.cfg cur.src with
      | .error e => .error ⟨e, s⟩
      | .ok cmd =>
        match runCmd cmd s with
        | .ok t    => runBlit n t
        | .error h => .error h

/-- `RunBlit()` (R132): the whole command stream, from the registers as they stand. Every command
takes a byte of the ROM or more, so one command more than the ROM has bytes is bound enough. -/
def startBlit (s : State) : Run State :=
  runBlit (s.cfg.blitRom.length + 1) (s.setCursor (some (startCursor s.cfg s.bltReg)))

/-! ## The register window and the completion -/

/-- `BLTREG_RD` (R130): write-only, so any value. Without the annex the address is unmapped, and a
read of it returns any value too (R126). -/
def execBltregRd (_off : BitVec 3) (s : State) : Host.Outcome State Fault Refusal :=
  returnFree s

/-- The run of a register write (R131): a write to the start word runs the blit, whatever its lane
enables, and the registers keep the write even if the blit stops (60_exceptions.md R144). Without the
annex the address is unmapped, and the write is ignored (R126). -/
def bltregWrRun (off : BitVec 3) (data : Word) (be : Lanes) (s : State) : Run State :=
  if s.cfg.blitterPresent then
    let s1 := (s.setBltReg (storeMerge s.bltReg off.toNat data be)).reply none
    if off = s.cfg.bltRegLayout.start then startBlit s1 else .ok s1
  else .ok (s.reply none)

/-- `BLTREG_WR` (R131). -/
def execBltregWr (off : BitVec 3) (data : Word) (be : Lanes) (s : State) :
    Host.Outcome State Fault Refusal :=
  finish (bltregWrRun off data be s)

/-- `BLIT_DONE` (R140): a pending completion is delivered as one `IRQ_BLIT`; with none pending, or
without the annex (R126), nothing happens. -/
def execBlitDone (s : State) : Host.Outcome State Fault Refusal :=
  if s.cfg.blitterPresent && s.bltPending then
    .next ((s.setPending false).reply (some .irqBlit))
  else returnNothing s

end Sys2Proof.Machine
end

