-- ==== Sys2Proof/Machine/Decoder.lean ====
section
/-! DEFINITION. The tile and sprite decoder (41_tile_decoder.md): pure functions of a descriptor, the
configuration and the ROMs; their only effect is a stop. A candidate pixel is a pen, or `none` for
TRANSPARENT. -/

namespace Sys2Proof.Machine

/-- The pen of an opaque nibble (R93, R94): the nibble itself, or with `TILE4_COLOUR_BANK` the nibble
plus the shifted colour bank. -/
def nibblePen (c : Config) (nib : BitVec 4) (bank : Byte) : Pen :=
  match c.tile4ColourBank, c.tile4BankShift with
  | true, some n => bankedPen (nib.setWidth 8) bank n
  | _, _         => nib.setWidth 16

/-- A 4bpp pixel cannot be decoded: the colour bank is added and its shift is not given (R94). -/
def tile4Unset (c : Config) : Bool :=
  c.tile4ColourBank && c.tile4BankShift.isNone

/-- The 4bpp half of `TilePixel` (R93): the pixel of ordinal `k`, two pixels a byte, high nibble
first. Where the shift is needed and unset every such pixel is refused, before any fetch (R94,
95_test_vectors.md T10). -/
def tilePixel4 (c : Config) (t : TileDesc) (k : Nat) : Except Stop (Option Pen) :=
  if tile4Unset c then .error (.refusal .tile4BankShiftUnset)
  else
    match romByte c .tile (t.romBase + k / 2) with
    | .error e => .error e
    | .ok b =>
      let nib := nibble b (k % 2 = 0)
      .ok (if nib = transparentNibble then none else some (nibblePen c nib t.colorBank))

/-- The 8bpp half of `TilePixel` (R93): one byte a pixel. -/
def tilePixel8 (c : Config) (t : TileDesc) (k : Nat) : Except Stop (Option Pen) :=
  match romByte c .tile (t.romBase + k) with
  | .error e => .error e
  | .ok b    => .ok (if b = transparentByte then none else some (bankedPen b t.colorBank 8))

/-- `TilePixel(d, S, px, py)` (R93): raster order inside the cell (R91). -/
def tilePixel (c : Config) (d : Word) (size px py : Nat) : Except Stop (Option Pen) :=
  let t := decodeTile c d
  let k := py * size + px
  if t.depth then tilePixel8 c t k else tilePixel4 c t k

/-- `SPRITE_TILE_COUNT` (00_scope.md R9; R97): what the configuration gives, or the sprite ROM's size in
tiles. -/
def spriteTileCount (c : Config) : Nat :=
  c.spriteTileCount.getD (c.spriteRom.length / 256)

/-- `ResolveSpriteTile(tile)` (R97). -/
def resolveSpriteTile (c : Config) (tile : Nat) : Except Stop Nat :=
  if spriteTileCount c = 0 then .error (.fault (.spriteIndexOutOfRange tile))
  else
    match c.spriteIndexPolicy with
    | .wrap  => .ok (tile % spriteTileCount c)
    | .fault =>
      if spriteTileCount c ≤ tile then .error (.fault (.spriteIndexOutOfRange tile)) else .ok tile

/-- `SpritePixel(tile, colour, flipXeff, flipY, dx, dy)` (R98). -/
def spritePixel (c : Config) (sp : SpriteDesc) (dx dy : Nat) : Except Stop (Option Pen) :=
  let sx := if sp.flipXeff then 15 - dx else dx
  let sy := if sp.flipY then 15 - dy else dy
  match resolveSpriteTile c sp.tile with
  | .error e => .error e
  | .ok t =>
    match romByte c .sprite (t * 256 + sy * 16 + sx) with
    | .error e => .error e
    | .ok b    => .ok (if b = transparentByte then none else some (bankedPen b sp.colour 8))

end Sys2Proof.Machine
end

