-- ==== Sys2Proof/Machine/Compositor.lean ====
section
/-! DEFINITION. The raster compositor (42_compositor.md): clearing, the tilemap draw, the sprite draw
and the two refresh events. A draw takes the bitmap so far and answers the bitmap after it, or the
first stop its loops reach with the bitmap drawn by then (60_exceptions.md R144, R148). -/

namespace Sys2Proof.Machine

/-- Plot a candidate pixel: TRANSPARENT leaves the bitmap as it was (R103, R106). -/
def plotCandidate (f : Frame) (x y : Int) : Option Pen → Frame
  | none   => f
  | some p => plot f x.toNat y.toNat (.pen p)

/-- One pixel of a cell (R103): decoded and plotted only if it passes the clip test. -/
def drawTilePixel (c : Config) (d : Word) (x y : Int) (size : Nat) (f : Frame) (px py : Nat) :
    Run Frame :=
  if tileInside c (x + px) (y + py) then
    match tilePixel c d size px py with
    | .error e => .error ⟨e, f⟩
    | .ok cand => .ok (plotCandidate f (x + px) (y + py) cand)
  else .ok f

/-- The pixels of a square of side `n` in raster order: rows `py` from 0, columns `px` from 0
(41_tile_decoder.md R91). -/
def raster (n : Nat) (draw : Frame → Nat → Nat → Run Frame) (f : Frame) :
    Run Frame :=
  (List.range n).foldlM (m := Except (Halt Frame))
    (fun f py => (List.range n).foldlM (m := Except (Halt Frame)) (fun f px => draw f px py) f) f

/-- `DrawCell(s, d, x, y, S)` (R103). -/
def drawCell (c : Config) (d : Word) (x y : Int) (size : Nat) (f : Frame) : Run Frame :=
  if rejected c x y size then .ok f
  else raster size (drawTilePixel c d x y size) f

/-- Cell `(row, col)` of a tilemap (R104): its descriptor is word `row * 64 + col` of the bank; its
place is never wrapped (R105). -/
def drawGridCell (c : Config) (bank treg : Store) (f : Frame) (col row : Nat) :
    Run Frame :=
  let size := cellSize c treg
  drawCell c (storeWord bank (row * gridSize + col))
    ((col * size : Nat) - scrollX c treg) ((row * size : Nat) - scrollY c treg) size f

/-- `DrawTilemap(s, t)` (R104): the 64 by 64 grid, row-major. -/
def drawTilemap (c : Config) (bank treg : Store) (f : Frame) : Run Frame :=
  raster gridSize (drawGridCell c bank treg) f

/-- One pixel of a sprite whose top-left is `(x0, y0)` (R106). -/
def drawSpritePixel (c : Config) (sp : SpriteDesc) (x0 y0 : Int) (f : Frame) (dx dy : Nat) :
    Run Frame :=
  if spriteInside c (x0 + dx) (y0 + dy) then
    match spritePixel c sp dx dy with
    | .error e => .error ⟨e, f⟩
    | .ok cand => .ok (plotCandidate f (x0 + dx) (y0 + dy) cand)
  else .ok f

/-- `DrawSprite(s, w0, w1, xoff)` (R106). A sprite wholly outside the clip rectangle is skipped at
once; its loops would draw nothing and stop nowhere (log 17). -/
def drawSprite (c : Config) (w0 w1 : Word) (xoff : Int) (f : Frame) : Run Frame :=
  let sp := decodeSprite c w0 w1
  let x0 := sp.xs - xoff - spriteBias
  let y0 := sp.ys - spriteBias
  if squareOutside c x0 y0 spriteSize then .ok f
  else raster spriteSize (drawSpritePixel c sp x0 y0) f

/-- The walk from slot `k` down to slot 1 (R107): slot `k` is words `2k` and `2k + 1`; slot 0 is
never drawn. -/
def walkSprites (c : Config) (mem : Store) (xoff : Int) : Nat → Frame → Run Frame
  | 0, f => .ok f
  | k + 1, f =>
    match drawSprite c (storeWord mem (2 * (k + 1))) (storeWord mem (2 * (k + 1) + 1)) xoff f with
    | .error h => .error h
    | .ok f'   => walkSprites c mem xoff k f'

/-- `DrawSprites(s, xoff)` (R107): from word 0x2FFE, slot 0x17FF, whatever the slots hold. -/
def drawSprites (c : Config) (mem : Store) (xoff : Int) (f : Frame) : Run Frame :=
  walkSprites c mem xoff (spriteWords / 2 - 1) f

/-- The tilemap of a screen's back layer (R110, R111). -/
def backMap : Screen → BitVec 2
  | .left  => 3
  | .right => 1

/-- The tilemap of a screen's front layer (R110, R111). -/
def frontMap : Screen → BitVec 2
  | .left  => 2
  | .right => 0

/-- Tilemap `t` is bank `t` with register set `t` (10_state.md R26). -/
def drawMap (s : State) (t : BitVec 2) (f : Frame) : Run Frame :=
  drawTilemap s.cfg (quad s.tile t) (quad s.treg t) f

/-- The frame a refresh renders (R110, R111): clear, back tilemap, sprites, front tilemap. -/
def renderFrame (s : State) (scr : Screen) : Run Frame :=
  match drawMap s (backMap scr) clearedFrame with
  | .error h => .error h
  | .ok f1 =>
    match drawSprites s.cfg s.sprite (spriteXoff scr) f1 with
    | .error h => .error h
    | .ok f2   => drawMap s (frontMap scr) f2

/-- A refresh of one screen: it writes that screen's bitmap and nothing else (R112), as far as it gets
(60_exceptions.md R144). -/
def refreshRun (s : State) (scr : Screen) : Run State :=
  match renderFrame s scr with
  | .ok f    => .ok ((s.setFb scr f).reply none)
  | .error h => .error ⟨h.stop, s.setFb scr h.left⟩

/-- `REFRESH LEFT` (R110). -/
def execRefreshLeft (s : State) : Host.Outcome State Fault Refusal :=
  finish (refreshRun s .left)

/-- `REFRESH RIGHT` (R111). -/
def execRefreshRight (s : State) : Host.Outcome State Fault Refusal :=
  finish (refreshRun s .right)

end Sys2Proof.Machine
end

