-- ==== Sys2Proof/Machine/Events.lean ====
section
/-! DEFINITION. The reset event (70_reset_and_hazards.md R160). -/

namespace Sys2Proof.Machine

/-- `RESET` (R160): every piece of state takes its value of 10_state.md R38, and the marks stay. The
configuration (10_state.md R20), the inputs still to come and the count of free values drawn are the
model's, and stay (log 2, log 4). -/
def execReset (s : State) : Host.Outcome State Fault Refusal :=
  .next { initState s.cfg with marks := s.marks, inbox := s.inbox, draws := s.draws }

end Sys2Proof.Machine
end

