-- ==== Sys2Proof/Machine/Dispatch.lean ====
section
/-! DEFINITION. The meaning of every instruction: one arm per constructor of Instr, each one call. -/

namespace Sys2Proof.Machine

def exec (i : Instr) (s : State) : Host.Outcome State Fault Refusal :=
  match i with
  | .tileRd bank off => Sys2Proof.Machine.execTileRd bank off s
  | .tileWr bank off data be => Sys2Proof.Machine.execTileWr bank off data be s
  | .sprRd off => Sys2Proof.Machine.execSprRd off s
  | .sprWr off data be => Sys2Proof.Machine.execSprWr off data be s
  | .palRd idx => Sys2Proof.Machine.execPalRd idx s
  | .palWr idx data be => Sys2Proof.Machine.execPalWr idx data be s
  | .tregRd t off => Sys2Proof.Machine.execTregRd t off s
  | .tregWr t off data be => Sys2Proof.Machine.execTregWr t off data be s
  | .sregRd off => Sys2Proof.Machine.execSregRd off s
  | .sregWr off data be => Sys2Proof.Machine.execSregWr off data be s
  | .brtRd p => Sys2Proof.Machine.execBrtRd p s
  | .brtWr p data be => Sys2Proof.Machine.execBrtWr p data be s
  | .bltregRd off => Sys2Proof.Machine.execBltregRd off s
  | .bltregWr off data be => Sys2Proof.Machine.execBltregWr off data be s
  | .unmappedRd wa => Sys2Proof.Machine.execUnmappedRd wa s
  | .unmappedWr wa data be => Sys2Proof.Machine.execUnmappedWr wa data be s
  | .refreshLeft => Sys2Proof.Machine.execRefreshLeft s
  | .refreshRight => Sys2Proof.Machine.execRefreshRight s
  | .blitDone => Sys2Proof.Machine.execBlitDone s
  | .reset => Sys2Proof.Machine.execReset s
  | .bltEnd => Sys2Proof.Machine.execBltEnd s
  | .bltCopy amt => Sys2Proof.Machine.execBltCopy amt s
  | .bltFill amt v => Sys2Proof.Machine.execBltFill amt v s
  | .bltNextline => Sys2Proof.Machine.execBltNextline s
  | .bltUnknown c0 => Sys2Proof.Machine.execBltUnknown c0 s

end Sys2Proof.Machine
end

