-- ==== Sys2Proof/Machine/Fetch.lean ====
section
/-! DEFINITION. What the next step runs: the next command of a running blit, or the next input of the
host (20_memory.md R49), and the placing of an opcode-table word there. -/

namespace Sys2Proof.Machine

/-- The instruction the next step runs and the state it runs in. A marked state stops (60_exceptions.md
R144, R145). A state inside a blit takes the command at the cursor, before any input (48_blitter_optional.md
R132). Otherwise the first input of the inbox is taken; with none there is nothing to run (log 2). -/
def fetch (s : State) : Except Stop (Option (Instr × State)) :=
  match markedStop s.marks with
  | some e => .error e
  | none =>
    match s.cursor with
    | some cur => (fetchCmd s.cfg cur.src).map fun cmd => some (cmd.instr, s)
    | none =>
      match s.inbox with
      | []        => .ok none
      | i :: rest => .ok (some (decodeInput s.cfg i, s.setInbox rest))

/-- Whether an instruction exists only with the annex (48_blitter_optional.md R126). -/
def annexOnly : Instr → Bool
  | .bltregRd _     => true
  | .bltregWr _ _ _ => true
  | _               => false

/-- Put an input first in the inbox of an unmarked state with no blit running, the address map that of
the opcode table, and the annex present if the input is one of its rows (log 13). -/
def placeInput (s : State) (i : Input) : State :=
  { s with
    cfg    := { s.cfg with
                addrMap        := annexConfig.addrMap
                sregWords      := annexConfig.sregWords
                blitterPresent := s.cfg.blitterPresent || annexOnly (decodeInput annexConfig i) }
    inbox  := i :: s.inbox
    cursor := none
    marks  := { fault := none, refusal := none } }

/-- Put a command at the start of the command ROM, followed by zero bytes, with the annex present and a
blit at it: the cursor is the one the registers give, its source pointer at the command (log 13). -/
def placeCmd (s : State) (bytes : List Byte) : State :=
  { s with
    cfg    := { s.cfg with blitRom := bytes, blitterPresent := true }
    cursor := some { startCursor s.cfg s.bltReg with src := 0 }
    marks  := { fault := none, refusal := none } }

/-- Place the instruction of an opcode-table word where `fetch` takes its next one. -/
def placeWord (s : State) (nbits w : Nat) : State :=
  match tableWords nbits w with
  | none             => s
  | some (.input i)  => placeInput s i
  | some (.cmd bs)   => placeCmd s bs

end Sys2Proof.Machine
end

