-- ==== Sys2Proof/Machine/Step.lean ====
section
/-! DEFINITION. One step of the block: the next instruction is fetched and run. -/

namespace Sys2Proof.Machine

/-- One step: run what `fetch` gives. With nothing to run the state stays as it is (log 2). -/
def step (s : State) : Host.Outcome State Fault Refusal :=
  match fetch s with
  | .error e          => stopOutcome e
  | .ok none          => .next s
  | .ok (some (i, t)) => exec i t

/-- `s` with the instruction of an opcode-table word where `step` fetches its next one (log 13). -/
def State.withFetchWord (s : State) (nbits w : Nat) : State :=
  placeWord s nbits w

end Sys2Proof.Machine
end

