-- ==== Sys2Proof/Machine/Halted.lean ====
section
/-! DEFINITION. The state a step leaves behind when it stops (60_exceptions.md R144, R145): what it had
written by then stays written, and the mark is set. -/

namespace Sys2Proof.Machine

/-- What an instruction had written when it stopped (R144). Only a refresh, a blitter command and the
register write that starts a blit can stop (R143, R148); the others leave nothing half done. -/
def leftByStop (i : Instr) (s : State) : State :=
  match i with
  | .refreshLeft          => leftBy (refreshRun s .left)
  | .refreshRight         => leftBy (refreshRun s .right)
  | .bltregWr off data be => leftBy (bltregWrRun off data be s)
  | .bltEnd               => leftBy (endRun s)
  | .bltCopy amt          => leftBy (copyRun amt s)
  | .bltFill amt v        => leftBy (fillRun amt v s)
  | .bltNextline          => leftBy (nextlineRun s)
  | .bltUnknown c0        => leftBy (unknownRun c0 s)
  | .tileRd _ _ | .tileWr _ _ _ _ | .sprRd _ | .sprWr _ _ _ | .palRd _ | .palWr _ _ _
  | .tregRd _ _ | .tregWr _ _ _ _ | .sregRd _ | .sregWr _ _ _ | .brtRd _ | .brtWr _ _ _
  | .bltregRd _ | .unmappedRd _ | .unmappedWr _ _ _ | .blitDone | .reset => s

/-- The state after one step, whether it goes on or stops. A step that stops leaves what it had written,
marked (R144, R145; log 6); a state already marked, or whose next command cannot be read, is left as
it is but for the mark. -/
def stateAfter (s : State) : State :=
  match fetch s with
  | .error e          => markStop s e
  | .ok none          => s
  | .ok (some (i, t)) =>
    match exec i t with
    | .next u    => u
    | .fault f   => markStop (leftByStop i t) (.fault f)
    | .refused r => markStop (leftByStop i t) (.refusal r)

end Sys2Proof.Machine
end

