-- ==== Sys2Proof/Machine/HostSide.lean ====
section
/-! DEFINITION. The host's side of the bus: byte lanes (20_memory.md R40, R42), the abstract interface
(40_bus_access.md R74), and the request syntax and pseudo-operations of 30_encoding.md R71 and R72.
Nothing here is state or a meaning of its own: each is an input, or a list of inputs in order. -/

namespace Sys2Proof.Machine

/-! ## Byte-addressed requests -/

/-- The lane of the byte at offset `off` of a word (R40). -/
def laneOf : LaneOrder → BitVec 2 → BitVec 2
  | .big, off    => 3 - off
  | .little, off => off

/-- The lane of a byte address. -/
def laneOfAddr (c : Config) (addr : BitVec 20) : BitVec 2 :=
  laneOf c.hostLaneOrder (addr.extractLsb' 0 2)

/-- A one-byte write of a byte-addressed host: a masked write of one lane (R42). -/
def hostByteWrite (c : Config) (addr : BitVec 20) (b : Byte) : Input :=
  let k := (laneOfAddr c addr).toNat
  .bus { w := true, addr := addr, be := 1#4 <<< k, data := b.setWidth 32 <<< (8 * k) }

/-- The byte a byte-addressed host takes from the word a read returns (R42). -/
def hostByteOf (c : Config) (addr : BitVec 20) (w : Word) : Byte :=
  w.extractLsb' (8 * (laneOfAddr c addr).toNat) 8

/-! ## The abstract interface -/

/-- `read(region, bank, offset)`: the region names its bank, and the offset is bounded by the window
(R74). -/
def abstractRead (c : Config) (r : Region) (off : Nat) : Option Instr :=
  if off < regionWords c r then
    some (regionInstr r off { w := false, addr := 0, be := 0, data := 0 })
  else none

/-- `write(region, bank, offset, word, byteMask)` (R74). -/
def abstractWrite (c : Config) (r : Region) (off : Nat) (data : Word) (be : Lanes) : Option Instr :=
  if off < regionWords c r then
    some (regionInstr r off { w := true, addr := 0, be := be, data := data })
  else none

/-! ## Request syntax and pseudo-operations -/

/-- `WR <region>.<word> = <data> / <be>` (R71). -/
def wr (c : Config) (r : Region) (word : Nat) (data : Word) (be : Lanes) : Input :=
  .bus (regionReq c r word true data be)

/-- `RD <region>.<word>` (R71). -/
def rd (c : Config) (r : Region) (word : Nat) : Input :=
  .bus (regionReq c r word false 0 0)

/-- `SW <addr>, <data>, <be>` (R71). -/
def sw (addr : BitVec 20) (data : Word) (be : Lanes) : Input :=
  .bus { w := true, addr := addr, be := be, data := data }

/-- `LW <addr>` (R71). -/
def lw (addr : BitVec 20) : Input :=
  .bus { w := false, addr := addr, be := 0, data := 0 }

/-- `WRB <region>.<word>[<lane>] = <byte>` (R72). -/
def wrb (c : Config) (r : Region) (word : Nat) (lane : BitVec 2) (b : Byte) : Input :=
  wr c r word (b.setWidth 32 <<< (8 * lane.toNat)) (1#4 <<< lane.toNat)

/-- `WRH <region>.<word>[hi] = <h16>` (R72). -/
def wrhHi (c : Config) (r : Region) (word : Nat) (h : Half) : Input :=
  wr c r word (h ++ (0#16)) 0xC

/-- `WRH <region>.<word>[lo] = <h16>` (R72). -/
def wrhLo (c : Config) (r : Region) (word : Nat) (h : Half) : Input :=
  wr c r word (h.setWidth 32) 0x3

/-- `FILLW <region>.<from>..<to> = <data>` (R72), `n` words from `first` on, in rising order. -/
def fillw (c : Config) (r : Region) (first n : Nat) (data : Word) : List Input :=
  (List.range n).map fun k => wr c r (first + k) data 0xF

/-- `SPRITE <k> = (<w0>, <w1>)` (R72). -/
def spriteOp (c : Config) (k : Nat) (w0 w1 : Word) : List Input :=
  [wr c .sprite (2 * k) w0 0xF, wr c .sprite (2 * k + 1) w1 0xF]

/-- The word of `BRIGHT <p>, <en>, <level>, <bank>` (R72). -/
def brightWord (en : BitVec 1) (level : BitVec 4) (bank : BitVec 1) : Word :=
  (en.setWidth 32 <<< 31) ||| (level.setWidth 32 <<< 27) ||| (bank.setWidth 32 <<< 26)

/-- `BRIGHT <p>, <en>, <level>, <bank>` (R72). -/
def bright (c : Config) (p : BitVec 1) (en : BitVec 1) (level : BitVec 4) (bank : BitVec 1) :
    Input :=
  wr c (.brt p) 0 (brightWord en level bank) 0xF

/-- `REFRESH LEFT`, `REFRESH RIGHT` (R71). -/
def refreshOf : Screen → Input
  | .left  => .evt 0b00
  | .right => .evt 0b01

/-- `BLIT_DONE` (R71). -/
def blitDoneEvt : Input := .evt 0b10

/-- `RESET` (R71). -/
def resetEvt : Input := .evt 0b11

end Sys2Proof.Machine
end

