-- ==== Sys2Proof/Safety.lean ====
section
/-! DEFINITION. The terms claims are stated in: the end of a run (60_exceptions.md R159), the
invariants of the state, and the picture a refresh has to show, read pixel by pixel (42_compositor.md
R113). -/

namespace Sys2Proof.Machine

/-! ## The end of a run -/

/-- No fault mark and no refusal mark is set. -/
def unmarked (s : State) : Bool :=
  s.marks.fault.isNone && s.marks.refusal.isNone

/-- The three conditions R159 sets an end state: no fault mark, no refusal mark, and with the annex no
pending completion. DESIGN CHOICE (log 22): R159 calls only an END state final, the last one after the host
stops issuing inputs. This test does not look at `inbox`, the model's own field, so a state with inputs to
come, the initial state of a program among them, passes it too. -/
def isFinal (s : State) : Bool :=
  unmarked s && !(s.cfg.blitterPresent && s.bltPending)

/-! ## Invariants of the state -/

/-- Every word array is in canonical form. -/
def storesWf (s : State) : Bool :=
  s.tile.all Store.wf && s.sprite.wf && s.treg.all Store.wf && s.sreg.wf && s.brt.wf && s.pal.wf
    && s.bltReg.wf

/-- No word array holds a word past the size 00_scope.md R9 gives it. -/
def storesBounded (s : State) : Bool :=
  s.tile.all (storeBelow tileBankWords) && storeBelow spriteWords s.sprite
    && s.treg.all (storeBelow tregWords) && storeBelow s.cfg.sregWords s.sreg && storeBelow 2 s.brt
    && storeBelow paletteEntries s.pal && storeBelow bltregWords s.bltReg

/-- A bitmap the compositor can leave: canonical, inside the screen, and either never rendered or
cleared to black (10_state.md R34; 42_compositor.md R109). -/
def frameSound (c : Config) (f : Frame) : Bool :=
  f.wf && frameWithin c.screenW c.screenH f
    && (decide (f = blankFrame) || decide (f.base = .black))

/-- The invariant of the state between steps: arrays canonical and bounded, bitmaps sound, no blit
running (48_blitter_optional.md R128, R132). -/
def State.sound (s : State) : Bool :=
  storesWf s && storesBounded s && frameSound s.cfg s.fbLeft && frameSound s.cfg s.fbRight
    && s.cursor.isNone

/-- Bank `k`'s cache and contrast agree, or both still hold their reset values (43_palette_output.md
R121). -/
def brightnessAgrees (s : State) (k : BitVec 1) : Bool :=
  decide ((pair s.contrast k).val = (pair s.brtCache k).toNat)
    || (decide (pair s.contrast k = 16) && decide (pair s.brtCache k = s.cfg.brtCacheReset))

/-- With the blitter absent: no blitter register, completion or cursor, and every tile bank is zero
past its bus window (10_state.md R23; 48_blitter_optional.md R126). -/
def blitterInert (s : State) : Bool :=
  decide (s.bltReg = []) && !s.bltPending && s.cursor.isNone
    && s.tile.all (storeBelow tileWindowWords)

/-! ## The picture, pixel by pixel -/

/-- The candidate pixel of tilemap `t` at screen position `(x, y)`: none outside the clip test or the
64 by 64 grid, else `TilePixel` of the cell that covers the position (R100, R104, R105). -/
def tileSample (s : State) (t : BitVec 2) (x y : Nat) : Except Stop (Option Pen) :=
  let c  := s.cfg
  let tr := quad s.treg t
  let n  := cellSize c tr
  let gx := (x : Int) + scrollX c tr
  let gy := (y : Int) + scrollY c tr
  if tileInside c x y && decide (gx < gridSize * n) && decide (gy < gridSize * n) then
    tilePixel c (storeWord (quad s.tile t) (gy.toNat / n * gridSize + gx.toNat / n)) n
      (gx.toNat % n) (gy.toNat % n)
  else .ok none

/-- The candidate pixel of sprite slot `k` at screen position `(x, y)` on screen `scr`: none outside
the clip test or the sprite's square, else `SpritePixel` (R101, R106). -/
def spriteSample (s : State) (scr : Screen) (k x y : Nat) : Except Stop (Option Pen) :=
  let c  := s.cfg
  let sp := decodeSprite c (storeWord s.sprite (2 * k)) (storeWord s.sprite (2 * k + 1))
  let dx := (x : Int) - (sp.xs - spriteXoff scr - spriteBias)
  let dy := (y : Int) - (sp.ys - spriteBias)
  if spriteInside c x y && decide (0 ≤ dx) && decide (dx < spriteSize) && decide (0 ≤ dy)
      && decide (dy < spriteSize) then
    spritePixel c sp dx.toNat dy.toNat
  else .ok none

/-- The opaque pen of a candidate pixel, if it has one. -/
def opaquePen : Except Stop (Option Pen) → Option Pen
  | .ok cand => cand
  | .error _ => none

/-- A candidate pixel could be decoded. -/
def decodes : Except Stop (Option Pen) → Bool
  | .ok _    => true
  | .error _ => false

/-- The slots a walk draws, from the top of the picture down: slot 1 is drawn last (R107, R108). -/
def drawnSlots : List Nat :=
  (List.range (spriteWords / 2 - 1)).map fun k => k + 1

/-- The sprite pixel on top at a position: that of the lowest slot with an opaque one (R108). -/
def topSprite (s : State) (scr : Screen) (x y : Nat) : Option Pen :=
  drawnSlots.findSome? fun k => opaquePen (spriteSample s scr k x y)

/-- The pixel the Z-order contract shows (R113): front tilemap over sprites over back tilemap over
black. -/
def pictureAt (s : State) (scr : Screen) (x y : Nat) : Pixel :=
  match opaquePen (tileSample s (frontMap scr) x y) with
  | some p => .pen p
  | none =>
    match topSprite s scr x y with
    | some p => .pen p
    | none =>
      match opaquePen (tileSample s (backMap scr) x y) with
      | some p => .pen p
      | none   => .black

/-- Every pixel a refresh of the screen has to decode can be decoded: no ROM fetch is out of range,
no sprite index is, and no 4bpp pixel is refused (60_exceptions.md R144, R145). -/
def pictureDecodes (s : State) (scr : Screen) : Prop :=
  ∀ x y, x < s.cfg.screenW → y < s.cfg.screenH →
    decodes (tileSample s (backMap scr) x y) = true ∧ decodes (tileSample s (frontMap scr) x y) = true
      ∧ ∀ k ∈ drawnSlots, decodes (spriteSample s scr k x y) = true

/-! ## The picture of a refresh that stopped -/

/-- When a screen position is drawn by tilemap `t`: the number of the cell that covers it, cells counted
row by row, and its place in the cell, pixels counted in raster order (R91, R104). -/
def tileTurn (s : State) (t : BitVec 2) (q : Nat × Nat) : Nat × Nat :=
  let tr := quad s.treg t
  let n  := cellSize s.cfg tr
  let gx := ((q.1 : Int) + scrollX s.cfg tr).toNat
  let gy := ((q.2 : Int) + scrollY s.cfg tr).toNat
  (gy / n * gridSize + gx / n, gy % n * n + gx % n)

/-- Tilemap `t` draws position `q` before position `p`. -/
def tileBefore (s : State) (t : BitVec 2) (q p : Nat × Nat) : Bool :=
  decide ((tileTurn s t q).1 < (tileTurn s t p).1)
    || (decide ((tileTurn s t q).1 = (tileTurn s t p).1)
      && decide ((tileTurn s t q).2 < (tileTurn s t p).2))

/-- A sprite draws position `q` before position `p`: its rows from the top, each from the left (R106). -/
def spriteBefore (q p : Nat × Nat) : Bool :=
  decide (q.2 < p.2) || (decide (q.2 = p.2) && decide (q.1 < p.1))

/-- Tilemap `t` stops at position `p`: it is the first it draws whose pixel cannot be decoded, for the
reason `e` (R148). -/
def tileStops (s : State) (t : BitVec 2) (p : Nat × Nat) (e : Stop) : Prop :=
  tileSample s t p.1 p.2 = .error e
    ∧ ∀ q, tileBefore s t q p = true → decodes (tileSample s t q.1 q.2) = true

/-- The sprite of slot `k` stops at position `p`. -/
def slotStops (s : State) (scr : Screen) (k : Nat) (p : Nat × Nat) (e : Stop) : Prop :=
  spriteSample s scr k p.1 p.2 = .error e
    ∧ ∀ q, spriteBefore q p = true → decodes (spriteSample s scr k q.1 q.2) = true

/-- Every pixel of tilemap `t` can be decoded. -/
def tileDecodes (s : State) (t : BitVec 2) : Prop :=
  ∀ x y, decodes (tileSample s t x y) = true

/-- Every pixel of the sprite of slot `k` can be decoded. -/
def slotDecodes (s : State) (scr : Screen) (k : Nat) : Prop :=
  ∀ x y, decodes (spriteSample s scr k x y) = true

/-- The pen a tilemap that stopped at `p` had drawn at a position. -/
def partTile (s : State) (t : BitVec 2) (p : Nat × Nat) (x y : Nat) : Option Pen :=
  if tileBefore s t (x, y) p then opaquePen (tileSample s t x y) else none

/-- The pen a sprite that stopped at `p` had drawn at a position. -/
def partSlot (s : State) (scr : Screen) (k : Nat) (p : Nat × Nat) (x y : Nat) : Option Pen :=
  if spriteBefore (x, y) p then opaquePen (spriteSample s scr k x y) else none

/-- The sprite pixel on top at a position among the slots above `k`, which the walk draws before `k`. -/
def topSpriteAbove (s : State) (scr : Screen) (k x y : Nat) : Option Pen :=
  (drawnSlots.filter fun j => decide (k < j)).findSome? fun j => opaquePen (spriteSample s scr j x y)

/-- The pixel a stack of layers shows, the top layer first, over black. -/
def stacked (layers : List (Option Pen)) : Pixel :=
  match layers.findSome? id with
  | some p => .pen p
  | none   => .black

/-- The bitmap `f` is what a refresh that stopped for the reason `e` had drawn (R144, R148): the layers
before the one that stopped are whole, that one is drawn up to the pixel it stopped at, the layers after
it are not there. -/
def leftPicture (s : State) (scr : Screen) (e : Stop) (f : Frame) : Prop :=
  (∃ p, tileStops s (backMap scr) p e ∧
    ∀ x y, frameAt f x y = stacked [partTile s (backMap scr) p x y]) ∨
  (tileDecodes s (backMap scr) ∧
    ∃ k ∈ drawnSlots, ∃ p, slotStops s scr k p e ∧ (∀ j ∈ drawnSlots, k < j → slotDecodes s scr j) ∧
      ∀ x y, frameAt f x y =
        stacked [partSlot s scr k p x y, topSpriteAbove s scr k x y,
          opaquePen (tileSample s (backMap scr) x y)]) ∨
  (tileDecodes s (backMap scr) ∧ (∀ k ∈ drawnSlots, slotDecodes s scr k) ∧
    ∃ p, tileStops s (frontMap scr) p e ∧
      ∀ x y, frameAt f x y =
        stacked [partTile s (frontMap scr) p x y, topSprite s scr x y,
          opaquePen (tileSample s (backMap scr) x y)])

/-! ## What statements say of a write and of a refresh -/

/-- After a masked write of word `i`, each enabled lane of it holds the lane of `data`, and every other
lane of the array is what it was (40_bus_access.md R89). -/
def lanesMerged (m m' : Store) (i : Nat) (data : Word) (be : Lanes) : Prop :=
  ∀ j k, k < 4 → storeLane m' j k =
    if j = i ∧ be.getLsbD k = true then data.extractLsb' (8 * k) 8 else storeLane m j k

/-- The refresh event of a screen. -/
def refreshInstr : Screen → Instr
  | .left  => .refreshLeft
  | .right => .refreshRight

/-- The word the `j`-th half-word write after the cursor goes to: the column wraps inside the line
(48_blitter_optional.md R134). -/
def lineWord (cur : BltCursor) (j : Nat) : Nat :=
  cur.lineBase + (cur.col.toNat + j) % 128

/-- The half-word a COPY at the cursor writes as its `k`-th: two bytes of its payload, the high byte first
(48_blitter_optional.md R135). -/
def payloadHalf (s : State) (cur : BltCursor) (k : Nat) : Half :=
  s.cfg.blitRom.getD (cur.src + 2 + 2 * k) 0 ++ s.cfg.blitRom.getD (cur.src + 3 + 2 * k) 0

/-- The bank `m` is the target bank of `s` with the first `j` half-words `h` written from the cursor on: in
each word they reach the selected half is the last one written there, and nothing else has changed
(48_blitter_optional.md R134). -/
def halvesWritten (s : State) (cur : BltCursor) (j : Nat) (h : Nat → Half) (m : Store) : Prop :=
  (∀ i, (∀ k, k < j → i ≠ lineWord cur k) → storeWord m i = storeWord (quad s.tile cur.tm) i) ∧
  ∀ k, k < j → j ≤ k + 128 →
    storeWord m (lineWord cur k) =
      merge (storeWord (quad s.tile cur.tm) (lineWord cur k)) (h k ++ h k) (halfLanes s.cfg cur.odd)

/-- The state after the next `n` commands of the running blit, run one by one; none if one of them cannot
be read or stops, or if the blit ends before (48_blitter_optional.md R132). -/
def afterCommands : Nat → State → Option State
  | 0, s => some s
  | n + 1, s =>
    match s.cursor with
    | none => none
    | some cur =>
      match decodeCmd (s.cfg.blitRom.drop cur.src) with
      | .error _ => none
      | .ok cmd  =>
        match exec cmd.instr s with
        | .next t    => afterCommands n t
        | .fault _   => none
        | .refused _ => none

/-- Two states agree on all a refresh of `scr` may read: the configuration, the 64 by 64 grid and
register words 0 and 2 of the screen's two tilemaps, and the sprite slots from 1 on (42_compositor.md
R104, R107). -/
def sameRenderInputs (s s' : State) (scr : Screen) : Prop :=
  s.cfg = s'.cfg
    ∧ (∀ t, t = backMap scr ∨ t = frontMap scr →
        (∀ i, i < gridSize * gridSize →
          storeWord (quad s.tile t) i = storeWord (quad s'.tile t) i)
        ∧ storeWord (quad s.treg t) 0 = storeWord (quad s'.treg t) 0
        ∧ storeWord (quad s.treg t) 2 = storeWord (quad s'.treg t) 2)
    ∧ ∀ i, 2 ≤ i → i < spriteWords → storeWord s.sprite i = storeWord s'.sprite i

/-- The instruction runs commands of the blitter that can stop: a COPY, a FILL, or the register write
that starts a blit. -/
def runsCommands (i : Instr) (s : State) : Prop :=
  (∃ amt, i = .bltCopy amt) ∨ (∃ amt v, i = .bltFill amt v)
    ∨ ∃ data be, i = .bltregWr s.cfg.bltRegLayout.start data be ∧ s.cfg.blitterPresent = true

end Sys2Proof.Machine
end

