-- ==== Sys2Proof/Certificates/Slice0/Obligations.lean ====
section
/-! DEFINITION. The statements for the provers. Each cites the rules of spec/ it formalises or rests on;
a clause that rests on a convention of the model names its log entry. `lanesMerged`, `refreshInstr`,
`lineWord`, `sameRenderInputs` and the invariants are in Sys2Proof/Safety.lean. -/

open Sys2Proof Sys2Proof.Machine

/-! ## Encoding and decoding -/

/-- Decoding the words of a well-formed instruction gives it back, for every configuration with a sound
address map: requests (30_encoding.md R54, R56), events (R55) and blitter commands
(48_blitter_optional.md R133). -/
def Obligations.DecodeUndoesEncode : Prop :=
  ∀ (c : Config) (i : Instr), mapSound c = true → i.wf c = true → decode c (encode c i) = .ok i

/-- For the default address map and register count the decoder, which reads the map of 20_memory.md
R45, gives every request the instruction of the first row of 30_encoding.md R56 that takes it. -/
def Obligations.AddressMapAgreesWithRequestTable : Prop :=
  ∀ (c : Config) (q : BusReq), c.addrMap = defaultAddrMap → c.sregWords = 9 →
    decodeBus c q = decodeByTable c q

/-- The rows of R56 other than the two UNMAPPED rows are pairwise disjoint, and some row takes every
request (R57). -/
def Obligations.RequestRowsAreDisjointAndTotal : Prop :=
  ∀ (c : Config) (q : BusReq),
    (∀ r ∈ busTable c, ∀ r' ∈ busTable c, rowTakes q r = true → rowTakes q r' = true →
      r.number < 15 → r'.number < 15 → r.number = r'.number) ∧
    ∃ r ∈ busTable c, rowTakes q r = true

/-- Whatever the host sends decodes to a well-formed instruction (R57). -/
def Obligations.DecodedInputsAreWellFormed : Prop :=
  ∀ (c : Config) (i : Input), mapSound c = true → (decodeInput c i).wf c = true

/-- Bits 1:0 of a request's byte address are ignored (20_memory.md R43). -/
def Obligations.AddressLowBitsAreIgnored : Prop :=
  ∀ (c : Config) (q : BusReq) (a : BitVec 20), mapSound c = true →
    a.extractLsb' 2 18 = q.addr.extractLsb' 2 18 →
    decodeBus c { q with addr := a } = decodeBus c q

/-- A command is told from its own bytes: whatever follows them changes nothing, and a stream is too
short exactly at the byte after its last (48_blitter_optional.md R133). -/
def Obligations.CommandIsReadFromItsOwnBytes : Prop :=
  (∀ (bs more : List Byte) (cmd : BltCmd), decodeCmd bs = .ok cmd →
    decodeCmd (bs ++ more) = .ok cmd) ∧
  ∀ (bs : List Byte) (k : Nat), decodeCmd bs = .error (.streamShort k) → k = bs.length

/-- Words written out from the encodings of 30_encoding.md R54 to R56 and 48_blitter_optional.md R133
decode to the instructions they stand for; the addresses are those of 95_test_vectors.md A1 to A20. -/
def Obligations.SampleWordsDecode : Prop :=
  decodeBus defaultConfig ⟨false, 0x01234, 0, 0⟩ = .tileRd 0 0x48D ∧
  decodeBus defaultConfig ⟨true, 0x3FFFC, 0xF, 0xCAFEF00D⟩ = .tileWr 3 0x3FFF 0xCAFEF00D 0xF ∧
  decodeBus defaultConfig ⟨true, 0x00017, 0x1, 0x000000AA⟩ = .tileWr 0 5 0x000000AA 0x1 ∧
  decodeBus defaultConfig ⟨false, 0x4BFFC, 0, 0⟩ = .sprRd 0x2FFF ∧
  decodeBus defaultConfig ⟨true, 0x4C000, 0xF, 0xFFFFFFFF⟩ = .unmappedWr 0x13000 0xFFFFFFFF 0xF ∧
  decodeBus defaultConfig ⟨true, 0x50040, 0xF, 0x00112233⟩ = .palWr 0x10 0x00112233 0xF ∧
  decodeBus defaultConfig ⟨true, 0x60088, 0xF, 0x00300040⟩ = .tregWr 1 2 0x00300040 0xF ∧
  decodeBus defaultConfig ⟨true, 0x60060, 0xF, 0x12345678⟩ = .unmappedWr 0x18018 0x12345678 0xF ∧
  decodeBus defaultConfig ⟨true, 0x60220, 0xF, 0x00000007⟩ = .sregWr 8 0x00000007 0xF ∧
  decodeBus defaultConfig ⟨true, 0x60304, 0xF, 0xC4000000⟩ = .brtWr 1 0xC4000000 0xF ∧
  decodeBus defaultConfig ⟨true, 0x60414, 0xF, 0⟩ = .unmappedWr 0x18105 0 0xF ∧
  decodeBus annexConfig ⟨true, 0x60414, 0xF, 0⟩ = .bltregWr 5 0 0xF ∧
  decodeEvt 0b00 = .refreshLeft ∧ decodeEvt 0b01 = .refreshRight ∧
  decodeEvt 0b10 = .blitDone ∧ decodeEvt 0b11 = .reset ∧
  decodeCmd [0x00, 0x00] = .ok .endList ∧ decodeCmd [0x00, 0x02, 0xAA, 0xBB] = .ok (.copy 2) ∧
  decodeCmd [0x02, 0x04, 0x12, 0x34] = .ok (.fill 4 0x1234) ∧ decodeCmd [0x03] = .ok .nextline ∧
  decodeCmd [0x7F] = .ok (.unknown 0x7F)

/-- A step runs the decoded instruction. Unmarked and with no blit running, the first input of the
inbox is taken from it, decoded and run; with a blit running, the command at its cursor is; with
nothing to run, the state stays; a marked state stops again in the way of its mark. The inbox and the
stutter are the model's choice (log 2), the cursor as a field of the state is (log 7), and so is the
answer of a marked state (log 6): 60_exceptions.md R144 gives a faulted state no step, and R145 says of
a refused one only that its mark is never cleared. -/
def Obligations.StepRunsTheDecodedInstruction : Prop :=
  (∀ (s : State) (i : Input) (rest : List Input), unmarked s = true → s.cursor = none →
    s.inbox = i :: rest → step s = exec (decodeInput s.cfg i) { s with inbox := rest }) ∧
  (∀ (s : State) (cur : BltCursor) (cmd : BltCmd), unmarked s = true → s.cursor = some cur →
    decodeCmd (s.cfg.blitRom.drop cur.src) = .ok cmd → step s = exec cmd.instr s) ∧
  (∀ s : State, unmarked s = true → s.cursor = none → s.inbox = [] → step s = .next s) ∧
  (∀ (s : State) (f : Fault), s.marks.fault = some f → step s = .fault f) ∧
  ∀ (s : State) (r : Refusal), s.marks.fault = none → s.marks.refusal = some r →
    step s = .refused r

/-- The instruction of an opcode-table word is the one the next step runs where `withFetchWord` puts it
(log 13). -/
def Obligations.TableWordIsTheOneRun : Prop :=
  ∀ (s : State) (nbits w : Nat) (i : Instr), decodeTableWord nbits w = some i →
    ∃ t, fetch (s.withFetchWord nbits w) = .ok (some (i, t)) ∧
      step (s.withFetchWord nbits w) = exec i t

/-! ## Bus requests -/

/-- A read of tile, sprite or palette memory returns the stored word and changes nothing else
(40_bus_access.md R75, R77, R79, R73). `out` and what it keeps are the model's (log 3). -/
def Obligations.ReadsReturnTheStoredWord : Prop :=
  ∀ s : State,
    (∀ (b : BitVec 2) (off : BitVec 14), exec (.tileRd b off) s =
      .next { s with out := some (.word (storeWord (quad s.tile b) off.toNat)) }) ∧
    (∀ off : BitVec 14, exec (.sprRd off) s =
      .next { s with out := some (.word (storeWord s.sprite off.toNat)) }) ∧
    ∀ idx : BitVec 12, exec (.palRd idx) s =
      .next { s with out := some (.word (storeWord s.pal idx.toNat)) }

/-- A read of a write-only window or of an unmapped address returns a free word, whatever it is, and
changes nothing but the count of free words drawn (40_bus_access.md R81, R83, R85, R87;
48_blitter_optional.md R130; log 4). -/
def Obligations.WriteOnlyReadsReturnAFreeWord : Prop :=
  ∀ (s : State) (i : Instr),
    ((∃ t off, i = .tregRd t off) ∨ (∃ off, i = .sregRd off) ∨ (∃ p, i = .brtRd p) ∨
      (∃ off, i = .bltregRd off) ∨ ∃ wa, i = .unmappedRd wa) →
    exec i s = .next { s with out := some (.word (Config.freeWord s.draws)), draws := s.draws + 1 }

/-- Every masked write completes; each enabled lane of its word takes the lane of `data`, every other
lane of every word stays, and nothing else changes but the contrast side of a brightness write
(40_bus_access.md R89). -/
def Obligations.MaskedWritesMergeLanes : Prop :=
  ∀ (s : State) (data : Word) (be : Lanes),
    (∀ (b : BitVec 2) (off : BitVec 14), ∃ m, lanesMerged (quad s.tile b) m off.toNat data be ∧
      exec (.tileWr b off data be) s =
        .next { s with tile := setQuad s.tile b m, out := none }) ∧
    (∀ off : BitVec 14, ∃ m, lanesMerged s.sprite m off.toNat data be ∧
      exec (.sprWr off data be) s = .next { s with sprite := m, out := none }) ∧
    (∀ idx : BitVec 12, ∃ m, lanesMerged s.pal m idx.toNat data be ∧
      exec (.palWr idx data be) s = .next { s with pal := m, out := none }) ∧
    (∀ (t : BitVec 2) (off : BitVec 5), ∃ m, lanesMerged (quad s.treg t) m off.toNat data be ∧
      exec (.tregWr t off data be) s =
        .next { s with treg := setQuad s.treg t m, out := none }) ∧
    (∀ off : BitVec 4, ∃ m, lanesMerged s.sreg m off.toNat data be ∧
      exec (.sregWr off data be) s = .next { s with sreg := m, out := none }) ∧
    ∀ p : BitVec 1, ∃ m cache contrast, lanesMerged s.brt m p.toNat data be ∧
      exec (.brtWr p data be) s =
        .next { s with brt := m, brtCache := cache, contrast := contrast, out := none }

/-- A brightness write stores the merged word; if the word is enabled and its level differs from the
cached level of the bank its bit 26 names, that bank's contrast and cache take the level; otherwise
neither changes. The port does not choose the bank (40_bus_access.md R86). -/
def Obligations.BrightnessWriteSetsOneBank : Prop :=
  ∀ (s : State) (p : BitVec 1) (data : Word) (be : Lanes),
    let v := merge (storeWord s.brt p.toNat) data be
    let level : BitVec 4 := v.extractLsb' 27 4
    let bank : BitVec 1 := v.extractLsb' 26 1
    ∃ t, exec (.brtWr p data be) s = .next t ∧
      storeWord t.brt p.toNat = v ∧
      (v.getLsbD 31 = true ∧ level ≠ pair s.brtCache bank →
        pair t.brtCache bank = level ∧ (pair t.contrast bank).val = level.toNat ∧
        ∀ k, k ≠ bank → pair t.brtCache k = pair s.brtCache k ∧
          pair t.contrast k = pair s.contrast k) ∧
      (¬(v.getLsbD 31 = true ∧ level ≠ pair s.brtCache bank) →
        t.brtCache = s.brtCache ∧ t.contrast = s.contrast) ∧
      t = { s with brt := t.brt, brtCache := t.brtCache, contrast := t.contrast, out := none }

/-- Repeating a bus write leaves the state as the first one left it, with the annex or without it; the one
write left out is the blitter's START, which runs a blit again (20_memory.md R44; 48_blitter_optional.md
R131, R132). The premise on the word arrays is their canonical form, which `StateStaysSound` keeps. -/
def Obligations.RepeatedWriteChangesNothing : Prop :=
  ∀ (s t : State) (q : BusReq), storesWf s = true → q.w = true →
    (∀ data be, decodeBus s.cfg q ≠ .bltregWr s.cfg.bltRegLayout.start data be) →
    exec (decodeBus s.cfg q) s = .next t → exec (decodeBus s.cfg q) t = .next t

/-- A write to an unmapped address is accepted and changes nothing (40_bus_access.md R88). -/
def Obligations.UnmappedWriteChangesNothing : Prop :=
  ∀ (s : State) (wa : BitVec 18) (data : Word) (be : Lanes),
    exec (.unmappedWr wa data be) s = .next { s with out := none }

/-- Without the annex every bus request completes: a read returns one word and changes nothing else but
the count of free words, a write returns nothing, and no request touches a bitmap, a mark, the
configuration or a blitter field (40_bus_access.md R73; 60_exceptions.md R143). -/
def Obligations.CoreBusRequestsComplete : Prop :=
  ∀ (s : State) (q : BusReq), s.cfg.blitterPresent = false →
    ∃ t, exec (decodeBus s.cfg q) s = .next t ∧
      (q.w = false → ∃ w, t = { s with out := some (.word w), draws := t.draws }) ∧
      (q.w = true → t = { s with tile := t.tile, sprite := t.sprite, treg := t.treg, sreg := t.sreg,
                                 brt := t.brt, brtCache := t.brtCache, contrast := t.contrast,
                                 pal := t.pal, out := none })

/-- The byte of a byte-addressed host at offset 0 of a word is lane 3 under the order `big`, at offset 3 lane
0; under `little` the lane is the offset (20_memory.md R40). Its one-byte write enables that lane alone,
puts the byte where that host reads it back, and changes no other byte of the word (R42). -/
def Obligations.HostByteWriteChangesOneByte : Prop :=
  ∀ (c : Config) (addr : BitVec 20) (b : Byte) (old : Word),
    let lane := match c.hostLaneOrder with
      | .big    => 3 - addr.toNat % 4
      | .little => addr.toNat % 4
    hostByteOf c addr old = old.extractLsb' (8 * lane) 8 ∧
    ∃ q, hostByteWrite c addr b = .bus q ∧ q.w = true ∧ q.addr = addr ∧ q.be = 1#4 <<< lane ∧
      hostByteOf c addr (merge old q.data q.be) = b ∧
      ∀ a : BitVec 20, a.extractLsb' 0 2 ≠ addr.extractLsb' 0 2 →
        hostByteOf c a (merge old q.data q.be) = hostByteOf c a old

/-! ## Invariants and rules of the whole machine -/

/-- Every step keeps the state sound: arrays canonical and inside their sizes, bitmaps canonical,
inside the screen and either never rendered or cleared to black, no blit running (00_scope.md R9;
10_state.md R19, R34; 48_blitter_optional.md R128; the canonical forms are log 11 and log 12). -/
def Obligations.StateStaysSound : Prop :=
  ∀ s t : State, s.sound = true → step s = .next t → t.sound = true

/-- The initial state of a run meets the three invariants, whatever the configuration (10_state.md
R38). -/
def Obligations.InitialStateMeetsTheInvariants : Prop :=
  ∀ c : Config, (initState c).sound = true ∧ blitterInert (initState c) = true ∧
    ∀ k, brightnessAgrees (initState c) k = true

/-- Every step keeps the brightness cache in agreement with the contrast, but for a bank no brightness
write has changed since reset (43_palette_output.md R121). -/
def Obligations.BrightnessCacheStaysInAgreement : Prop :=
  ∀ s t : State, (∀ k, brightnessAgrees s k = true) → step s = .next t →
    ∀ k, brightnessAgrees t k = true

/-- Only a RESET brings a bank back to full contrast (10_state.md R31; 70_reset_and_hazards.md R168). -/
def Obligations.FullContrastComesOnlyFromReset : Prop :=
  ∀ (s t : State) (k : BitVec 1), step s = .next t → pair t.contrast k = 16 →
    pair s.contrast k = 16 ∨ ∃ u, fetch s = .ok (some (.reset, u))

/-- With the blitter absent, words 0x4000 to 0x7FFF of every tile bank stay zero, no blitter register
or completion appears, and the blitter stays absent (10_state.md R23; 48_blitter_optional.md R126). -/
def Obligations.UpperTileWordsStayZero : Prop :=
  ∀ s t : State, s.cfg.blitterPresent = false → blitterInert s = true → step s = .next t →
    t.cfg.blitterPresent = false ∧ blitterInert t = true ∧
      ∀ (b : BitVec 2) (i : Nat), 0x4000 ≤ i → storeWord (quad t.tile b) i = 0

/-- No input changes the configuration or a ROM (10_state.md R20). -/
def Obligations.NoInputChangesTheConfiguration : Prop :=
  ∀ s t : State, step s = .next t → t.cfg = s.cfg

/-- A step that goes on leaves the marks as they were, RESET included; a step that stops leaves a state
that is not final and stops in the same way for ever (60_exceptions.md R144, R145, R159;
70_reset_and_hazards.md R160). That a marked state answers its stop again is the model's choice
(log 6). -/
def Obligations.StoppedRunStaysStopped : Prop :=
  (∀ s t : State, step s = .next t → t.marks = s.marks) ∧
  ∀ s : State, (∀ t, step s ≠ .next t) →
    isFinal (stateAfter s) = false ∧ step (stateAfter s) = step s

/-- What a step had written when it stopped stays written, and its mark is set (60_exceptions.md R144).
A refresh stops at the first pixel its layers, cells and pixels come to that cannot be decoded (R148),
and its own bitmap keeps every pixel drawn before, over black, with nothing drawn after. A start keeps
its register write and what its commands wrote: those before the one that stopped whole, and that one as
far as it got. A COPY cut short by the end of the ROM, and a COPY or FILL that runs past the bank, keep
the half-words before the stop; an odd amount is refused before any. `stateAfter`, and what a refused step
keeps, of which R145 does not speak, are the model's (log 6). -/
def Obligations.StoppedStepKeepsItsWrites : Prop :=
  (∀ (s : State) (i : Instr) (t : State) (e : Stop), fetch s = .ok (some (i, t)) →
    exec i t = stopOutcome e → stateAfter s = markStop (leftByStop i t) e) ∧
  (∀ (s : State) (scr : Screen) (e : Stop), exec (refreshInstr scr) s = stopOutcome e →
    ∃ f, leftByStop (refreshInstr scr) s = s.setFb scr f ∧ f.base = .black ∧
      leftPicture s scr e f) ∧
  (∀ (s : State) (data : Word) (be : Lanes) (e : Stop), s.cfg.blitterPresent = true →
    exec (.bltregWr s.cfg.bltRegLayout.start data be) s = stopOutcome e →
    ∃ m regs n u cur v, lanesMerged s.bltReg regs s.cfg.bltRegLayout.start.toNat data be ∧
      afterCommands n { s with bltReg := regs
                               cursor := some (startCursor s.cfg regs)
                               out    := none } = some u ∧
      u.cursor = some cur ∧
      ((∃ k, decodeCmd (s.cfg.blitRom.drop cur.src) = .error (.streamShort k) ∧
          e = .fault (.romOutOfRange .blit (cur.src + k)) ∧ v = u) ∨
        ∃ cmd, decodeCmd (s.cfg.blitRom.drop cur.src) = .ok cmd ∧
          exec cmd.instr u = stopOutcome e ∧ v = leftByStop cmd.instr u) ∧
      leftByStop (.bltregWr s.cfg.bltRegLayout.start data be) s = v ∧
      v = { s with tile   := setQuad s.tile (bltField regs s.cfg.bltRegLayout.tm 2) m
                   bltReg := regs
                   cursor := v.cursor
                   out    := none }) ∧
  (∀ (s : State) (cur : BltCursor) (amt : Byte) (n j : Nat), s.cursor = some cur →
    (s.cfg.bltAmountUnit = .bytes ∧ amt.toNat = 2 * n ∨
      s.cfg.bltAmountUnit = .halfwords ∧ amt.toNat = n) → j < n →
    (cur.src + 2 + 2 * j ≤ s.cfg.blitRom.length → s.cfg.blitRom.length < cur.src + 4 + 2 * j →
      cur.lineBase + 127 < 0x8000 →
      exec (.bltCopy amt) s = .fault (.romOutOfRange .blit s.cfg.blitRom.length) ∧
      ∃ m, leftByStop (.bltCopy amt) s = { s with tile := setQuad s.tile cur.tm m } ∧
        halvesWritten s cur j (payloadHalf s cur) m) ∧
    ((∀ k, k < j → lineWord cur k < 0x8000) → 0x8000 ≤ lineWord cur j →
      (cur.src + 4 + 2 * j ≤ s.cfg.blitRom.length →
        exec (.bltCopy amt) s = .fault (.bltDestOutOfRange cur.tm (lineWord cur j)) ∧
        ∃ m, leftByStop (.bltCopy amt) s = { s with tile := setQuad s.tile cur.tm m } ∧
          halvesWritten s cur j (payloadHalf s cur) m) ∧
      ∀ v : Half, exec (.bltFill amt v) s = .fault (.bltDestOutOfRange cur.tm (lineWord cur j)) ∧
        ∃ m, leftByStop (.bltFill amt v) s = { s with tile := setQuad s.tile cur.tm m } ∧
          halvesWritten s cur j (fun _ => v) m)) ∧
  ∀ (s : State) (cur : BltCursor) (amt : Byte), s.cursor = some cur →
    s.cfg.bltAmountUnit = .bytes → amt.toNat % 2 = 1 →
    leftByStop (.bltCopy amt) s = s ∧ ∀ v : Half, leftByStop (.bltFill amt v) s = s

/-- Only a refresh and the blitter stop, each in the ways the spec names and for the cause it names: a ROM
fetch past the end, a sprite index past the graphics, a blitter write past the bank, a 4bpp pixel whose
shift is not given, a COPY or FILL whose odd amount counts bytes, run by itself or read from the command
stream by a blit (60_exceptions.md R144, R145). -/
def Obligations.OnlyTheNamedStopsHappen : Prop :=
  ∀ (i : Instr) (s : State),
    (∀ f, exec i s = .fault f →
      ((∃ scr, i = refreshInstr scr) ∧
        ((∃ a, f = .romOutOfRange .tile a ∧ s.cfg.tileRom.length ≤ a) ∨
         (∃ a, f = .romOutOfRange .sprite a ∧ s.cfg.spriteRom.length ≤ a) ∨
         ∃ n, f = .spriteIndexOutOfRange n ∧ (spriteTileCount s.cfg = 0 ∨
           s.cfg.spriteIndexPolicy = .fault ∧ spriteTileCount s.cfg ≤ n))) ∨
      (runsCommands i s ∧
        ((∃ a, f = .romOutOfRange .blit a ∧ s.cfg.blitRom.length ≤ a) ∨
         ∃ b idx, f = .bltDestOutOfRange b idx ∧ 0x8000 ≤ idx))) ∧
    ∀ r, exec i s = .refused r →
      ((∃ scr, i = refreshInstr scr) ∧ r = .tile4BankShiftUnset ∧
        s.cfg.tile4ColourBank = true ∧ s.cfg.tile4BankShift = none) ∨
      (r = .bltOddAmount ∧ s.cfg.bltAmountUnit = .bytes ∧
        ∃ amt : Byte, amt.toNat % 2 = 1 ∧
          (i = .bltCopy amt ∨ (∃ v, i = .bltFill amt v) ∨
            ∃ data be src, i = .bltregWr s.cfg.bltRegLayout.start data be ∧
              s.cfg.blitterPresent = true ∧
              (decodeCmd (s.cfg.blitRom.drop src) = .ok (.copy amt) ∨
                ∃ v, decodeCmd (s.cfg.blitRom.drop src) = .ok (.fill amt v))))

/-- Only a refresh of a screen, or a RESET, changes that screen's bitmap (10_state.md R34). -/
def Obligations.OnlyItsRefreshChangesABitmap : Prop :=
  ∀ (i : Instr) (s t : State) (scr : Screen), exec i s = .next t → t.fb scr ≠ s.fb scr →
    i = refreshInstr scr ∨ i = .reset

/-- RESET puts every piece of state at its value of 10_state.md R38 and keeps the marks; the initial
state of a run is that state with both marks clear (70_reset_and_hazards.md R160). -/
def Obligations.ResetLeavesTheResetState : Prop :=
  ∀ s : State, ∃ t, exec .reset s = .next t ∧
    (∀ (b : BitVec 2) (i : Nat), storeWord (quad t.tile b) i = 0) ∧
    (∀ i, storeWord t.sprite i = 0) ∧
    (∀ (k : BitVec 2) (i : Nat), storeWord (quad t.treg k) i = 0) ∧
    (∀ i, storeWord t.sreg i = 0) ∧ (∀ i, storeWord t.brt i = 0) ∧
    (∀ k, pair t.brtCache k = s.cfg.brtCacheReset) ∧ (∀ k, pair t.contrast k = 16) ∧
    (∀ i, storeWord t.pal i = 0) ∧
    (∀ (scr : Screen) (x y : Nat), frameAt (t.fb scr) x y = .undef) ∧
    (∀ i, storeWord t.bltReg i = 0) ∧ t.bltPending = false ∧
    t.marks = s.marks ∧ t.cfg = s.cfg ∧
    initState s.cfg = { t with marks := { fault := none, refusal := none }
                               inbox := (initState s.cfg).inbox
                               draws := (initState s.cfg).draws }

/-! ## The decoder -/

/-- `TilePixel` for the default descriptor layout: one byte of ROM holds two 4bpp pixels, high nibble
first, or one 8bpp pixel; nibble 15 and byte 255 are transparent; a 4bpp pen is the raw nibble, or with
TILE4_COLOUR_BANK the nibble plus the shifted colour bank, refused with no shift given; an 8bpp pen is
the byte plus 256 times the colour bank; a byte past the ROM's end is a fault (30_encoding.md R65;
41_tile_decoder.md R93, R94). The sum is in 16 bits: for a shift of at most 8 nothing is lost, and for a
larger one, of which the spec does not speak, the reduction is the model's (log 16). -/
def Obligations.TilePixelFollowsItsFormula : Prop :=
  ∀ (c : Config) (d : Word) (size px py : Nat), c.tileDesc = defaultTileDesc →
    let k := py * size + px
    let romBase := (d.extractLsb' 0 20).toNat * 32
    let bank : Byte := d.extractLsb' 20 8
    (d.getLsbD 28 = false → c.tile4ColourBank = true → c.tile4BankShift = none →
      tilePixel c d size px py = .error (.refusal .tile4BankShiftUnset)) ∧
    (d.getLsbD 28 = false → (c.tile4ColourBank = false ∨ ∃ n, c.tile4BankShift = some n) →
      (c.tileRom.length ≤ romBase + k / 2 →
        tilePixel c d size px py = .error (.fault (.romOutOfRange .tile (romBase + k / 2)))) ∧
      ∀ b : Byte, c.tileRom[romBase + k / 2]? = some b →
        let nib : BitVec 4 := if k % 2 = 0 then b.extractLsb' 4 4 else b.extractLsb' 0 4
        let pen : Pen := if c.tile4ColourBank then
            nib.setWidth 16 + (bank.setWidth 16 <<< c.tile4BankShift.getD 0)
          else nib.setWidth 16
        tilePixel c d size px py = .ok (if nib = 15 then none else some pen)) ∧
    (d.getLsbD 28 = true →
      (c.tileRom.length ≤ romBase + k →
        tilePixel c d size px py = .error (.fault (.romOutOfRange .tile (romBase + k)))) ∧
      ∀ b : Byte, c.tileRom[romBase + k]? = some b →
        tilePixel c d size px py = .ok (if b = 255 then none else some (bank ++ b)))

/-- On the active path a 4bpp pen is 0 to 14 whatever the colour bank; an 8bpp pen is a byte other than
255 plus 256 times the colour bank (41_tile_decoder.md R95; 43_palette_output.md R125). -/
def Obligations.TilePensStayInRange : Prop :=
  ∀ (c : Config) (d : Word) (size px py : Nat) (p : Pen), tilePixel c d size px py = .ok (some p) →
    ((decodeTile c d).depth = false → c.tile4ColourBank = false → p.toNat ≤ 14) ∧
    ((decodeTile c d).depth = true → ∃ b : Byte, b ≠ 255 ∧ b ∈ c.tileRom ∧
      p.toNat = b.toNat + 256 * (decodeTile c d).colorBank.toNat)

/-- The fields the decoder assembles, for the default layouts: of a tile descriptor, whose address counts
32-byte units (30_encoding.md R65); of a tilemap's register words 0 and 2, the cell size and the two
scrolls, unsigned (R66); and of a sprite's two words, where X is signed, Y is not, the X flip is inverted
and the tile index is halved (R67). -/
def Obligations.DataWordsAssemble : Prop :=
  (∀ (c : Config) (d : Word), c.tileDesc = defaultTileDesc →
    (decodeTile c d).romBase = (d.extractLsb' 0 20).toNat * 32 ∧
    (decodeTile c d).colorBank = d.extractLsb' 20 8 ∧ (decodeTile c d).depth = d.getLsbD 28) ∧
  (∀ (c : Config) (t : Store), c.tregLayout = defaultTregLayout →
    cellSize c t = (if (storeWord t 0).getLsbD 22 then 16 else 8) ∧
    scrollX c t = (((storeWord t 2).extractLsb' 4 12).toNat : Int) ∧
    scrollY c t = (((storeWord t 2).extractLsb' 20 12).toNat : Int)) ∧
  ∀ (c : Config) (w0 w1 : Word), c.sprLayout = defaultSprLayout →
    let x := (w0.extractLsb' 0 12).toNat
    (decodeSprite c w0 w1).xs = (if w0.getLsbD 11 then (x : Int) - 0x1000 else x) ∧
    (decodeSprite c w0 w1).ys = ((w0.extractLsb' 16 12).toNat : Int) ∧
    (decodeSprite c w0 w1).flipXeff = !w0.getLsbD 15 ∧
    (decodeSprite c w0 w1).flipY = w0.getLsbD 14 ∧
    (decodeSprite c w0 w1).tile = (w1.extractLsb' 0 18).toNat / 2 ∧
    (decodeSprite c w0 w1).colour = w1.extractLsb' 20 8

/-- How a sprite tile index resolves: the number of tiles is the configuration's, by default the sprite
ROM's size over 256; with none it faults; under `wrap` the index is reduced modulo the number; under
`fault` one past the end faults (41_tile_decoder.md R97; 00_scope.md R9). -/
def Obligations.SpriteIndexResolves : Prop :=
  ∀ (c : Config) (tile : Nat),
    let count := spriteTileCount c
    (c.spriteTileCount = none → count = c.spriteRom.length / 256) ∧
    (∀ n, c.spriteTileCount = some n → count = n) ∧
    (count = 0 → resolveSpriteTile c tile = .error (.fault (.spriteIndexOutOfRange tile))) ∧
    (0 < count → c.spriteIndexPolicy = .wrap → resolveSpriteTile c tile = .ok (tile % count)) ∧
    (0 < count → c.spriteIndexPolicy = .fault → count ≤ tile →
      resolveSpriteTile c tile = .error (.fault (.spriteIndexOutOfRange tile))) ∧
    (c.spriteIndexPolicy = .fault → tile < count → resolveSpriteTile c tile = .ok tile)

/-- A sprite pixel stops as its tile index does; otherwise it reads one byte: 256 bytes a tile, rows of 16,
mirrored by the effective flips, byte 255 transparent, the pen the byte plus 256 times the colour. A byte
past the ROM's end is a fault, and under the default number of tiles there is always a byte to read
(41_tile_decoder.md R98, with R97). -/
def Obligations.SpritePixelFollowsItsFormula : Prop :=
  ∀ (c : Config) (sp : SpriteDesc) (dx dy : Nat), dx < 16 → dy < 16 →
    let sx := if sp.flipXeff then 15 - dx else dx
    let sy := if sp.flipY then 15 - dy else dy
    (∀ e, resolveSpriteTile c sp.tile = .error e → spritePixel c sp dx dy = .error e) ∧
    ∀ t, resolveSpriteTile c sp.tile = .ok t →
      let a := t * 256 + sy * 16 + sx
      (c.spriteTileCount = none → a < c.spriteRom.length) ∧
      (c.spriteRom.length ≤ a →
        spritePixel c sp dx dy = .error (.fault (.romOutOfRange .sprite a))) ∧
      ∀ b : Byte, c.spriteRom[a]? = some b →
        spritePixel c sp dx dy = .ok (if b = 255 then none else some (sp.colour ++ b))

/-! ## The compositor -/

/-- The picture a completed refresh leaves: at every pixel of the screen the front tilemap's pen over
the lowest sprite slot's over the back tilemap's over black, each sampled where the spec places it
(42_compositor.md R110, R111, R113, with R103 to R108). -/
def Obligations.RefreshShowsTheLayeredPicture : Prop :=
  ∀ (s t : State) (scr : Screen) (x y : Nat), exec (refreshInstr scr) s = .next t →
    x < s.cfg.screenW → y < s.cfg.screenH → frameAt (t.fb scr) x y = pictureAt s scr x y

/-- A refresh completes, changing its screen's bitmap and nothing else, whenever every pixel it has to
decode decodes (42_compositor.md R110, R111; 60_exceptions.md R144, R145). -/
def Obligations.RefreshCompletesWhereAllDecodes : Prop :=
  ∀ (s : State) (scr : Screen), pictureDecodes s scr →
    ∃ f, exec (refreshInstr scr) s = .next { s.setFb scr f with out := none }

/-- A refresh that completes changes only its own screen's bitmap and the reply
(70_reset_and_hazards.md R169; 42_compositor.md R112). -/
def Obligations.RefreshWritesOnlyItsScreen : Prop :=
  ∀ s t : State,
    (exec .refreshLeft s = .next t → t = { s with fbLeft := t.fbLeft, out := none }) ∧
    (exec .refreshRight s = .next t → t = { s with fbRight := t.fbRight, out := none })

/-- Refreshing a screen twice with no input in between gives the same bitmap both times
(42_compositor.md R112). -/
def Obligations.RefreshTwiceIsRefreshOnce : Prop :=
  ∀ (s t : State) (scr : Screen), exec (refreshInstr scr) s = .next t →
    exec (refreshInstr scr) t = .next t

/-- A refresh depends on nothing but the configuration, the 64 by 64 grid and register words 0 and 2 of
its two tilemaps, and the sprite slots from 1 on: two states that agree on those complete with equal
bitmaps or stop in the same way (42_compositor.md R104, R107; 10_state.md R27, R28). -/
def Obligations.RefreshReadsOnlyWhatItRenders : Prop :=
  ∀ (s s' : State) (scr : Screen), sameRenderInputs s s' scr →
    (∀ t, exec (refreshInstr scr) s = .next t →
      ∃ t', exec (refreshInstr scr) s' = .next t' ∧ t'.fb scr = t.fb scr) ∧
    (∀ f, exec (refreshInstr scr) s = .fault f → exec (refreshInstr scr) s' = .fault f) ∧
    ∀ r, exec (refreshInstr scr) s = .refused r → exec (refreshInstr scr) s' = .refused r

/-- `Clear` leaves every pixel black, no UNDEF pixel survives a refresh, and black is shown as
RGB(0, 0, 0) whatever the palette and contrast (42_compositor.md R109). -/
def Obligations.ClearedScreenHasNoUndefPixel : Prop :=
  (∀ x y : Nat, frameAt clearedFrame x y = .black) ∧
  (∀ (s t : State) (scr : Screen) (x y : Nat), exec (refreshInstr scr) s = .next t →
    frameAt (t.fb scr) x y ≠ .undef) ∧
  ∀ (s : State) (k : Nat), showPixel s k .black = { r := 0, g := 0, b := 0 }

/-- Under the exclusive clip no tile pixel is shown in the outermost rows and columns: only the top
sprite's pen or black is (42_compositor.md R100, R101). -/
def Obligations.ExclusiveClipKeepsTilesOffTheBorder : Prop :=
  ∀ (s t : State) (scr : Screen) (x y : Nat), s.cfg.tileClipExclusive = true →
    exec (refreshInstr scr) s = .next t → x < s.cfg.screenW → y < s.cfg.screenH →
    (x = 0 ∨ x + 1 = s.cfg.screenW ∨ y = 0 ∨ y + 1 = s.cfg.screenH) →
    frameAt (t.fb scr) x y =
      match topSprite s scr x y with
      | some p => .pen p
      | none   => .black

/-- A tilemap scrolled past its extent draws nothing and fetches nothing: there is no wraparound
(42_compositor.md R105). -/
def Obligations.ScrollPastTheExtentDrawsNothing : Prop :=
  ∀ (c : Config) (bank treg : Store) (f : Frame),
    ((64 * cellSize c treg : Nat) : Int) ≤ scrollX c treg ∨
      ((64 * cellSize c treg : Nat) : Int) ≤ scrollY c treg →
    drawTilemap c bank treg f = .ok f

/-- Skipping a cell or a sprite that lies outside the clip rectangle cannot be observed: drawing its
pixels one by one gives the same answer (42_compositor.md R102; for sprites the skip is log 17). -/
def Obligations.WholeRejectionIsUnobservable : Prop :=
  ∀ (c : Config) (f : Frame),
    (∀ (d : Word) (x y : Int) (size : Nat),
      drawCell c d x y size f = raster size (drawTilePixel c d x y size) f) ∧
    ∀ (w0 w1 : Word) (xoff : Int),
      let sp := decodeSprite c w0 w1
      drawSprite c w0 w1 xoff f =
        raster 16 (drawSpritePixel c sp (sp.xs - xoff - 8) (sp.ys - 8)) f

/-- Drawing a bank that holds one descriptor everywhere, unscrolled, with 8 by 8 cells, covers the 512 by
512 surface with that descriptor's cell and no gap: every pixel of it that passes the clip test decodes
as its place in its cell and takes that pen, or stays under a transparent one; no other pixel of the
bitmap changes (42_compositor.md R104, R115). -/
def Obligations.UniformTilemapTilesTheSurface : Prop :=
  ∀ (s : State) (t : BitVec 2) (d : Word) (f f' : Frame) (x y : Nat),
    cellSize s.cfg (quad s.treg t) = 8 → scrollX s.cfg (quad s.treg t) = 0 →
    scrollY s.cfg (quad s.treg t) = 0 →
    (∀ i, i < 4096 → storeWord (quad s.tile t) i = d) → drawMap s t f = .ok f' →
    (x < 512 ∧ y < 512 ∧ tileInside s.cfg x y = true →
      ∃ cand, tilePixel s.cfg d 8 (x % 8) (y % 8) = .ok cand ∧
        frameAt f' x y =
          match cand with
          | some p => .pen p
          | none   => frameAt f x y) ∧
    (¬(x < 512 ∧ y < 512 ∧ tileInside s.cfg x y = true) → frameAt f' x y = frameAt f x y)

/-! ## Palette and display -/

/-- The order of a palette word's components, with the source's example (43_palette_output.md R116,
R118). -/
def Obligations.PaletteWordUnpacksInItsOrder : Prop :=
  (∀ w : Word, unpackBGR w =
    { r := w.extractLsb' 8 8, g := w.extractLsb' 16 8, b := w.extractLsb' 0 8 }) ∧
  unpackBGR 0x00112233 = { r := 0x22, g := 0x11, b := 0x33 }

/-- A palette write makes its entry's colour that of the merged word, keeps every other entry's colour,
and changes neither contrast nor cache (40_bus_access.md R80; 43_palette_output.md R117). -/
def Obligations.PaletteWriteSetsOneColour : Prop :=
  ∀ (s : State) (idx : BitVec 12) (data : Word) (be : Lanes),
    ∃ t, exec (.palWr idx data be) s = .next t ∧
      storeWord t.pal idx.toNat = merge (storeWord s.pal idx.toNat) data be ∧
      colourOf t idx.toNat = unpackBGR (merge (storeWord s.pal idx.toNat) data be) ∧
      (∀ i, i ≠ idx.toNat → storeWord t.pal i = storeWord s.pal i ∧ colourOf t i = colourOf s i) ∧
      t.contrast = s.contrast ∧ t.brtCache = s.brtCache ∧ t = { s with pal := t.pal, out := none }

/-- A palette write changes the shown colour of pixels already rendered, with no new refresh
(43_palette_output.md R123). -/
def Obligations.PaletteWriteShowsAtOnce : Prop :=
  ∀ (s t : State) (idx : BitVec 12) (data : Word) (be : Lanes) (scr : Screen) (x y k : Nat),
    frameAt (s.fb scr) x y = .pen (idx.setWidth 16) → exec (.palWr idx data be) s = .next t →
    displayColour t scr x y k =
      scaleRgb s.cfg (unpackBGR (merge (storeWord s.pal idx.toNat) data be))
        (pair s.contrast (if idx.toNat < 0x800 then 0 else 1))

/-- The displayed colour of a pixel: a free colour for an UNDEF pixel and for a pen of no palette entry,
black for BLACK, else the entry's components, each scaled by the contrast of its half of the palette
(43_palette_output.md R122). The free colour is log 5. -/
def Obligations.DisplayedColourFollowsThePalette : Prop :=
  ∀ (s : State) (scr : Screen) (x y k : Nat),
    (frameAt (s.fb scr) x y = .undef → displayColour s scr x y k = Config.freeColour k) ∧
    (frameAt (s.fb scr) x y = .black → displayColour s scr x y k = { r := 0, g := 0, b := 0 }) ∧
    ∀ p : Pen, frameAt (s.fb scr) x y = .pen p →
      (0x1000 ≤ p.toNat → displayColour s scr x y k = Config.freeColour k) ∧
      (p.toNat < 0x1000 →
        let n := pair s.contrast (if p.toNat < 0x800 then 0 else 1)
        let w := storeWord s.pal p.toNat
        displayColour s scr x y k =
          { r := scaleComponent s.cfg (w.extractLsb' 8 8) n
            g := scaleComponent s.cfg (w.extractLsb' 16 8) n
            b := scaleComponent s.cfg (w.extractLsb' 0 8) n })

/-- Every instantiation of the contrast function is the identity at 16 and depends on the component and
the numerator alone; the default is the floor of the product over 16 (43_palette_output.md R120). -/
def Obligations.ContrastScaleIsExact : Prop :=
  (∀ (c : Config) (x : Byte), scaleComponent c x 16 = x) ∧
  (∀ (c c' : Config) (x : Byte) (n : Fin 17), c.contrastScale = c'.contrastScale →
    scaleComponent c x n = scaleComponent c' x n) ∧
  ∀ (c : Config) (x : Byte) (n : Fin 17), c.contrastScale = .floor16 →
    (scaleComponent c x n).toNat = x.toNat * n.val / 16

/-- A refresh straight after reset, where it completes, shows black at every pixel of its screen,
whatever the ROMs hold and whatever the layouts (70_reset_and_hazards.md R162). -/
def Obligations.FirstPictureIsBlack : Prop :=
  ∀ (c : Config) (t : State) (scr : Screen) (x y k : Nat),
    exec (refreshInstr scr) (initState c) = .next t → x < c.screenW → y < c.screenH →
    displayColour t scr x y k = { r := 0, g := 0, b := 0 }

/-! ## The blitter -/

/-- Without the annex a BLIT_DONE changes nothing (48_blitter_optional.md R126). Nor does the register
write `bltregWr`, which is the model's choice (log 14): without the annex those addresses are unmapped,
so no request decodes to it. -/
def Obligations.AbsentBlitterDoesNothing : Prop :=
  ∀ s : State, s.cfg.blitterPresent = false →
    (∀ (off : BitVec 3) (data : Word) (be : Lanes),
      exec (.bltregWr off data be) s = .next { s with out := none }) ∧
    exec .blitDone s = .next { s with out := none }

/-- BLIT_DONE delivers a pending completion as one interrupt request, and does nothing with none
pending (48_blitter_optional.md R140). -/
def Obligations.BlitDoneDeliversOnePendingCompletion : Prop :=
  ∀ s : State, s.cfg.blitterPresent = true →
    (s.bltPending = true →
      exec .blitDone s = .next { s with bltPending := false, out := some .irqBlit }) ∧
    (s.bltPending = false → exec .blitDone s = .next { s with out := none })

/-- A write to a blitter register that does not start a blit merges its lanes and changes nothing else
(48_blitter_optional.md R131). -/
def Obligations.BlitterRegisterWriteMergesLanes : Prop :=
  ∀ (s : State) (off : BitVec 3) (data : Word) (be : Lanes), s.cfg.blitterPresent = true →
    off ≠ s.cfg.bltRegLayout.start →
    ∃ m, lanesMerged s.bltReg m off.toNat data be ∧
      exec (.bltregWr off data be) s = .next { s with bltReg := m, out := none }

/-- `WriteHalf`: one half of the word at the cursor takes the value, the other half and every other word
stay, the column moves on modulo 128 and the line does not; past the bank it faults and writes nothing
(48_blitter_optional.md R134). -/
def Obligations.HalfWriteChangesOneHalf : Prop :=
  ∀ (c : Config) (h : Half) (bank : Store) (cur : BltCursor),
    let idx := cur.lineBase + cur.col.toNat
    (0x8000 ≤ idx →
      writeHalf c h bank cur = .error ⟨.fault (.bltDestOutOfRange cur.tm idx), (bank, cur)⟩) ∧
    (idx < 0x8000 →
      ∃ m cur', writeHalf c h bank cur = .ok (m, cur') ∧
        cur' = { cur with col := cur'.col } ∧ cur'.col.toNat = (cur.col.toNat + 1) % 128 ∧
        (∀ i, i ≠ idx → storeWord m i = storeWord bank i) ∧
        storeWord m idx =
          if (c.bltHalfPolarity = .upperOn0 ∧ cur.odd = false) ∨
              (c.bltHalfPolarity = .upperOn1 ∧ cur.odd = true) then
            h ++ (storeWord bank idx).extractLsb' 0 16
          else (storeWord bank idx).extractLsb' 16 16 ++ h)

/-- END, NEXTLINE and UNKNOWN at the cursor of a running blit (48_blitter_optional.md R136, R138,
R139); a command with no blit running has no effect, which is the model's choice (log 14). -/
def Obligations.CursorCommandsComplete : Prop :=
  (∀ (s : State) (cur : BltCursor), s.cursor = some cur →
    exec .bltEnd s = .next { s with bltPending := true, cursor := none, out := none } ∧
    exec .bltNextline s = .next { s with
      cursor := some { cur with col := cur.col0, lineBase := cur.lineBase + 128,
                                src := cur.src + 1 }
      out := none } ∧
    ∀ c0 : Byte, exec (.bltUnknown c0) s = .next { s with
      cursor := some { cur with src := cur.src + 1 }, out := none }) ∧
  ∀ (s : State) (cmd : BltCmd), s.cursor = none →
    exec cmd.instr s = .next { s with out := none }

/-- COPY: with an amount of `n` half-words, its payload in the ROM and its line inside the bank, it
completes; the half of each word it reaches takes the last half-word written there, first byte high,
every other word stays, and the cursor moves past the command (48_blitter_optional.md R135, R134). -/
def Obligations.CopyWritesItsPayload : Prop :=
  ∀ (s : State) (cur : BltCursor) (amt : Byte) (n : Nat), s.cursor = some cur →
    (s.cfg.bltAmountUnit = .bytes ∧ amt.toNat = 2 * n ∨
      s.cfg.bltAmountUnit = .halfwords ∧ amt.toNat = n) →
    cur.src + 2 + 2 * n ≤ s.cfg.blitRom.length → cur.lineBase + 127 < 0x8000 →
    ∃ m, exec (.bltCopy amt) s = .next { s with
        tile   := setQuad s.tile cur.tm m
        cursor := some { cur with col := cur.col + BitVec.ofNat 7 n, src := cur.src + 2 + 2 * n }
        out    := none } ∧
      (∀ i, (∀ j, j < n → i ≠ lineWord cur j) →
        storeWord m i = storeWord (quad s.tile cur.tm) i) ∧
      ∀ j, j < n → n ≤ j + 128 →
        let h : Half := s.cfg.blitRom.getD (cur.src + 2 + 2 * j) 0
          ++ s.cfg.blitRom.getD (cur.src + 3 + 2 * j) 0
        storeWord m (lineWord cur j) =
          merge (storeWord (quad s.tile cur.tm) (lineWord cur j)) (h ++ h)
            (halfLanes s.cfg cur.odd)

/-- FILL: with an amount of `n` half-words and its line inside the bank it completes; the half of each
of the next `n` words of the line takes the value, every other word stays, and the cursor moves past
the four bytes of the command, whatever the amount (48_blitter_optional.md R137, R134). -/
def Obligations.FillWritesItsValue : Prop :=
  ∀ (s : State) (cur : BltCursor) (amt : Byte) (v : Half) (n : Nat), s.cursor = some cur →
    (s.cfg.bltAmountUnit = .bytes ∧ amt.toNat = 2 * n ∨
      s.cfg.bltAmountUnit = .halfwords ∧ amt.toNat = n) →
    cur.lineBase + 127 < 0x8000 →
    ∃ m, exec (.bltFill amt v) s = .next { s with
        tile   := setQuad s.tile cur.tm m
        cursor := some { cur with col := cur.col + BitVec.ofNat 7 n, src := cur.src + 4 }
        out    := none } ∧
      (∀ i, (∀ j, j < n → i ≠ lineWord cur j) →
        storeWord m i = storeWord (quad s.tile cur.tm) i) ∧
      ∀ j, j < n → storeWord m (lineWord cur j) =
        merge (storeWord (quad s.tile cur.tm) (lineWord cur j)) (v ++ v) (halfLanes s.cfg cur.odd)

/-- Where the amount counts bytes, an odd one is refused (48_blitter_optional.md R135, R137;
60_exceptions.md R145). -/
def Obligations.OddAmountIsRefused : Prop :=
  ∀ (s : State) (cur : BltCursor) (amt : Byte), s.cursor = some cur →
    s.cfg.bltAmountUnit = .bytes → amt.toNat % 2 = 1 →
    exec (.bltCopy amt) s = .refused .bltOddAmount ∧
      ∀ v : Half, exec (.bltFill amt v) s = .refused .bltOddAmount

/-- A start completes just where the commands of its stream, run one by one from the cursor the registers
give, run to the END that clears the cursor, and it leaves what they leave. It writes only the bank the
registers name and the pending completion, keeps the registers as the starting write left them, leaves no
blit running, and has one completion pending (48_blitter_optional.md R132, R136). -/
def Obligations.BlitWritesOnlyItsBank : Prop :=
  ∀ (s : State) (data : Word) (be : Lanes), s.cfg.blitterPresent = true →
    ∃ regs, lanesMerged s.bltReg regs s.cfg.bltRegLayout.start.toNat data be ∧
      ∀ t, (exec (.bltregWr s.cfg.bltRegLayout.start data be) s = .next t ↔
          ∃ n, afterCommands n { s with bltReg := regs
                                        cursor := some (startCursor s.cfg regs)
                                        out    := none } = some t ∧ t.cursor = none) ∧
        (exec (.bltregWr s.cfg.bltRegLayout.start data be) s = .next t →
          ∃ m, t = { s with tile       := setQuad s.tile (bltField regs s.cfg.bltRegLayout.tm 2) m
                            bltReg     := regs
                            bltPending := true
                            cursor     := none
                            out        := none })

/-- A blit always ends within one command more than the ROM has bytes: a larger bound gives the same
answer (48_blitter_optional.md R132; the bound is log 18). -/
def Obligations.BlitAlwaysEnds : Prop :=
  ∀ (s : State) (n : Nat), s.cfg.blitRom.length + 1 ≤ n →
    runBlit n s = runBlit (s.cfg.blitRom.length + 1) s

/-- The source's blitter stream, started from any registers under the default layout: the stream stands at
SRC, and the one half-word it copies is written at column COL of line LINE, 128 words a line, in bank TM,
in the half ODD selects; nothing else of tile memory changes; one completion is delivered, and a second
BLIT_DONE delivers none. With registers of zero and the word 0x11223344 it is the source's example
(48_blitter_optional.md R142; the fields are those of R129, loaded as R132 says). -/
def Obligations.SourceBlitExample : Prop :=
  ∀ (s : State) (rest : List Byte) (data : Word) (be : Lanes),
    s.cfg.blitterPresent = true → s.cfg.bltRegLayout = defaultBltRegLayout →
    s.cfg.bltAmountUnit = .bytes → s.cfg.bltHalfPolarity = .upperOn0 →
    s.cfg.blitRom.drop (storeWord s.bltReg 0).toNat =
      [0x00, 0x02, 0xAA, 0xBB, 0x00, 0x00] ++ rest →
    let col := ((storeWord s.bltReg 1).extractLsb' 0 7).toNat
    let line := ((storeWord s.bltReg 2).extractLsb' 0 8).toNat
    let tm : BitVec 2 := (storeWord s.bltReg 3).extractLsb' 0 2
    let old := storeWord (quad s.tile tm) (line * 128 + col)
    ∃ t u, exec (.bltregWr 5 data be) s = .next t ∧
      storeWord (quad t.tile tm) (line * 128 + col) =
        (if (storeWord s.bltReg 4).getLsbD 0 then old.extractLsb' 16 16 ++ (0xAABB#16)
         else (0xAABB#16) ++ old.extractLsb' 0 16) ∧
      ((∀ i, i < 5 → storeWord s.bltReg i = 0) → storeWord (quad s.tile 0) 0 = 0x11223344 →
        storeWord (quad t.tile 0) 0 = 0xAABB3344) ∧
      (∀ (b : BitVec 2) (i : Nat), ¬(b = tm ∧ i = line * 128 + col) →
        storeWord (quad t.tile b) i = storeWord (quad s.tile b) i) ∧
      t.bltPending = true ∧
      exec .blitDone t = .next u ∧ u = { t with bltPending := false, out := some .irqBlit } ∧
      exec .blitDone u = .next { u with out := none }
end

