-- ==== Sys2Proof/Laws/State.lean ====
section
/-! SUPPORT. One lemma per field of State per update: what each update writes and what it leaves. -/

namespace Sys2Proof.Machine

@[simp] theorem State.setTile_cfg (s : State) (b : BitVec 2) (m : Store) :
    (s.setTile b m).cfg = s.cfg := rfl
@[simp] theorem State.setTile_tile (s : State) (b : BitVec 2) (m : Store) :
    (s.setTile b m).tile = setQuad s.tile b m := rfl
@[simp] theorem State.setTile_sprite (s : State) (b : BitVec 2) (m : Store) :
    (s.setTile b m).sprite = s.sprite := rfl
@[simp] theorem State.setTile_treg (s : State) (b : BitVec 2) (m : Store) :
    (s.setTile b m).treg = s.treg := rfl
@[simp] theorem State.setTile_sreg (s : State) (b : BitVec 2) (m : Store) :
    (s.setTile b m).sreg = s.sreg := rfl
@[simp] theorem State.setTile_brt (s : State) (b : BitVec 2) (m : Store) :
    (s.setTile b m).brt = s.brt := rfl
@[simp] theorem State.setTile_brtCache (s : State) (b : BitVec 2) (m : Store) :
    (s.setTile b m).brtCache = s.brtCache := rfl
@[simp] theorem State.setTile_contrast (s : State) (b : BitVec 2) (m : Store) :
    (s.setTile b m).contrast = s.contrast := rfl
@[simp] theorem State.setTile_pal (s : State) (b : BitVec 2) (m : Store) :
    (s.setTile b m).pal = s.pal := rfl
@[simp] theorem State.setTile_fbLeft (s : State) (b : BitVec 2) (m : Store) :
    (s.setTile b m).fbLeft = s.fbLeft := rfl
@[simp] theorem State.setTile_fbRight (s : State) (b : BitVec 2) (m : Store) :
    (s.setTile b m).fbRight = s.fbRight := rfl
@[simp] theorem State.setTile_bltReg (s : State) (b : BitVec 2) (m : Store) :
    (s.setTile b m).bltReg = s.bltReg := rfl
@[simp] theorem State.setTile_bltPending (s : State) (b : BitVec 2) (m : Store) :
    (s.setTile b m).bltPending = s.bltPending := rfl
@[simp] theorem State.setTile_cursor (s : State) (b : BitVec 2) (m : Store) :
    (s.setTile b m).cursor = s.cursor := rfl
@[simp] theorem State.setTile_marks (s : State) (b : BitVec 2) (m : Store) :
    (s.setTile b m).marks = s.marks := rfl
@[simp] theorem State.setTile_inbox (s : State) (b : BitVec 2) (m : Store) :
    (s.setTile b m).inbox = s.inbox := rfl
@[simp] theorem State.setTile_out (s : State) (b : BitVec 2) (m : Store) :
    (s.setTile b m).out = s.out := rfl
@[simp] theorem State.setTile_draws (s : State) (b : BitVec 2) (m : Store) :
    (s.setTile b m).draws = s.draws := rfl

@[simp] theorem State.setSprite_cfg (s : State) (m : Store) :
    (s.setSprite m).cfg = s.cfg := rfl
@[simp] theorem State.setSprite_tile (s : State) (m : Store) :
    (s.setSprite m).tile = s.tile := rfl
@[simp] theorem State.setSprite_sprite (s : State) (m : Store) :
    (s.setSprite m).sprite = m := rfl
@[simp] theorem State.setSprite_treg (s : State) (m : Store) :
    (s.setSprite m).treg = s.treg := rfl
@[simp] theorem State.setSprite_sreg (s : State) (m : Store) :
    (s.setSprite m).sreg = s.sreg := rfl
@[simp] theorem State.setSprite_brt (s : State) (m : Store) :
    (s.setSprite m).brt = s.brt := rfl
@[simp] theorem State.setSprite_brtCache (s : State) (m : Store) :
    (s.setSprite m).brtCache = s.brtCache := rfl
@[simp] theorem State.setSprite_contrast (s : State) (m : Store) :
    (s.setSprite m).contrast = s.contrast := rfl
@[simp] theorem State.setSprite_pal (s : State) (m : Store) :
    (s.setSprite m).pal = s.pal := rfl
@[simp] theorem State.setSprite_fbLeft (s : State) (m : Store) :
    (s.setSprite m).fbLeft = s.fbLeft := rfl
@[simp] theorem State.setSprite_fbRight (s : State) (m : Store) :
    (s.setSprite m).fbRight = s.fbRight := rfl
@[simp] theorem State.setSprite_bltReg (s : State) (m : Store) :
    (s.setSprite m).bltReg = s.bltReg := rfl
@[simp] theorem State.setSprite_bltPending (s : State) (m : Store) :
    (s.setSprite m).bltPending = s.bltPending := rfl
@[simp] theorem State.setSprite_cursor (s : State) (m : Store) :
    (s.setSprite m).cursor = s.cursor := rfl
@[simp] theorem State.setSprite_marks (s : State) (m : Store) :
    (s.setSprite m).marks = s.marks := rfl
@[simp] theorem State.setSprite_inbox (s : State) (m : Store) :
    (s.setSprite m).inbox = s.inbox := rfl
@[simp] theorem State.setSprite_out (s : State) (m : Store) :
    (s.setSprite m).out = s.out := rfl
@[simp] theorem State.setSprite_draws (s : State) (m : Store) :
    (s.setSprite m).draws = s.draws := rfl

@[simp] theorem State.setTreg_cfg (s : State) (t : BitVec 2) (m : Store) :
    (s.setTreg t m).cfg = s.cfg := rfl
@[simp] theorem State.setTreg_tile (s : State) (t : BitVec 2) (m : Store) :
    (s.setTreg t m).tile = s.tile := rfl
@[simp] theorem State.setTreg_sprite (s : State) (t : BitVec 2) (m : Store) :
    (s.setTreg t m).sprite = s.sprite := rfl
@[simp] theorem State.setTreg_treg (s : State) (t : BitVec 2) (m : Store) :
    (s.setTreg t m).treg = setQuad s.treg t m := rfl
@[simp] theorem State.setTreg_sreg (s : State) (t : BitVec 2) (m : Store) :
    (s.setTreg t m).sreg = s.sreg := rfl
@[simp] theorem State.setTreg_brt (s : State) (t : BitVec 2) (m : Store) :
    (s.setTreg t m).brt = s.brt := rfl
@[simp] theorem State.setTreg_brtCache (s : State) (t : BitVec 2) (m : Store) :
    (s.setTreg t m).brtCache = s.brtCache := rfl
@[simp] theorem State.setTreg_contrast (s : State) (t : BitVec 2) (m : Store) :
    (s.setTreg t m).contrast = s.contrast := rfl
@[simp] theorem State.setTreg_pal (s : State) (t : BitVec 2) (m : Store) :
    (s.setTreg t m).pal = s.pal := rfl
@[simp] theorem State.setTreg_fbLeft (s : State) (t : BitVec 2) (m : Store) :
    (s.setTreg t m).fbLeft = s.fbLeft := rfl
@[simp] theorem State.setTreg_fbRight (s : State) (t : BitVec 2) (m : Store) :
    (s.setTreg t m).fbRight = s.fbRight := rfl
@[simp] theorem State.setTreg_bltReg (s : State) (t : BitVec 2) (m : Store) :
    (s.setTreg t m).bltReg = s.bltReg := rfl
@[simp] theorem State.setTreg_bltPending (s : State) (t : BitVec 2) (m : Store) :
    (s.setTreg t m).bltPending = s.bltPending := rfl
@[simp] theorem State.setTreg_cursor (s : State) (t : BitVec 2) (m : Store) :
    (s.setTreg t m).cursor = s.cursor := rfl
@[simp] theorem State.setTreg_marks (s : State) (t : BitVec 2) (m : Store) :
    (s.setTreg t m).marks = s.marks := rfl
@[simp] theorem State.setTreg_inbox (s : State) (t : BitVec 2) (m : Store) :
    (s.setTreg t m).inbox = s.inbox := rfl
@[simp] theorem State.setTreg_out (s : State) (t : BitVec 2) (m : Store) :
    (s.setTreg t m).out = s.out := rfl
@[simp] theorem State.setTreg_draws (s : State) (t : BitVec 2) (m : Store) :
    (s.setTreg t m).draws = s.draws := rfl

@[simp] theorem State.setSreg_cfg (s : State) (m : Store) :
    (s.setSreg m).cfg = s.cfg := rfl
@[simp] theorem State.setSreg_tile (s : State) (m : Store) :
    (s.setSreg m).tile = s.tile := rfl
@[simp] theorem State.setSreg_sprite (s : State) (m : Store) :
    (s.setSreg m).sprite = s.sprite := rfl
@[simp] theorem State.setSreg_treg (s : State) (m : Store) :
    (s.setSreg m).treg = s.treg := rfl
@[simp] theorem State.setSreg_sreg (s : State) (m : Store) :
    (s.setSreg m).sreg = m := rfl
@[simp] theorem State.setSreg_brt (s : State) (m : Store) :
    (s.setSreg m).brt = s.brt := rfl
@[simp] theorem State.setSreg_brtCache (s : State) (m : Store) :
    (s.setSreg m).brtCache = s.brtCache := rfl
@[simp] theorem State.setSreg_contrast (s : State) (m : Store) :
    (s.setSreg m).contrast = s.contrast := rfl
@[simp] theorem State.setSreg_pal (s : State) (m : Store) :
    (s.setSreg m).pal = s.pal := rfl
@[simp] theorem State.setSreg_fbLeft (s : State) (m : Store) :
    (s.setSreg m).fbLeft = s.fbLeft := rfl
@[simp] theorem State.setSreg_fbRight (s : State) (m : Store) :
    (s.setSreg m).fbRight = s.fbRight := rfl
@[simp] theorem State.setSreg_bltReg (s : State) (m : Store) :
    (s.setSreg m).bltReg = s.bltReg := rfl
@[simp] theorem State.setSreg_bltPending (s : State) (m : Store) :
    (s.setSreg m).bltPending = s.bltPending := rfl
@[simp] theorem State.setSreg_cursor (s : State) (m : Store) :
    (s.setSreg m).cursor = s.cursor := rfl
@[simp] theorem State.setSreg_marks (s : State) (m : Store) :
    (s.setSreg m).marks = s.marks := rfl
@[simp] theorem State.setSreg_inbox (s : State) (m : Store) :
    (s.setSreg m).inbox = s.inbox := rfl
@[simp] theorem State.setSreg_out (s : State) (m : Store) :
    (s.setSreg m).out = s.out := rfl
@[simp] theorem State.setSreg_draws (s : State) (m : Store) :
    (s.setSreg m).draws = s.draws := rfl

@[simp] theorem State.setBrt_cfg (s : State) (m : Store) :
    (s.setBrt m).cfg = s.cfg := rfl
@[simp] theorem State.setBrt_tile (s : State) (m : Store) :
    (s.setBrt m).tile = s.tile := rfl
@[simp] theorem State.setBrt_sprite (s : State) (m : Store) :
    (s.setBrt m).sprite = s.sprite := rfl
@[simp] theorem State.setBrt_treg (s : State) (m : Store) :
    (s.setBrt m).treg = s.treg := rfl
@[simp] theorem State.setBrt_sreg (s : State) (m : Store) :
    (s.setBrt m).sreg = s.sreg := rfl
@[simp] theorem State.setBrt_brt (s : State) (m : Store) :
    (s.setBrt m).brt = m := rfl
@[simp] theorem State.setBrt_brtCache (s : State) (m : Store) :
    (s.setBrt m).brtCache = s.brtCache := rfl
@[simp] theorem State.setBrt_contrast (s : State) (m : Store) :
    (s.setBrt m).contrast = s.contrast := rfl
@[simp] theorem State.setBrt_pal (s : State) (m : Store) :
    (s.setBrt m).pal = s.pal := rfl
@[simp] theorem State.setBrt_fbLeft (s : State) (m : Store) :
    (s.setBrt m).fbLeft = s.fbLeft := rfl
@[simp] theorem State.setBrt_fbRight (s : State) (m : Store) :
    (s.setBrt m).fbRight = s.fbRight := rfl
@[simp] theorem State.setBrt_bltReg (s : State) (m : Store) :
    (s.setBrt m).bltReg = s.bltReg := rfl
@[simp] theorem State.setBrt_bltPending (s : State) (m : Store) :
    (s.setBrt m).bltPending = s.bltPending := rfl
@[simp] theorem State.setBrt_cursor (s : State) (m : Store) :
    (s.setBrt m).cursor = s.cursor := rfl
@[simp] theorem State.setBrt_marks (s : State) (m : Store) :
    (s.setBrt m).marks = s.marks := rfl
@[simp] theorem State.setBrt_inbox (s : State) (m : Store) :
    (s.setBrt m).inbox = s.inbox := rfl
@[simp] theorem State.setBrt_out (s : State) (m : Store) :
    (s.setBrt m).out = s.out := rfl
@[simp] theorem State.setBrt_draws (s : State) (m : Store) :
    (s.setBrt m).draws = s.draws := rfl

@[simp] theorem State.setBrtCache_cfg (s : State) (k : BitVec 1) (v : BitVec 4) :
    (s.setBrtCache k v).cfg = s.cfg := rfl
@[simp] theorem State.setBrtCache_tile (s : State) (k : BitVec 1) (v : BitVec 4) :
    (s.setBrtCache k v).tile = s.tile := rfl
@[simp] theorem State.setBrtCache_sprite (s : State) (k : BitVec 1) (v : BitVec 4) :
    (s.setBrtCache k v).sprite = s.sprite := rfl
@[simp] theorem State.setBrtCache_treg (s : State) (k : BitVec 1) (v : BitVec 4) :
    (s.setBrtCache k v).treg = s.treg := rfl
@[simp] theorem State.setBrtCache_sreg (s : State) (k : BitVec 1) (v : BitVec 4) :
    (s.setBrtCache k v).sreg = s.sreg := rfl
@[simp] theorem State.setBrtCache_brt (s : State) (k : BitVec 1) (v : BitVec 4) :
    (s.setBrtCache k v).brt = s.brt := rfl
@[simp] theorem State.setBrtCache_brtCache (s : State) (k : BitVec 1) (v : BitVec 4) :
    (s.setBrtCache k v).brtCache = setPair s.brtCache k v := rfl
@[simp] theorem State.setBrtCache_contrast (s : State) (k : BitVec 1) (v : BitVec 4) :
    (s.setBrtCache k v).contrast = s.contrast := rfl
@[simp] theorem State.setBrtCache_pal (s : State) (k : BitVec 1) (v : BitVec 4) :
    (s.setBrtCache k v).pal = s.pal := rfl
@[simp] theorem State.setBrtCache_fbLeft (s : State) (k : BitVec 1) (v : BitVec 4) :
    (s.setBrtCache k v).fbLeft = s.fbLeft := rfl
@[simp] theorem State.setBrtCache_fbRight (s : State) (k : BitVec 1) (v : BitVec 4) :
    (s.setBrtCache k v).fbRight = s.fbRight := rfl
@[simp] theorem State.setBrtCache_bltReg (s : State) (k : BitVec 1) (v : BitVec 4) :
    (s.setBrtCache k v).bltReg = s.bltReg := rfl
@[simp] theorem State.setBrtCache_bltPending (s : State) (k : BitVec 1) (v : BitVec 4) :
    (s.setBrtCache k v).bltPending = s.bltPending := rfl
@[simp] theorem State.setBrtCache_cursor (s : State) (k : BitVec 1) (v : BitVec 4) :
    (s.setBrtCache k v).cursor = s.cursor := rfl
@[simp] theorem State.setBrtCache_marks (s : State) (k : BitVec 1) (v : BitVec 4) :
    (s.setBrtCache k v).marks = s.marks := rfl
@[simp] theorem State.setBrtCache_inbox (s : State) (k : BitVec 1) (v : BitVec 4) :
    (s.setBrtCache k v).inbox = s.inbox := rfl
@[simp] theorem State.setBrtCache_out (s : State) (k : BitVec 1) (v : BitVec 4) :
    (s.setBrtCache k v).out = s.out := rfl
@[simp] theorem State.setBrtCache_draws (s : State) (k : BitVec 1) (v : BitVec 4) :
    (s.setBrtCache k v).draws = s.draws := rfl

@[simp] theorem State.setContrast_cfg (s : State) (k : BitVec 1) (n : Fin 17) :
    (s.setContrast k n).cfg = s.cfg := rfl
@[simp] theorem State.setContrast_tile (s : State) (k : BitVec 1) (n : Fin 17) :
    (s.setContrast k n).tile = s.tile := rfl
@[simp] theorem State.setContrast_sprite (s : State) (k : BitVec 1) (n : Fin 17) :
    (s.setContrast k n).sprite = s.sprite := rfl
@[simp] theorem State.setContrast_treg (s : State) (k : BitVec 1) (n : Fin 17) :
    (s.setContrast k n).treg = s.treg := rfl
@[simp] theorem State.setContrast_sreg (s : State) (k : BitVec 1) (n : Fin 17) :
    (s.setContrast k n).sreg = s.sreg := rfl
@[simp] theorem State.setContrast_brt (s : State) (k : BitVec 1) (n : Fin 17) :
    (s.setContrast k n).brt = s.brt := rfl
@[simp] theorem State.setContrast_brtCache (s : State) (k : BitVec 1) (n : Fin 17) :
    (s.setContrast k n).brtCache = s.brtCache := rfl
@[simp] theorem State.setContrast_contrast (s : State) (k : BitVec 1) (n : Fin 17) :
    (s.setContrast k n).contrast = setPair s.contrast k n := rfl
@[simp] theorem State.setContrast_pal (s : State) (k : BitVec 1) (n : Fin 17) :
    (s.setContrast k n).pal = s.pal := rfl
@[simp] theorem State.setContrast_fbLeft (s : State) (k : BitVec 1) (n : Fin 17) :
    (s.setContrast k n).fbLeft = s.fbLeft := rfl
@[simp] theorem State.setContrast_fbRight (s : State) (k : BitVec 1) (n : Fin 17) :
    (s.setContrast k n).fbRight = s.fbRight := rfl
@[simp] theorem State.setContrast_bltReg (s : State) (k : BitVec 1) (n : Fin 17) :
    (s.setContrast k n).bltReg = s.bltReg := rfl
@[simp] theorem State.setContrast_bltPending (s : State) (k : BitVec 1) (n : Fin 17) :
    (s.setContrast k n).bltPending = s.bltPending := rfl
@[simp] theorem State.setContrast_cursor (s : State) (k : BitVec 1) (n : Fin 17) :
    (s.setContrast k n).cursor = s.cursor := rfl
@[simp] theorem State.setContrast_marks (s : State) (k : BitVec 1) (n : Fin 17) :
    (s.setContrast k n).marks = s.marks := rfl
@[simp] theorem State.setContrast_inbox (s : State) (k : BitVec 1) (n : Fin 17) :
    (s.setContrast k n).inbox = s.inbox := rfl
@[simp] theorem State.setContrast_out (s : State) (k : BitVec 1) (n : Fin 17) :
    (s.setContrast k n).out = s.out := rfl
@[simp] theorem State.setContrast_draws (s : State) (k : BitVec 1) (n : Fin 17) :
    (s.setContrast k n).draws = s.draws := rfl

@[simp] theorem State.setPal_cfg (s : State) (m : Store) :
    (s.setPal m).cfg = s.cfg := rfl
@[simp] theorem State.setPal_tile (s : State) (m : Store) :
    (s.setPal m).tile = s.tile := rfl
@[simp] theorem State.setPal_sprite (s : State) (m : Store) :
    (s.setPal m).sprite = s.sprite := rfl
@[simp] theorem State.setPal_treg (s : State) (m : Store) :
    (s.setPal m).treg = s.treg := rfl
@[simp] theorem State.setPal_sreg (s : State) (m : Store) :
    (s.setPal m).sreg = s.sreg := rfl
@[simp] theorem State.setPal_brt (s : State) (m : Store) :
    (s.setPal m).brt = s.brt := rfl
@[simp] theorem State.setPal_brtCache (s : State) (m : Store) :
    (s.setPal m).brtCache = s.brtCache := rfl
@[simp] theorem State.setPal_contrast (s : State) (m : Store) :
    (s.setPal m).contrast = s.contrast := rfl
@[simp] theorem State.setPal_pal (s : State) (m : Store) :
    (s.setPal m).pal = m := rfl
@[simp] theorem State.setPal_fbLeft (s : State) (m : Store) :
    (s.setPal m).fbLeft = s.fbLeft := rfl
@[simp] theorem State.setPal_fbRight (s : State) (m : Store) :
    (s.setPal m).fbRight = s.fbRight := rfl
@[simp] theorem State.setPal_bltReg (s : State) (m : Store) :
    (s.setPal m).bltReg = s.bltReg := rfl
@[simp] theorem State.setPal_bltPending (s : State) (m : Store) :
    (s.setPal m).bltPending = s.bltPending := rfl
@[simp] theorem State.setPal_cursor (s : State) (m : Store) :
    (s.setPal m).cursor = s.cursor := rfl
@[simp] theorem State.setPal_marks (s : State) (m : Store) :
    (s.setPal m).marks = s.marks := rfl
@[simp] theorem State.setPal_inbox (s : State) (m : Store) :
    (s.setPal m).inbox = s.inbox := rfl
@[simp] theorem State.setPal_out (s : State) (m : Store) :
    (s.setPal m).out = s.out := rfl
@[simp] theorem State.setPal_draws (s : State) (m : Store) :
    (s.setPal m).draws = s.draws := rfl

@[simp] theorem State.setBltReg_cfg (s : State) (m : Store) :
    (s.setBltReg m).cfg = s.cfg := rfl
@[simp] theorem State.setBltReg_tile (s : State) (m : Store) :
    (s.setBltReg m).tile = s.tile := rfl
@[simp] theorem State.setBltReg_sprite (s : State) (m : Store) :
    (s.setBltReg m).sprite = s.sprite := rfl
@[simp] theorem State.setBltReg_treg (s : State) (m : Store) :
    (s.setBltReg m).treg = s.treg := rfl
@[simp] theorem State.setBltReg_sreg (s : State) (m : Store) :
    (s.setBltReg m).sreg = s.sreg := rfl
@[simp] theorem State.setBltReg_brt (s : State) (m : Store) :
    (s.setBltReg m).brt = s.brt := rfl
@[simp] theorem State.setBltReg_brtCache (s : State) (m : Store) :
    (s.setBltReg m).brtCache = s.brtCache := rfl
@[simp] theorem State.setBltReg_contrast (s : State) (m : Store) :
    (s.setBltReg m).contrast = s.contrast := rfl
@[simp] theorem State.setBltReg_pal (s : State) (m : Store) :
    (s.setBltReg m).pal = s.pal := rfl
@[simp] theorem State.setBltReg_fbLeft (s : State) (m : Store) :
    (s.setBltReg m).fbLeft = s.fbLeft := rfl
@[simp] theorem State.setBltReg_fbRight (s : State) (m : Store) :
    (s.setBltReg m).fbRight = s.fbRight := rfl
@[simp] theorem State.setBltReg_bltReg (s : State) (m : Store) :
    (s.setBltReg m).bltReg = m := rfl
@[simp] theorem State.setBltReg_bltPending (s : State) (m : Store) :
    (s.setBltReg m).bltPending = s.bltPending := rfl
@[simp] theorem State.setBltReg_cursor (s : State) (m : Store) :
    (s.setBltReg m).cursor = s.cursor := rfl
@[simp] theorem State.setBltReg_marks (s : State) (m : Store) :
    (s.setBltReg m).marks = s.marks := rfl
@[simp] theorem State.setBltReg_inbox (s : State) (m : Store) :
    (s.setBltReg m).inbox = s.inbox := rfl
@[simp] theorem State.setBltReg_out (s : State) (m : Store) :
    (s.setBltReg m).out = s.out := rfl
@[simp] theorem State.setBltReg_draws (s : State) (m : Store) :
    (s.setBltReg m).draws = s.draws := rfl

@[simp] theorem State.setPending_cfg (s : State) (b : Bool) :
    (s.setPending b).cfg = s.cfg := rfl
@[simp] theorem State.setPending_tile (s : State) (b : Bool) :
    (s.setPending b).tile = s.tile := rfl
@[simp] theorem State.setPending_sprite (s : State) (b : Bool) :
    (s.setPending b).sprite = s.sprite := rfl
@[simp] theorem State.setPending_treg (s : State) (b : Bool) :
    (s.setPending b).treg = s.treg := rfl
@[simp] theorem State.setPending_sreg (s : State) (b : Bool) :
    (s.setPending b).sreg = s.sreg := rfl
@[simp] theorem State.setPending_brt (s : State) (b : Bool) :
    (s.setPending b).brt = s.brt := rfl
@[simp] theorem State.setPending_brtCache (s : State) (b : Bool) :
    (s.setPending b).brtCache = s.brtCache := rfl
@[simp] theorem State.setPending_contrast (s : State) (b : Bool) :
    (s.setPending b).contrast = s.contrast := rfl
@[simp] theorem State.setPending_pal (s : State) (b : Bool) :
    (s.setPending b).pal = s.pal := rfl
@[simp] theorem State.setPending_fbLeft (s : State) (b : Bool) :
    (s.setPending b).fbLeft = s.fbLeft := rfl
@[simp] theorem State.setPending_fbRight (s : State) (b : Bool) :
    (s.setPending b).fbRight = s.fbRight := rfl
@[simp] theorem State.setPending_bltReg (s : State) (b : Bool) :
    (s.setPending b).bltReg = s.bltReg := rfl
@[simp] theorem State.setPending_bltPending (s : State) (b : Bool) :
    (s.setPending b).bltPending = b := rfl
@[simp] theorem State.setPending_cursor (s : State) (b : Bool) :
    (s.setPending b).cursor = s.cursor := rfl
@[simp] theorem State.setPending_marks (s : State) (b : Bool) :
    (s.setPending b).marks = s.marks := rfl
@[simp] theorem State.setPending_inbox (s : State) (b : Bool) :
    (s.setPending b).inbox = s.inbox := rfl
@[simp] theorem State.setPending_out (s : State) (b : Bool) :
    (s.setPending b).out = s.out := rfl
@[simp] theorem State.setPending_draws (s : State) (b : Bool) :
    (s.setPending b).draws = s.draws := rfl

@[simp] theorem State.setCursor_cfg (s : State) (c : Option BltCursor) :
    (s.setCursor c).cfg = s.cfg := rfl
@[simp] theorem State.setCursor_tile (s : State) (c : Option BltCursor) :
    (s.setCursor c).tile = s.tile := rfl
@[simp] theorem State.setCursor_sprite (s : State) (c : Option BltCursor) :
    (s.setCursor c).sprite = s.sprite := rfl
@[simp] theorem State.setCursor_treg (s : State) (c : Option BltCursor) :
    (s.setCursor c).treg = s.treg := rfl
@[simp] theorem State.setCursor_sreg (s : State) (c : Option BltCursor) :
    (s.setCursor c).sreg = s.sreg := rfl
@[simp] theorem State.setCursor_brt (s : State) (c : Option BltCursor) :
    (s.setCursor c).brt = s.brt := rfl
@[simp] theorem State.setCursor_brtCache (s : State) (c : Option BltCursor) :
    (s.setCursor c).brtCache = s.brtCache := rfl
@[simp] theorem State.setCursor_contrast (s : State) (c : Option BltCursor) :
    (s.setCursor c).contrast = s.contrast := rfl
@[simp] theorem State.setCursor_pal (s : State) (c : Option BltCursor) :
    (s.setCursor c).pal = s.pal := rfl
@[simp] theorem State.setCursor_fbLeft (s : State) (c : Option BltCursor) :
    (s.setCursor c).fbLeft = s.fbLeft := rfl
@[simp] theorem State.setCursor_fbRight (s : State) (c : Option BltCursor) :
    (s.setCursor c).fbRight = s.fbRight := rfl
@[simp] theorem State.setCursor_bltReg (s : State) (c : Option BltCursor) :
    (s.setCursor c).bltReg = s.bltReg := rfl
@[simp] theorem State.setCursor_bltPending (s : State) (c : Option BltCursor) :
    (s.setCursor c).bltPending = s.bltPending := rfl
@[simp] theorem State.setCursor_cursor (s : State) (c : Option BltCursor) :
    (s.setCursor c).cursor = c := rfl
@[simp] theorem State.setCursor_marks (s : State) (c : Option BltCursor) :
    (s.setCursor c).marks = s.marks := rfl
@[simp] theorem State.setCursor_inbox (s : State) (c : Option BltCursor) :
    (s.setCursor c).inbox = s.inbox := rfl
@[simp] theorem State.setCursor_out (s : State) (c : Option BltCursor) :
    (s.setCursor c).out = s.out := rfl
@[simp] theorem State.setCursor_draws (s : State) (c : Option BltCursor) :
    (s.setCursor c).draws = s.draws := rfl

@[simp] theorem State.setInbox_cfg (s : State) (r : List Input) :
    (s.setInbox r).cfg = s.cfg := rfl
@[simp] theorem State.setInbox_tile (s : State) (r : List Input) :
    (s.setInbox r).tile = s.tile := rfl
@[simp] theorem State.setInbox_sprite (s : State) (r : List Input) :
    (s.setInbox r).sprite = s.sprite := rfl
@[simp] theorem State.setInbox_treg (s : State) (r : List Input) :
    (s.setInbox r).treg = s.treg := rfl
@[simp] theorem State.setInbox_sreg (s : State) (r : List Input) :
    (s.setInbox r).sreg = s.sreg := rfl
@[simp] theorem State.setInbox_brt (s : State) (r : List Input) :
    (s.setInbox r).brt = s.brt := rfl
@[simp] theorem State.setInbox_brtCache (s : State) (r : List Input) :
    (s.setInbox r).brtCache = s.brtCache := rfl
@[simp] theorem State.setInbox_contrast (s : State) (r : List Input) :
    (s.setInbox r).contrast = s.contrast := rfl
@[simp] theorem State.setInbox_pal (s : State) (r : List Input) :
    (s.setInbox r).pal = s.pal := rfl
@[simp] theorem State.setInbox_fbLeft (s : State) (r : List Input) :
    (s.setInbox r).fbLeft = s.fbLeft := rfl
@[simp] theorem State.setInbox_fbRight (s : State) (r : List Input) :
    (s.setInbox r).fbRight = s.fbRight := rfl
@[simp] theorem State.setInbox_bltReg (s : State) (r : List Input) :
    (s.setInbox r).bltReg = s.bltReg := rfl
@[simp] theorem State.setInbox_bltPending (s : State) (r : List Input) :
    (s.setInbox r).bltPending = s.bltPending := rfl
@[simp] theorem State.setInbox_cursor (s : State) (r : List Input) :
    (s.setInbox r).cursor = s.cursor := rfl
@[simp] theorem State.setInbox_marks (s : State) (r : List Input) :
    (s.setInbox r).marks = s.marks := rfl
@[simp] theorem State.setInbox_inbox (s : State) (r : List Input) :
    (s.setInbox r).inbox = r := rfl
@[simp] theorem State.setInbox_out (s : State) (r : List Input) :
    (s.setInbox r).out = s.out := rfl
@[simp] theorem State.setInbox_draws (s : State) (r : List Input) :
    (s.setInbox r).draws = s.draws := rfl

@[simp] theorem State.reply_cfg (s : State) (o : Option Output) :
    (s.reply o).cfg = s.cfg := rfl
@[simp] theorem State.reply_tile (s : State) (o : Option Output) :
    (s.reply o).tile = s.tile := rfl
@[simp] theorem State.reply_sprite (s : State) (o : Option Output) :
    (s.reply o).sprite = s.sprite := rfl
@[simp] theorem State.reply_treg (s : State) (o : Option Output) :
    (s.reply o).treg = s.treg := rfl
@[simp] theorem State.reply_sreg (s : State) (o : Option Output) :
    (s.reply o).sreg = s.sreg := rfl
@[simp] theorem State.reply_brt (s : State) (o : Option Output) :
    (s.reply o).brt = s.brt := rfl
@[simp] theorem State.reply_brtCache (s : State) (o : Option Output) :
    (s.reply o).brtCache = s.brtCache := rfl
@[simp] theorem State.reply_contrast (s : State) (o : Option Output) :
    (s.reply o).contrast = s.contrast := rfl
@[simp] theorem State.reply_pal (s : State) (o : Option Output) :
    (s.reply o).pal = s.pal := rfl
@[simp] theorem State.reply_fbLeft (s : State) (o : Option Output) :
    (s.reply o).fbLeft = s.fbLeft := rfl
@[simp] theorem State.reply_fbRight (s : State) (o : Option Output) :
    (s.reply o).fbRight = s.fbRight := rfl
@[simp] theorem State.reply_bltReg (s : State) (o : Option Output) :
    (s.reply o).bltReg = s.bltReg := rfl
@[simp] theorem State.reply_bltPending (s : State) (o : Option Output) :
    (s.reply o).bltPending = s.bltPending := rfl
@[simp] theorem State.reply_cursor (s : State) (o : Option Output) :
    (s.reply o).cursor = s.cursor := rfl
@[simp] theorem State.reply_marks (s : State) (o : Option Output) :
    (s.reply o).marks = s.marks := rfl
@[simp] theorem State.reply_inbox (s : State) (o : Option Output) :
    (s.reply o).inbox = s.inbox := rfl
@[simp] theorem State.reply_out (s : State) (o : Option Output) :
    (s.reply o).out = o := rfl
@[simp] theorem State.reply_draws (s : State) (o : Option Output) :
    (s.reply o).draws = s.draws := rfl

@[simp] theorem State.replyFree_cfg (s : State) :
    (s.replyFree).cfg = s.cfg := rfl
@[simp] theorem State.replyFree_tile (s : State) :
    (s.replyFree).tile = s.tile := rfl
@[simp] theorem State.replyFree_sprite (s : State) :
    (s.replyFree).sprite = s.sprite := rfl
@[simp] theorem State.replyFree_treg (s : State) :
    (s.replyFree).treg = s.treg := rfl
@[simp] theorem State.replyFree_sreg (s : State) :
    (s.replyFree).sreg = s.sreg := rfl
@[simp] theorem State.replyFree_brt (s : State) :
    (s.replyFree).brt = s.brt := rfl
@[simp] theorem State.replyFree_brtCache (s : State) :
    (s.replyFree).brtCache = s.brtCache := rfl
@[simp] theorem State.replyFree_contrast (s : State) :
    (s.replyFree).contrast = s.contrast := rfl
@[simp] theorem State.replyFree_pal (s : State) :
    (s.replyFree).pal = s.pal := rfl
@[simp] theorem State.replyFree_fbLeft (s : State) :
    (s.replyFree).fbLeft = s.fbLeft := rfl
@[simp] theorem State.replyFree_fbRight (s : State) :
    (s.replyFree).fbRight = s.fbRight := rfl
@[simp] theorem State.replyFree_bltReg (s : State) :
    (s.replyFree).bltReg = s.bltReg := rfl
@[simp] theorem State.replyFree_bltPending (s : State) :
    (s.replyFree).bltPending = s.bltPending := rfl
@[simp] theorem State.replyFree_cursor (s : State) :
    (s.replyFree).cursor = s.cursor := rfl
@[simp] theorem State.replyFree_marks (s : State) :
    (s.replyFree).marks = s.marks := rfl
@[simp] theorem State.replyFree_inbox (s : State) :
    (s.replyFree).inbox = s.inbox := rfl
@[simp] theorem State.replyFree_out (s : State) :
    (s.replyFree).out = some (.word (Config.freeWord s.draws)) := rfl
@[simp] theorem State.replyFree_draws (s : State) :
    (s.replyFree).draws = s.draws + 1 := rfl

@[simp] theorem State.setFb_cfg (s : State) (scr : Screen) (f : Frame) :
    (s.setFb scr f).cfg = s.cfg := by cases scr <;> rfl
@[simp] theorem State.setFb_tile (s : State) (scr : Screen) (f : Frame) :
    (s.setFb scr f).tile = s.tile := by cases scr <;> rfl
@[simp] theorem State.setFb_sprite (s : State) (scr : Screen) (f : Frame) :
    (s.setFb scr f).sprite = s.sprite := by cases scr <;> rfl
@[simp] theorem State.setFb_treg (s : State) (scr : Screen) (f : Frame) :
    (s.setFb scr f).treg = s.treg := by cases scr <;> rfl
@[simp] theorem State.setFb_sreg (s : State) (scr : Screen) (f : Frame) :
    (s.setFb scr f).sreg = s.sreg := by cases scr <;> rfl
@[simp] theorem State.setFb_brt (s : State) (scr : Screen) (f : Frame) :
    (s.setFb scr f).brt = s.brt := by cases scr <;> rfl
@[simp] theorem State.setFb_brtCache (s : State) (scr : Screen) (f : Frame) :
    (s.setFb scr f).brtCache = s.brtCache := by cases scr <;> rfl
@[simp] theorem State.setFb_contrast (s : State) (scr : Screen) (f : Frame) :
    (s.setFb scr f).contrast = s.contrast := by cases scr <;> rfl
@[simp] theorem State.setFb_pal (s : State) (scr : Screen) (f : Frame) :
    (s.setFb scr f).pal = s.pal := by cases scr <;> rfl
@[simp] theorem State.setFb_bltReg (s : State) (scr : Screen) (f : Frame) :
    (s.setFb scr f).bltReg = s.bltReg := by cases scr <;> rfl
@[simp] theorem State.setFb_bltPending (s : State) (scr : Screen) (f : Frame) :
    (s.setFb scr f).bltPending = s.bltPending := by cases scr <;> rfl
@[simp] theorem State.setFb_cursor (s : State) (scr : Screen) (f : Frame) :
    (s.setFb scr f).cursor = s.cursor := by cases scr <;> rfl
@[simp] theorem State.setFb_marks (s : State) (scr : Screen) (f : Frame) :
    (s.setFb scr f).marks = s.marks := by cases scr <;> rfl
@[simp] theorem State.setFb_inbox (s : State) (scr : Screen) (f : Frame) :
    (s.setFb scr f).inbox = s.inbox := by cases scr <;> rfl
@[simp] theorem State.setFb_out (s : State) (scr : Screen) (f : Frame) :
    (s.setFb scr f).out = s.out := by cases scr <;> rfl
@[simp] theorem State.setFb_draws (s : State) (scr : Screen) (f : Frame) :
    (s.setFb scr f).draws = s.draws := by cases scr <;> rfl

@[simp] theorem State.setFb_left_fbLeft (s : State) (f : Frame) :
    (s.setFb .left f).fbLeft = f := rfl
@[simp] theorem State.setFb_left_fbRight (s : State) (f : Frame) :
    (s.setFb .left f).fbRight = s.fbRight := rfl
@[simp] theorem State.setFb_right_fbRight (s : State) (f : Frame) :
    (s.setFb .right f).fbRight = f := rfl
@[simp] theorem State.setFb_right_fbLeft (s : State) (f : Frame) :
    (s.setFb .right f).fbLeft = s.fbLeft := rfl
@[simp] theorem State.setFb_fb_self (s : State) (scr : Screen) (f : Frame) :
    (s.setFb scr f).fb scr = f := by cases scr <;> rfl
@[simp] theorem State.reply_fb (s : State) (o : Option Output) (scr : Screen) :
    (s.reply o).fb scr = s.fb scr := by cases scr <;> rfl

/-! ## Banked registers -/

@[simp] theorem quad_setQuad_self {α : Type} (v : Vector α 4) (b : BitVec 2) (x : α) :
    quad (setQuad v b x) b = x := by
  simp [quad, setQuad]

theorem quad_setQuad_ne {α : Type} (v : Vector α 4) {b b' : BitVec 2} (x : α) (h : b' ≠ b) :
    quad (setQuad v b x) b' = quad v b' := by
  have hne : b.toNat ≠ b'.toNat := fun e => h (BitVec.eq_of_toNat_eq e.symm)
  simp [quad, setQuad, hne]

@[simp] theorem pair_setPair_self {α : Type} (v : Vector α 2) (b : BitVec 1) (x : α) :
    pair (setPair v b x) b = x := by
  simp [pair, setPair]

theorem pair_setPair_ne {α : Type} (v : Vector α 2) {b b' : BitVec 1} (x : α) (h : b' ≠ b) :
    pair (setPair v b x) b' = pair v b' := by
  have hne : b.toNat ≠ b'.toNat := fun e => h (BitVec.eq_of_toNat_eq e.symm)
  simp [pair, setPair, hne]

/-- A property of all four elements is a property of each bank. -/
theorem all_quad {α : Type} (p : α → Bool) (v : Vector α 4) :
    v.all p = true ↔ ∀ b, p (quad v b) = true := by
  rw [Vector.all_eq_true]
  constructor
  · intro h b
    exact h b.toNat b.isLt
  · intro h i hi
    have := h (BitVec.ofNat 2 i)
    simpa [quad, Nat.mod_eq_of_lt hi] using this

/-- Replacing one bank keeps a property of all four, if the new bank has it. -/
theorem all_setQuad {α : Type} {p : α → Bool} {v : Vector α 4} {b : BitVec 2} {x : α}
    (h : v.all p = true) (hx : p x = true) : (setQuad v b x).all p = true := by
  rw [all_quad] at h ⊢
  intro b'
  by_cases e : b' = b
  · subst e; simpa using hx
  · rw [quad_setQuad_ne v x e]; exact h b'

end Sys2Proof.Machine
end

