-- ==== Sys2Proof/Laws/Cells.lean ====
section
/-! SUPPORT. The laws of cells: a read after a write, and that every operation keeps the canonical
form. Reads after writes hold for every list; the canonical form is needed only for equality. -/

namespace Sys2Proof.Machine

variable {β : Type}

@[simp] theorem cellGet_nil (d : β) (a : Nat) : cellGet d [] a = d := rfl

theorem cellGet_insert_self (d : β) (m : List (Nat × β)) (a : Nat) (v : β) :
    cellGet d (cellInsert m a v) a = v := by
  induction m with
  | nil => simp [cellInsert, cellGet]
  | cons e m ih =>
    obtain ⟨k, u⟩ := e
    unfold cellInsert
    split
    · simp [cellGet]
    · split
      · simp [cellGet]
      · next h => simp [cellGet, h, ih]

theorem cellGet_insert_ne (d : β) (m : List (Nat × β)) {a a' : Nat} (v : β) (h : a' ≠ a) :
    cellGet d (cellInsert m a v) a' = cellGet d m a' := by
  have h' : a ≠ a' := Ne.symm h
  induction m with
  | nil => simp [cellInsert, cellGet, h']
  | cons e m ih =>
    obtain ⟨k, u⟩ := e
    unfold cellInsert
    split
    · simp [cellGet, h']
    · split
      · next hk => subst hk; simp [cellGet, h']
      · simp [cellGet, ih]

theorem cellGet_erase_self (d : β) (m : List (Nat × β)) (a : Nat) :
    cellGet d (cellErase m a) a = d := by
  induction m with
  | nil => rfl
  | cons e m ih =>
    obtain ⟨k, u⟩ := e
    unfold cellErase
    split
    · exact ih
    · next h => simp [cellGet, h, ih]

theorem cellGet_erase_ne (d : β) (m : List (Nat × β)) {a a' : Nat} (h : a' ≠ a) :
    cellGet d (cellErase m a) a' = cellGet d m a' := by
  have h' : a ≠ a' := Ne.symm h
  induction m with
  | nil => rfl
  | cons e m ih =>
    obtain ⟨k, u⟩ := e
    unfold cellErase
    split
    · next hk => subst hk; simp [cellGet, h', ih]
    · simp [cellGet, ih]

theorem mem_cellErase {m : List (Nat × β)} {a : Nat} {e : Nat × β} (h : e ∈ cellErase m a) :
    e ∈ m := by
  induction m with
  | nil => simp [cellErase] at h
  | cons e' m ih =>
    obtain ⟨k, u⟩ := e'
    unfold cellErase at h
    split at h
    · exact List.mem_cons_of_mem _ (ih h)
    · rcases List.mem_cons.1 h with rfl | h
      · simp
      · exact List.mem_cons_of_mem _ (ih h)

theorem mem_cellInsert {m : List (Nat × β)} {a : Nat} {v : β} {e : Nat × β}
    (h : e ∈ cellInsert m a v) : e = (a, v) ∨ e ∈ m := by
  induction m with
  | nil => simpa [cellInsert] using h
  | cons e' m ih =>
    obtain ⟨k, u⟩ := e'
    unfold cellInsert at h
    split at h
    · simpa using h
    · split at h
      · rcases List.mem_cons.1 h with rfl | h
        · simp
        · exact .inr (List.mem_cons_of_mem _ h)
      · rcases List.mem_cons.1 h with rfl | h
        · simp
        · rcases ih h with h | h
          · exact .inl h
          · exact .inr (List.mem_cons_of_mem _ h)

section
variable [DecidableEq β]

@[simp] theorem cellGet_set_self (d : β) (m : List (Nat × β)) (a : Nat) (v : β) :
    cellGet d (cellSet d m a v) a = v := by
  unfold cellSet
  split
  · next h => rw [cellGet_erase_self, h]
  · exact cellGet_insert_self d m a v

theorem cellGet_set_ne (d : β) (m : List (Nat × β)) {a a' : Nat} (v : β) (h : a' ≠ a) :
    cellGet d (cellSet d m a v) a' = cellGet d m a' := by
  unfold cellSet
  split
  · exact cellGet_erase_ne d m h
  · exact cellGet_insert_ne d m v h

/-- What a canonical list with a head is: the head is no default, its address is below every later
one, and the tail is canonical. -/
theorem cellsWf_cons (d : β) (k : Nat) (v : β) (m : List (Nat × β)) :
    cellsWf d ((k, v) :: m) = true ↔
      v ≠ d ∧ (∀ e ∈ m, k < e.1) ∧ cellsWf d m = true := by
  induction m generalizing k v with
  | nil => simp [cellsWf]
  | cons e m ih =>
    obtain ⟨k', v'⟩ := e
    have hrest := ih k' v'
    constructor
    · intro h
      have h' : (v ≠ d ∧ k < k') ∧ cellsWf d ((k', v') :: m) = true := by
        simpa [cellsWf, and_assoc] using h
      obtain ⟨⟨hv, hk⟩, hm⟩ := h'
      refine ⟨hv, ?_, hm⟩
      intro e he
      rcases List.mem_cons.1 he with rfl | he
      · exact hk
      · exact Nat.lt_trans hk ((hrest.1 hm).2.1 e he)
    · rintro ⟨hv, hlt, hm⟩
      have hk : k < k' := hlt (k', v') (by simp)
      simp [cellsWf, hv, hk, hm]

theorem cellErase_wf {d : β} {m : List (Nat × β)} (a : Nat) (h : cellsWf d m = true) :
    cellsWf d (cellErase m a) = true := by
  induction m with
  | nil => exact h
  | cons e m ih =>
    obtain ⟨k, u⟩ := e
    obtain ⟨hu, hlt, hm⟩ := (cellsWf_cons d k u m).1 h
    unfold cellErase
    split
    · exact ih hm
    · exact (cellsWf_cons d k u _).2 ⟨hu, fun e he => hlt e (mem_cellErase he), ih hm⟩

theorem cellInsert_wf {d : β} {m : List (Nat × β)} (a : Nat) {v : β} (hv : v ≠ d)
    (h : cellsWf d m = true) : cellsWf d (cellInsert m a v) = true := by
  induction m with
  | nil => simp [cellInsert, cellsWf, hv]
  | cons e m ih =>
    obtain ⟨k, u⟩ := e
    obtain ⟨hu, hlt, hm⟩ := (cellsWf_cons d k u m).1 h
    unfold cellInsert
    split
    · next hak =>
      refine (cellsWf_cons d a v _).2 ⟨hv, ?_, h⟩
      intro e he
      rcases List.mem_cons.1 he with rfl | he
      · exact hak
      · exact Nat.lt_trans hak (hlt e he)
    · next hak =>
      split
      · next hk => subst hk; exact (cellsWf_cons d k v m).2 ⟨hv, hlt, hm⟩
      · next hk =>
        refine (cellsWf_cons d k u _).2 ⟨hu, ?_, ih hm⟩
        intro e he
        rcases mem_cellInsert he with rfl | he
        · exact Nat.lt_of_le_of_ne (Nat.le_of_not_lt hak) hk
        · exact hlt e he

/-- Every write keeps the canonical form. -/
theorem cellSet_wf {d : β} {m : List (Nat × β)} (a : Nat) (v : β) (h : cellsWf d m = true) :
    cellsWf d (cellSet d m a v) = true := by
  unfold cellSet
  split
  · exact cellErase_wf a h
  · next hv => exact cellInsert_wf a hv h

/-- What a write can list: the cell written, if it holds no default, and cells listed before. -/
theorem mem_cellSet {d : β} {m : List (Nat × β)} {a : Nat} {v : β} {e : Nat × β}
    (h : e ∈ cellSet d m a v) : (e = (a, v) ∧ v ≠ d) ∨ e ∈ m := by
  unfold cellSet at h
  split at h
  · exact .inr (mem_cellErase h)
  · next hv =>
    rcases mem_cellInsert h with h | h
    · exact .inl ⟨h, hv⟩
    · exact .inr h

/-- A write below the bound keeps the bound. -/
theorem cellSet_below {d : β} {m : List (Nat × β)} {n a : Nat} (v : β)
    (h : cellsBelow n m = true) (ha : a < n) : cellsBelow n (cellSet d m a v) = true := by
  simp only [cellsBelow, List.all_eq_true, decide_eq_true_eq] at h ⊢
  intro e he
  rcases mem_cellSet he with ⟨rfl, _⟩ | he
  · exact ha
  · exact h e he

end

theorem cellsBelow_mono {n n' : Nat} {m : List (Nat × β)} (h : cellsBelow n m = true)
    (hn : n ≤ n') : cellsBelow n' m = true := by
  simp only [cellsBelow, List.all_eq_true, decide_eq_true_eq] at h ⊢
  exact fun e he => Nat.lt_of_lt_of_le (h e he) hn

/-- Past its bound a list reads as the default. -/
theorem cellGet_of_below {d : β} {m : List (Nat × β)} {n a : Nat} (h : cellsBelow n m = true)
    (ha : n ≤ a) : cellGet d m a = d := by
  induction m with
  | nil => rfl
  | cons e m ih =>
    obtain ⟨k, v⟩ := e
    simp only [cellsBelow, List.all_cons, Bool.and_eq_true, decide_eq_true_eq] at h
    have : k ≠ a := by omega
    simp [cellGet, this, ih h.2]

/-- Two canonical lists that read alike are equal. -/
theorem cells_ext [DecidableEq β] {d : β} {m n : List (Nat × β)} (hm : cellsWf d m = true)
    (hn : cellsWf d n = true) (h : ∀ a, cellGet d m a = cellGet d n a) : m = n := by
  have absent : ∀ (l : List (Nat × β)) (a : Nat), (∀ e ∈ l, a < e.1) → cellGet d l a = d := by
    intro l a hl
    induction l with
    | nil => rfl
    | cons e l ih =>
      obtain ⟨k, v⟩ := e
      have hk : a < k := hl (k, v) (by simp)
      have : k ≠ a := by omega
      simp only [cellGet, this, if_false]
      exact ih fun e he => hl e (List.mem_cons_of_mem _ he)
  induction m generalizing n with
  | nil =>
    cases n with
    | nil => rfl
    | cons e n =>
      obtain ⟨k, v⟩ := e
      have hv := ((cellsWf_cons d k v n).1 hn).1
      have := h k
      simp [cellGet] at this
      exact absurd this.symm hv
  | cons e m ih =>
    obtain ⟨k, v⟩ := e
    obtain ⟨hv, hlt, hm'⟩ := (cellsWf_cons d k v m).1 hm
    cases n with
    | nil =>
      have := h k
      simp [cellGet] at this
      exact absurd this hv
    | cons e' n =>
      obtain ⟨k', v'⟩ := e'
      obtain ⟨hv', hlt', hn'⟩ := (cellsWf_cons d k' v' n).1 hn
      have hkk : k = k' := by
        rcases Nat.lt_trichotomy k k' with hk | hk | hk
        · have h1 := h k
          rw [absent ((k', v') :: n) k (by
            intro e he
            rcases List.mem_cons.1 he with rfl | he
            · exact hk
            · exact Nat.lt_trans hk (hlt' e he))] at h1
          simp [cellGet] at h1
          exact absurd h1 hv
        · exact hk
        · have h1 := h k'
          rw [absent ((k, v) :: m) k' (by
            intro e he
            rcases List.mem_cons.1 he with rfl | he
            · exact hk
            · exact Nat.lt_trans hk (hlt e he))] at h1
          simp [cellGet] at h1
          exact absurd h1.symm hv'
      subst hkk
      have hvv : v = v' := by simpa [cellGet] using h k
      subst hvv
      have hrest : ∀ a, cellGet d m a = cellGet d n a := by
        intro a
        by_cases ha : k = a
        · subst ha
          rw [absent m k hlt, absent n k hlt']
        · simpa [cellGet, ha] using h a
      rw [ih hm' hn' hrest]

end Sys2Proof.Machine
end

