-- ==== Sys2Proof/Laws/Store.lean ====
section
/-! SUPPORT. The laws of word arrays: lanes, words, masked writes (00_scope.md R13; 40_bus_access.md
R89), the canonical form and the bound. -/

namespace Sys2Proof.Machine

/-! ## Lanes of a word -/

/-- Lane `k` of a word (00_scope.md R11). -/
def laneOfWord (w : Word) (k : Nat) : Byte :=
  w.extractLsb' (8 * k) 8

theorem word_ext_lanes {v w : Word} (h : ∀ k, k < 4 → laneOfWord v k = laneOfWord w k) : v = w := by
  apply BitVec.eq_of_getLsbD_eq
  intro i hi
  have hk : i / 8 < 4 := by omega
  have := congrArg (fun b : Byte => b.getLsbD (i % 8)) (h (i / 8) hk)
  simp only [laneOfWord, BitVec.getLsbD_extractLsb'] at this
  have h8 : i % 8 < 8 := Nat.mod_lt _ (by decide)
  have hi' : 8 * (i / 8) + i % 8 = i := Nat.div_add_mod i 8
  simpa [h8, hi'] using this

theorem laneOfWord_append (b3 b2 b1 b0 : Byte) (k : Nat) (hk : k < 4) :
    laneOfWord (b3 ++ b2 ++ b1 ++ b0) k
      = (if k = 0 then b0 else if k = 1 then b1 else if k = 2 then b2 else b3) := by
  have : k = 0 ∨ k = 1 ∨ k = 2 ∨ k = 3 := by omega
  rcases this with rfl | rfl | rfl | rfl <;>
  · apply BitVec.eq_of_getLsbD_eq
    intro i hi
    simp only [laneOfWord, BitVec.getLsbD_extractLsb', BitVec.getLsbD_append, hi, decide_true,
      Bool.true_and]
    simp
    (repeat' split) <;> first | omega | (congr 1; omega)

@[simp] theorem laneOfWord_storeWord (m : Store) (i k : Nat) (hk : k < 4) :
    laneOfWord (storeWord m i) k = storeLane m i k := by
  unfold storeWord
  rw [laneOfWord_append _ _ _ _ k hk]
  have : k = 0 ∨ k = 1 ∨ k = 2 ∨ k = 3 := by omega
  rcases this with rfl | rfl | rfl | rfl <;> simp

@[simp] theorem storeLane_nil (i k : Nat) : storeLane [] i k = 0 := rfl

@[simp] theorem storeWord_nil (i : Nat) : storeWord [] i = 0 := by
  simp [storeWord]

/-! ## Writing a word -/

/-- Every lane after a word is put: the word's own lanes are the written ones, all others stay. -/
theorem storeLane_put (m : Store) (i : Nat) (w : Word) (j k : Nat) (hk : k < 4) :
    storeLane (storePut m i w) j k = if j = i then laneOfWord w k else storeLane m j k := by
  unfold storePut storeLane
  by_cases hj : j = i
  · subst hj
    have : k = 0 ∨ k = 1 ∨ k = 2 ∨ k = 3 := by omega
    rcases this with rfl | rfl | rfl | rfl
    · rw [cellGet_set_ne _ _ _ (by omega), cellGet_set_ne _ _ _ (by omega),
        cellGet_set_ne _ _ _ (by omega)]
      simp [laneOfWord]
    · rw [cellGet_set_ne _ _ _ (by omega), cellGet_set_ne _ _ _ (by omega)]
      simp [laneOfWord]
    · rw [cellGet_set_ne _ _ _ (by omega)]
      simp [laneOfWord]
    · simp [laneOfWord]
  · rw [cellGet_set_ne _ _ _ (by omega), cellGet_set_ne _ _ _ (by omega),
      cellGet_set_ne _ _ _ (by omega), cellGet_set_ne _ _ _ (by omega)]
    simp [hj]

@[simp] theorem storeWord_put_self (m : Store) (i : Nat) (w : Word) :
    storeWord (storePut m i w) i = w := by
  apply word_ext_lanes
  intro k hk
  rw [laneOfWord_storeWord _ _ _ hk, storeLane_put _ _ _ _ _ hk, if_pos rfl]

theorem storeWord_put_ne (m : Store) {i j : Nat} (w : Word) (h : j ≠ i) :
    storeWord (storePut m i w) j = storeWord m j := by
  apply word_ext_lanes
  intro k hk
  rw [laneOfWord_storeWord _ _ _ hk, laneOfWord_storeWord _ _ _ hk, storeLane_put _ _ _ _ _ hk,
    if_neg h]

theorem storePut_wf {m : Store} (i : Nat) (w : Word) (h : m.wf = true) :
    (storePut m i w).wf = true := by
  unfold storePut Store.wf at *
  exact cellSet_wf _ _ (cellSet_wf _ _ (cellSet_wf _ _ (cellSet_wf _ _ h)))

theorem storePut_below {m : Store} {n i : Nat} (w : Word) (h : storeBelow n m = true) (hi : i < n) :
    storeBelow n (storePut m i w) = true := by
  unfold storePut storeBelow at *
  exact cellSet_below _ (cellSet_below _ (cellSet_below _ (cellSet_below _ h (by omega)) (by omega))
    (by omega)) (by omega)

/-! ## The masked write -/

theorem laneOfWord_and (v w : Word) (k : Nat) :
    laneOfWord (v &&& w) k = laneOfWord v k &&& laneOfWord w k := by
  apply BitVec.eq_of_getLsbD_eq
  intro i hi
  simp [laneOfWord, hi]

theorem laneOfWord_or (v w : Word) (k : Nat) :
    laneOfWord (v ||| w) k = laneOfWord v k ||| laneOfWord w k := by
  apply BitVec.eq_of_getLsbD_eq
  intro i hi
  simp [laneOfWord, hi]

theorem laneOfWord_not (w : Word) (k : Nat) (hk : k < 4) :
    laneOfWord (~~~w) k = ~~~(laneOfWord w k) := by
  apply BitVec.eq_of_getLsbD_eq
  intro i hi
  have : 8 * k + i < 32 := by omega
  simp [laneOfWord, hi, this]

theorem laneOfWord_lanes (be : Lanes) (k : Nat) (hk : k < 4) :
    laneOfWord (lanes be) k = laneMask (be.getLsbD k) := by
  unfold lanes
  rw [laneOfWord_append _ _ _ _ k hk]
  have : k = 0 ∨ k = 1 ∨ k = 2 ∨ k = 3 := by omega
  rcases this with rfl | rfl | rfl | rfl <;> simp

/-- The lanes of a merge: the enabled ones are the data's, the others the old word's. -/
theorem laneOfWord_merge (old data : Word) (be : Lanes) (k : Nat) (hk : k < 4) :
    laneOfWord (merge old data be) k
      = if be.getLsbD k then laneOfWord data k else laneOfWord old k := by
  unfold merge
  rw [laneOfWord_or, laneOfWord_and, laneOfWord_and, laneOfWord_not _ _ hk, laneOfWord_lanes _ _ hk]
  cases be.getLsbD k <;> simp [laneMask] <;>
  · apply BitVec.eq_of_getLsbD_eq
    intro i hi
    have : i = 0 ∨ i = 1 ∨ i = 2 ∨ i = 3 ∨ i = 4 ∨ i = 5 ∨ i = 6 ∨ i = 7 := by omega
    rcases this with rfl | rfl | rfl | rfl | rfl | rfl | rfl | rfl <;> simp

/-- Of two merges under the same lanes the second alone counts. -/
theorem merge_over (old data data' : Word) (be : Lanes) :
    merge (merge old data be) data' be = merge old data' be := by
  apply word_ext_lanes
  intro k hk
  simp only [laneOfWord_merge _ _ _ _ hk]
  split <;> rfl

/-- Merging the same data under the same lanes again changes nothing. -/
theorem merge_merge (old data : Word) (be : Lanes) :
    merge (merge old data be) data be = merge old data be :=
  merge_over old data data be

@[simp] theorem storeWord_merge_self (m : Store) (i : Nat) (data : Word) (be : Lanes) :
    storeWord (storeMerge m i data be) i = merge (storeWord m i) data be := by
  unfold storeMerge
  simp

theorem storeWord_merge_ne (m : Store) {i j : Nat} (data : Word) (be : Lanes) (h : j ≠ i) :
    storeWord (storeMerge m i data be) j = storeWord m j :=
  storeWord_put_ne m _ h

theorem storeMerge_wf {m : Store} (i : Nat) (data : Word) (be : Lanes) (h : m.wf = true) :
    (storeMerge m i data be).wf = true :=
  storePut_wf i _ h

theorem storeMerge_below {m : Store} {n i : Nat} (data : Word) (be : Lanes)
    (h : storeBelow n m = true) (hi : i < n) : storeBelow n (storeMerge m i data be) = true :=
  storePut_below _ h hi

/-- Two canonical word arrays that hold the same words are equal. -/
theorem store_ext {m n : Store} (hm : m.wf = true) (hn : n.wf = true)
    (h : ∀ i, storeWord m i = storeWord n i) : m = n := by
  refine cells_ext hm hn fun a => ?_
  have hk : a % 4 < 4 := Nat.mod_lt _ (by decide)
  have := congrArg (fun w => laneOfWord w (a % 4)) (h (a / 4))
  simp only [laneOfWord_storeWord _ _ _ hk, storeLane, Nat.div_add_mod] at this
  exact this

/-- Past its size a bounded word array reads zero. -/
theorem storeWord_of_below {m : Store} {n i : Nat} (h : storeBelow n m = true) (hi : n ≤ i) :
    storeWord m i = 0 := by
  apply word_ext_lanes
  intro k hk
  rw [laneOfWord_storeWord _ _ _ hk]
  have : storeLane m i k = 0 := cellGet_of_below h (by omega)
  rw [this]
  simp [laneOfWord]

theorem storeBelow_mono {m : Store} {n n' : Nat} (h : storeBelow n m = true) (hn : n ≤ n') :
    storeBelow n' m = true :=
  cellsBelow_mono h (by omega)

end Sys2Proof.Machine
end

