-- ==== Sys2Proof/Laws/Blitter.lean ====
section
/-! SUPPORT. What the shared operations of the blitter do (48_blitter_optional.md R132 to R139). -/

namespace Sys2Proof.Machine

/-! ## Half-word writes -/

/-- All `writeHalf` can do: one masked write inside the bank, the column moved; or nothing, and the
fault (R134). -/
theorem writeHalf_cases (c : Config) (h : Half) (bank : Store) (cur : BltCursor) :
    (cur.lineBase + cur.col.toNat < tileBankWords ∧
      writeHalf c h bank cur =
        .ok (storeMerge bank (cur.lineBase + cur.col.toNat) (h ++ h) (halfLanes c cur.odd),
          { cur with col := cur.col + 1 })) ∨
    (tileBankWords ≤ cur.lineBase + cur.col.toNat ∧
      writeHalf c h bank cur =
        .error ⟨.fault (.bltDestOutOfRange cur.tm (cur.lineBase + cur.col.toNat)), (bank, cur)⟩) := by
  unfold writeHalf
  simp only
  split
  · next hle => exact .inr ⟨hle, rfl⟩
  · next hlt => exact .inl ⟨by omega, rfl⟩

/-- A bank property every masked write inside the bank keeps. -/
def HalfStable (P : Store → Prop) : Prop :=
  ∀ bank idx data be, idx < tileBankWords → P bank → P (storeMerge bank idx data be)

theorem halfStable_wf : HalfStable fun m => m.wf = true :=
  fun _ _ _ _ _ h => storeMerge_wf _ _ _ h

theorem halfStable_below : HalfStable fun m => storeBelow tileBankWords m = true :=
  fun _ _ _ _ hi h => storeMerge_below _ _ h hi

/-- What a run of half-word writes does to the cursor: only the column moves. -/
def SameLine (cur cur' : BltCursor) : Prop :=
  cur' = { cur with col := cur'.col }

/-- What the loop of COPY leaves, complete or not: a bank changed by masked writes, the column moved. -/
theorem copyHalves_keeps {P : Store → Prop} (hP : HalfStable P) (c : Config) (n p : Nat)
    {bank : Store} (cur : BltCursor) (hb : P bank) :
    P (leftBy (copyHalves c n p bank cur)).1 ∧
      SameLine cur (leftBy (copyHalves c n p bank cur)).2 := by
  induction n generalizing p bank cur with
  | zero => exact ⟨hb, rfl⟩
  | succ n ih =>
    unfold copyHalves
    split
    · exact ⟨hb, rfl⟩
    split
    · exact ⟨hb, rfl⟩
    next hi _ _ lo _ =>
    rcases writeHalf_cases c (hi ++ lo) bank cur with ⟨hlt, hw⟩ | ⟨_, hw⟩ <;> rw [hw]
    · obtain ⟨h1, h2⟩ := ih (p + 2) { cur with col := cur.col + 1 }
        (hP _ _ (hi ++ lo ++ (hi ++ lo)) (halfLanes c cur.odd) hlt hb)
      exact ⟨h1, h2⟩
    · exact ⟨hb, rfl⟩

/-- What the loop of FILL leaves, complete or not. -/
theorem fillHalves_keeps {P : Store → Prop} (hP : HalfStable P) (c : Config) (v : Half) (n : Nat)
    {bank : Store} (cur : BltCursor) (hb : P bank) :
    P (leftBy (fillHalves c v n bank cur)).1 ∧
      SameLine cur (leftBy (fillHalves c v n bank cur)).2 := by
  induction n generalizing bank cur with
  | zero => exact ⟨hb, rfl⟩
  | succ n ih =>
    unfold fillHalves
    rcases writeHalf_cases c v bank cur with ⟨hlt, hw⟩ | ⟨_, hw⟩ <;> rw [hw]
    · obtain ⟨h1, h2⟩ := ih { cur with col := cur.col + 1 }
        (hP _ _ (v ++ v) (halfLanes c cur.odd) hlt hb)
      exact ⟨h1, h2⟩
    · exact ⟨hb, rfl⟩

/-! ## Commands -/

theorem atCursor_none {s : State} (f : BltCursor → Run State) (h : s.cursor = none) :
    atCursor s f = .ok (s.reply none) := by
  unfold atCursor; rw [h]

theorem atCursor_some {s : State} {cur : BltCursor} (f : BltCursor → Run State)
    (h : s.cursor = some cur) : atCursor s f = f cur := by
  unfold atCursor; rw [h]

/-- The fields a command can change, whatever it is (R132). -/
def BlitFields (s t : State) : Prop :=
  t = { s with tile := t.tile, cursor := t.cursor, bltPending := t.bltPending, out := t.out }

theorem BlitFields.rfl' (s : State) : BlitFields s s := rfl

theorem BlitFields.trans' {s t u : State} (h : BlitFields s t) (h' : BlitFields t u) :
    BlitFields s u := by
  unfold BlitFields at *
  rw [h', h]

/-- What a command leaves at the cursor of a running blit, complete or not (60_exceptions.md R144). -/
structure CmdLeaves (P : Store → Prop) (s t : State) (cur : BltCursor) : Prop where
  fields : BlitFields s t
  bank   : ∃ m, t.tile = setQuad s.tile cur.tm m ∧ (P (quad s.tile cur.tm) → P m)

/-- Where a command that completes leaves the blit: ended with a completion pending, or further on in
the stream in the same bank. -/
def CmdMoved (s t : State) (cur : BltCursor) : Prop :=
  t.cursor = none ∧ t.bltPending = true ∨
    t.bltPending = s.bltPending ∧
      ∃ cur', t.cursor = some cur' ∧ cur'.tm = cur.tm ∧ cur.src < cur'.src

@[simp] theorem setQuad_quad {α : Type} (v : Vector α 4) (b : BitVec 2) :
    setQuad v b (quad v b) = v := by
  unfold setQuad quad
  exact Vector.set_getElem_self b.isLt

/-- A state that differs in the cursor, the pending flag and the reply alone is left by a command that
writes nothing. -/
theorem CmdLeaves.noWrite {P : Store → Prop} {s t : State} (cur : BltCursor) (h : BlitFields s t)
    (ht : t.tile = s.tile) : CmdLeaves P s t cur :=
  ⟨h, quad s.tile cur.tm, by rw [ht, setQuad_quad], id⟩

/-- All a writing command can do at a cursor, from what its loop leaves. -/
theorem writeCommand_cases {P : Store → Prop} {s : State} {cur : BltCursor} {amt : Byte}
    {loop : Nat → BltCursor → Run (Store × BltCursor)} {src : Nat → BltCursor → Nat}
    (hc : s.cursor = some cur)
    (hl : ∀ n, (P (quad s.tile cur.tm) → P (leftBy (loop n cur)).1) ∧
      SameLine cur (leftBy (loop n cur)).2)
    (hs : ∀ n, cur.src < src n cur) :
    CmdLeaves P s (leftBy (writeCommand s amt loop src)) cur ∧
      ∀ t, writeCommand s amt loop src = .ok t → CmdMoved s t cur := by
  unfold writeCommand
  rw [atCursor_some _ hc]
  cases halfCount s.cfg amt with
  | error e => exact ⟨CmdLeaves.noWrite cur rfl rfl, fun t h => by cases h⟩
  | ok n =>
    obtain ⟨hP, hcur⟩ := hl n
    simp only
    cases hr : loop n cur with
    | error h =>
      rw [hr] at hP
      exact ⟨⟨rfl, h.left.1, rfl, hP⟩, fun t h => by cases h⟩
    | ok r =>
      rw [hr] at hP hcur
      refine ⟨⟨rfl, r.1, rfl, hP⟩, fun t h => ?_⟩
      cases h
      exact .inr ⟨rfl, _, rfl, by rw [show r.2 = { cur with col := r.2.col } from hcur], hs n⟩

/-- All a command can do at the cursor of a running blit: what it leaves, complete or not, and where it
leaves the blit if it completes (R132). -/
theorem runCmd_cases {P : Store → Prop} (hP : HalfStable P) (cmd : BltCmd) {s : State}
    {cur : BltCursor} (hc : s.cursor = some cur) :
    CmdLeaves P s (leftBy (runCmd cmd s)) cur ∧
      ∀ t, runCmd cmd s = .ok t → CmdMoved s t cur := by
  have hP' : HalfStable fun m => P (quad s.tile cur.tm) → P m :=
    fun _ _ _ _ hi h hb => hP _ _ _ _ hi (h hb)
  cases cmd with
  | endList =>
    rw [show runCmd .endList s = _ from atCursor_some _ hc]
    exact ⟨CmdLeaves.noWrite cur rfl rfl, fun t h => by cases h; exact .inl ⟨rfl, rfl⟩⟩
  | nextline =>
    rw [show runCmd .nextline s = _ from atCursor_some _ hc]
    exact ⟨CmdLeaves.noWrite cur rfl rfl,
      fun t h => by cases h; exact .inr ⟨rfl, _, rfl, rfl, Nat.lt_succ_self _⟩⟩
  | unknown c0 =>
    rw [show runCmd (.unknown c0) s = _ from atCursor_some _ hc]
    exact ⟨CmdLeaves.noWrite cur rfl rfl,
      fun t h => by cases h; exact .inr ⟨rfl, _, rfl, rfl, Nat.lt_succ_self _⟩⟩
  | copy amt =>
    exact writeCommand_cases hc (fun n => copyHalves_keeps hP' _ n _ cur id) fun n => by omega
  | fill amt v =>
    exact writeCommand_cases hc (fun n => fillHalves_keeps hP' _ v n cur id) fun n => by omega

/-- With no blit running a command changes nothing (log 14). -/
theorem runCmd_idle (cmd : BltCmd) {s : State} (hc : s.cursor = none) :
    runCmd cmd s = .ok (s.reply none) := by
  cases cmd <;> exact atCursor_none _ hc

/-! ## A whole blit -/

/-- One command of `RunBlit`. -/
theorem runBlit_step {n : Nat} {s : State} {cur : BltCursor} (hc : s.cursor = some cur) :
    runBlit (n + 1) s =
      match fetchCmd s.cfg cur.src with
      | .error e => .error ⟨e, s⟩
      | .ok cmd =>
        match runCmd cmd s with
        | .ok t    => runBlit n t
        | .error h => .error h := by
  rw [runBlit.eq_def]
  simp only [hc] <;> rfl

theorem runBlit_done {n : Nat} {s : State} (hc : s.cursor = none) : runBlit n s = .ok s := by
  cases n <;> unfold runBlit <;> simp only [hc]

/-- What a whole blit leaves, complete or not (R132; 60_exceptions.md R144): its bank changed by masked
writes. If it completes, one completion is pending and no blit is running (R136). -/
theorem runBlit_cases {P : Store → Prop} (hP : HalfStable P) (n : Nat) {s : State} {cur : BltCursor}
    (hc : s.cursor = some cur) :
    CmdLeaves P s (leftBy (runBlit n s)) cur ∧
      ∀ t, runBlit n s = .ok t → t.cursor = none ∧ t.bltPending = true := by
  induction n generalizing s cur with
  | zero =>
    unfold runBlit
    simp only [hc]
    exact ⟨CmdLeaves.noWrite cur rfl rfl, fun t h => by cases h⟩
  | succ n ih =>
    rw [runBlit_step hc]
    cases fetchCmd s.cfg cur.src with
    | error e => exact ⟨CmdLeaves.noWrite cur rfl rfl, fun t h => by cases h⟩
    | ok cmd =>
      obtain ⟨hl, hm⟩ := runCmd_cases hP cmd hc
      simp only
      cases hr : runCmd cmd s with
      | error h =>
        rw [hr] at hl
        exact ⟨hl, fun t h => by cases h⟩
      | ok u =>
        rw [hr] at hl
        obtain ⟨hf, m, hu, hPm⟩ := hl
        change BlitFields s u at hf
        change u.tile = setQuad s.tile cur.tm m at hu
        rcases hm u hr with ⟨hn, hp⟩ | ⟨_, cur', hcu, htm, _⟩
        · simp only [runBlit_done hn]
          exact ⟨⟨hf, m, hu, hPm⟩, fun t h => by cases h; exact ⟨hn, hp⟩⟩
        · obtain ⟨⟨h1, m', hm', hPm'⟩, h2⟩ := ih hcu
          refine ⟨⟨hf.trans' h1, m', ?_, ?_⟩, h2⟩
          · rw [hm', hu, htm]
            unfold setQuad
            simp
          · intro hb
            apply hPm'
            rw [hu, htm, quad_setQuad_self]
            exact hPm hb

end Sys2Proof.Machine
end

