-- ==== Sys2Proof/Laws/Bus.lean ====
section
/-! SUPPORT. What the shared operations of the bus family do (40_bus_access.md). -/

namespace Sys2Proof.Machine

@[simp] theorem returnWord_eq (s : State) (w : Word) :
    returnWord s w = .next (s.reply (some (.word w))) := rfl

@[simp] theorem returnNothing_eq (s : State) : returnNothing s = .next (s.reply none) := rfl

@[simp] theorem returnFree_eq (s : State) : returnFree s = .next s.replyFree := rfl

/-- Whether a brightness word applies, bit by bit (R86). -/
theorem brightnessApplies_iff {v : Word} {cached : BitVec 4} :
    brightnessApplies v cached = true ↔ v.getLsbD 31 = true ∧ v.extractLsb' 27 4 ≠ cached := by
  unfold brightnessApplies
  rw [Bool.and_eq_true, decide_eq_true_eq]
  exact Iff.rfl

/-- All a brightness word can do: set one bank's contrast and cache to its level, or nothing (R86). -/
theorem applyBrightness_cases (v : Word) (s : State) :
    (brightnessApplies v (pair s.brtCache (brtBank v)) = true ∧
      applyBrightness v s =
        (s.setContrast (brtBank v) (levelNumerator (brtLevel v))).setBrtCache (brtBank v)
          (brtLevel v)) ∨
    (brightnessApplies v (pair s.brtCache (brtBank v)) = false ∧ applyBrightness v s = s) := by
  unfold applyBrightness setContrastLevel
  split
  · next h => exact .inl ⟨h, rfl⟩
  · next h => exact .inr ⟨by simpa using h, rfl⟩

/-- A brightness word changes the contrast and the cache and no other field. -/
theorem applyBrightness_only (v : Word) (s : State) :
    applyBrightness v s = { s with brtCache := (applyBrightness v s).brtCache,
                                   contrast := (applyBrightness v s).contrast } := by
  rcases applyBrightness_cases v s with ⟨_, h⟩ | ⟨_, h⟩
  · rw [h]; rfl
  · rw [h]

/-- A written level is below 16, so it never sets full contrast (43_palette_output.md R119). -/
theorem levelNumerator_lt (level : BitVec 4) : (levelNumerator level).val < 16 :=
  level.isLt

end Sys2Proof.Machine
end

