-- ==== Sys2Proof/Laws/Frame.lean ====
section
/-! SUPPORT. The laws of bitmaps: a pixel after a plot, the cleared bitmap, and that plots keep the
canonical form and stay inside the screen. -/

namespace Sys2Proof.Machine

@[simp] theorem plot_base (f : Frame) (x y : Nat) (p : Pixel) : (plot f x y p).base = f.base := rfl

@[simp] theorem frameAt_plot_self (f : Frame) (x y : Nat) (p : Pixel) :
    frameAt (plot f x y p) x y = p := by
  simp [frameAt, plot]

theorem frameAt_plot_ne (f : Frame) {x y x' y' : Nat} (p : Pixel) (h : ¬(x' = x ∧ y' = y)) :
    frameAt (plot f x y p) x' y' = frameAt f x' y' := by
  unfold frameAt plot
  by_cases hy : y' = y
  · subst hy
    have hx : x' ≠ x := fun e => h ⟨e, rfl⟩
    simp only [cellGet_set_self]
    exact cellGet_set_ne _ _ _ hx
  · simp only [cellGet_set_ne _ _ _ hy]

@[simp] theorem frameAt_cleared (x y : Nat) : frameAt clearedFrame x y = .black := rfl

@[simp] theorem frameAt_blank (x y : Nat) : frameAt blankFrame x y = .undef := rfl

theorem cellGet_all {β : Type} {d : β} {P : β → Bool} {m : List (Nat × β)} (hd : P d = true)
    (h : (m.all fun r => P r.2) = true) (a : Nat) : P (cellGet d m a) = true := by
  induction m with
  | nil => exact hd
  | cons e m ih =>
    obtain ⟨k, v⟩ := e
    simp only [List.all_cons, Bool.and_eq_true] at h
    unfold cellGet
    split
    · exact h.1
    · exact ih h.2

theorem all_cellSet {β : Type} [DecidableEq β] {d : β} {P : β → Bool} {m : List (Nat × β)}
    (a : Nat) {v : β} (hv : P v = true) (h : (m.all fun r => P r.2) = true) :
    ((cellSet d m a v).all fun r => P r.2) = true := by
  simp only [List.all_eq_true] at h ⊢
  intro e he
  rcases mem_cellSet he with ⟨rfl, _⟩ | he
  · exact hv
  · exact h e he

theorem plot_wf {f : Frame} (x y : Nat) (p : Pixel) (h : f.wf = true) :
    (plot f x y p).wf = true := by
  unfold Frame.wf at *
  simp only [Bool.and_eq_true] at h ⊢
  refine ⟨cellSet_wf _ _ h.1, ?_⟩
  exact all_cellSet (P := fun r => cellsWf f.base r) y
    (cellSet_wf _ _ (cellGet_all (P := fun r => cellsWf f.base r) rfl h.2 y)) h.2

theorem plot_within {f : Frame} {w h x y : Nat} (p : Pixel) (hf : frameWithin w h f = true)
    (hx : x < w) (hy : y < h) : frameWithin w h (plot f x y p) = true := by
  unfold frameWithin at *
  simp only [Bool.and_eq_true] at hf ⊢
  refine ⟨cellSet_below _ hf.1 hy, ?_⟩
  exact all_cellSet (P := fun r => cellsBelow w r) y
    (cellSet_below _ (cellGet_all (P := fun r => cellsBelow w r) rfl hf.2 y) hx) hf.2

end Sys2Proof.Machine
end

