-- ==== Sys2Proof/Laws/Draw.lean ====
section
/-! SUPPORT. What a raster of guarded plots does, once, for cells and sprites: which pixels it
changes, when it completes, and what property of bitmaps it keeps. -/

namespace Sys2Proof.Machine

/-! ## Clip tests -/

theorem insideInclusive_iff (c : Config) (x y : Int) :
    insideInclusive c x y = true ↔ (0 ≤ x ∧ x < c.screenW) ∧ (0 ≤ y ∧ y < c.screenH) := by
  simp only [insideInclusive, Bool.and_eq_true, decide_eq_true_eq]
  unfold clipMaxX clipMaxY
  omega

theorem insideExclusive_iff (c : Config) (x y : Int) :
    insideExclusive c x y = true ↔
      (0 < x ∧ x + 1 < c.screenW) ∧ (0 < y ∧ y + 1 < c.screenH) := by
  simp only [insideExclusive, Bool.and_eq_true, decide_eq_true_eq]
  unfold clipMaxX clipMaxY
  omega

/-- Both clip tests keep a pixel on the screen. -/
theorem tileInside_onScreen {c : Config} {x y : Int} (h : tileInside c x y = true) :
    (0 ≤ x ∧ x < c.screenW) ∧ (0 ≤ y ∧ y < c.screenH) := by
  unfold tileInside at h
  split at h
  · have := (insideExclusive_iff c x y).1 h
    omega
  · exact (insideInclusive_iff c x y).1 h

theorem spriteInside_onScreen {c : Config} {x y : Int} (h : spriteInside c x y = true) :
    (0 ≤ x ∧ x < c.screenW) ∧ (0 ≤ y ∧ y < c.screenH) :=
  (insideInclusive_iff c x y).1 h

/-- No pixel of a square wholly outside the clip rectangle is on the screen. -/
theorem squareOutside_offScreen {c : Config} {x y : Int} {n : Nat}
    (h : squareOutside c x y n = true) {px py : Nat} (hx : px < n) (hy : py < n) :
    ¬((0 ≤ x + px ∧ x + px < c.screenW) ∧ (0 ≤ y + py ∧ y + py < c.screenH)) := by
  simp only [squareOutside, Bool.or_eq_true, decide_eq_true_eq] at h
  unfold clipMaxX clipMaxY at h
  omega

/-! ## Folds that can stop -/

theorem foldlM_nil_ok {α β ε : Type} (g : α → β → Except ε α) (a : α) :
    [].foldlM g a = .ok a := rfl

theorem foldlM_cons_eq {α β ε : Type} (g : α → β → Except ε α) (a : α) (b : β) (l : List β) :
    (b :: l).foldlM g a = match g a b with
      | .error e => .error e
      | .ok a'   => l.foldlM g a' := by
  rw [List.foldlM_cons]
  cases g a b <;> rfl

/-- What every step keeps of what it leaves, the whole fold keeps, whether it completes or stops. -/
theorem foldlM_keeps {α β : Type} {P : α → Prop} {g : α → β → Except (Halt α) α} {l : List β}
    (hg : ∀ a b, b ∈ l → P a → P (leftBy (g a b))) {a : α} (ha : P a) :
    P (leftBy (l.foldlM (m := Except (Halt α)) g a)) := by
  induction l generalizing a with
  | nil => exact ha
  | cons b l ih =>
    have hb := hg a b (by simp) ha
    rw [foldlM_cons_eq]
    cases h : g a b with
    | error e => rw [h] at hb; exact hb
    | ok a1 =>
      rw [h] at hb
      exact ih (fun a b hb' => hg a b (List.mem_cons_of_mem _ hb')) hb

/-- A fold whose steps all complete completes. -/
theorem foldlM_completes {α β ε : Type} {g : α → β → Except ε α} {l : List β}
    (hg : ∀ a b, b ∈ l → ∃ a', g a b = .ok a') (a : α) : ∃ a', l.foldlM g a = .ok a' := by
  induction l generalizing a with
  | nil => exact ⟨a, rfl⟩
  | cons b l ih =>
    obtain ⟨a1, h1⟩ := hg a b (by simp)
    obtain ⟨a', h'⟩ := ih (fun a b hb => hg a b (List.mem_cons_of_mem _ hb)) a1
    exact ⟨a', by rw [foldlM_cons_eq, h1]; exact h'⟩

/-- A fold whose steps all leave the value alone leaves it alone. -/
theorem foldlM_idle {α β ε : Type} {g : α → β → Except ε α} {l : List β} {a : α}
    (hg : ∀ b, b ∈ l → g a b = .ok a) : l.foldlM g a = .ok a := by
  induction l with
  | nil => rfl
  | cons b l ih =>
    rw [foldlM_cons_eq, hg b (by simp)]
    exact ih fun b hb => hg b (List.mem_cons_of_mem _ hb)

/-- In a fold that completes, every step completed. -/
theorem foldlM_each {α β ε : Type} {g : α → β → Except ε α} {l : List β} {a a' : α}
    (h : l.foldlM g a = .ok a') {b : β} (hb : b ∈ l) : ∃ a1 a2, g a1 b = .ok a2 := by
  induction l generalizing a with
  | nil => cases hb
  | cons c l ih =>
    rw [foldlM_cons_eq] at h
    cases hc : g a c with
    | error e => rw [hc] at h; cases h
    | ok a1 =>
      rcases List.mem_cons.1 hb with rfl | hb
      · exact ⟨a, a1, hc⟩
      · rw [hc] at h; exact ih h hb

/-- A fold that stops ran some steps to their end and stopped in the next. -/
theorem foldlM_error {α β ε : Type} {g : α → β → Except ε α} {l : List β} {a : α} {e : ε}
    (h : l.foldlM g a = .error e) :
    ∃ l1 b l2 a1, l = l1 ++ b :: l2 ∧ l1.foldlM g a = .ok a1 ∧ g a1 b = .error e := by
  induction l generalizing a with
  | nil => cases h
  | cons b l ih =>
    rw [foldlM_cons_eq] at h
    cases hb : g a b with
    | error e' => rw [hb] at h; cases h; exact ⟨[], b, l, a, rfl, rfl, hb⟩
    | ok a1 =>
      rw [hb] at h
      obtain ⟨l1, b', l2, a2, rfl, h1, h2⟩ := ih h
      exact ⟨b :: l1, b', l2, a2, rfl, by rw [foldlM_cons_eq, hb]; exact h1, h2⟩

theorem foldlM_congr {α β ε : Type} {g g' : α → β → Except ε α} {l : List β}
    (hg : ∀ a b, b ∈ l → g a b = g' a b) (a : α) : l.foldlM g a = l.foldlM g' a := by
  induction l generalizing a with
  | nil => rfl
  | cons b l ih =>
    rw [foldlM_cons_eq, foldlM_cons_eq, hg a b (by simp)]
    cases g' a b with
    | error e => rfl
    | ok a1 => exact ih (fun a b hb => hg a b (List.mem_cons_of_mem _ hb)) a1

/-- The positions of a square, in raster order: column and row. -/
def positions (n : Nat) : List (Nat × Nat) :=
  (List.range n).flatMap fun py => (List.range n).map fun px => (px, py)

theorem mem_positions {n : Nat} {q : Nat × Nat} : q ∈ positions n ↔ q.1 < n ∧ q.2 < n := by
  obtain ⟨px, py⟩ := q
  simp [positions, and_comm]

theorem foldlM_append_eq {α β ε : Type} (g : α → β → Except ε α) (l l' : List β) (a : α) :
    (l ++ l').foldlM g a = match l.foldlM g a with
      | .error e => .error e
      | .ok a'   => l'.foldlM g a' := by
  rw [List.foldlM_append]
  cases l.foldlM g a <;> rfl

/-- A raster is one fold over its positions. -/
theorem raster_eq_foldlM (n : Nat) (draw : Frame → Nat → Nat → Run Frame) (f : Frame) :
    raster n draw f =
      (positions n).foldlM (m := Except (Halt Frame)) (fun f q => draw f q.1 q.2) f := by
  unfold raster positions
  generalize List.range n = rows
  have hcols : ∀ (cols : List Nat) (py : Nat) (f : Frame),
      (cols.map fun px => (px, py)).foldlM (m := Except (Halt Frame))
          (fun f (q : Nat × Nat) => draw f q.1 q.2) f
        = cols.foldlM (m := Except (Halt Frame)) (fun f px => draw f px py) f := by
    intro cols py
    induction cols with
    | nil => intro f; rfl
    | cons px cols ih =>
      intro f
      rw [List.map_cons, foldlM_cons_eq, foldlM_cons_eq]
      cases draw f px py with
      | error e => rfl
      | ok f1 => exact ih f1
  suffices h : ∀ (cols : List Nat) (f : Frame),
      rows.foldlM (m := Except (Halt Frame))
          (fun f py => cols.foldlM (m := Except (Halt Frame)) (fun f px => draw f px py) f) f
        = (rows.flatMap fun py => cols.map fun px => (px, py)).foldlM
            (m := Except (Halt Frame)) (fun f q => draw f q.1 q.2) f from h rows f
  intro cols
  induction rows with
  | nil => intro f; rfl
  | cons py rows ih =>
    intro f
    rw [List.flatMap_cons, foldlM_cons_eq, foldlM_append_eq, hcols]
    cases cols.foldlM (m := Except (Halt Frame)) (fun f px => draw f px py) f with
    | error e => rfl
    | ok f1 => exact ih f1

theorem raster_keeps {P : Frame → Prop} {n : Nat} {draw : Frame → Nat → Nat → Run Frame}
    (hd : ∀ f px py, px < n → py < n → P f → P (leftBy (draw f px py))) {f : Frame}
    (hf : P f) : P (leftBy (raster n draw f)) := by
  rw [raster_eq_foldlM]
  exact foldlM_keeps (P := P) (fun a q hq ha =>
    hd a q.1 q.2 (mem_positions.1 hq).1 (mem_positions.1 hq).2 ha) hf

theorem raster_completes {n : Nat} {draw : Frame → Nat → Nat → Run Frame}
    (hd : ∀ f px py, px < n → py < n → ∃ f', draw f px py = .ok f') (f : Frame) :
    ∃ f', raster n draw f = .ok f' := by
  rw [raster_eq_foldlM]
  exact foldlM_completes (fun a q hq => hd a q.1 q.2 (mem_positions.1 hq).1 (mem_positions.1 hq).2) f

theorem raster_each {n : Nat} {draw : Frame → Nat → Nat → Run Frame} {f f' : Frame}
    (h : raster n draw f = .ok f') {px py : Nat} (hx : px < n) (hy : py < n) :
    ∃ g g', draw g px py = .ok g' := by
  rw [raster_eq_foldlM] at h
  exact foldlM_each h (b := (px, py)) (mem_positions.2 ⟨hx, hy⟩)

theorem raster_idle {n : Nat} {draw : Frame → Nat → Nat → Run Frame} {f : Frame}
    (hd : ∀ px py, px < n → py < n → draw f px py = .ok f) : raster n draw f = .ok f := by
  rw [raster_eq_foldlM]
  exact foldlM_idle fun q hq => hd q.1 q.2 (mem_positions.1 hq).1 (mem_positions.1 hq).2

theorem raster_congr {n : Nat} {draw draw' : Frame → Nat → Nat → Run Frame}
    (hd : ∀ f px py, px < n → py < n → draw f px py = draw' f px py) (f : Frame) :
    raster n draw f = raster n draw' f := by
  rw [raster_eq_foldlM, raster_eq_foldlM]
  exact foldlM_congr (fun a q hq => hd a q.1 q.2 (mem_positions.1 hq).1 (mem_positions.1 hq).2) f

/-! ## Guarded plots -/

/-- The shape shared by `drawTilePixel` and `drawSpritePixel`: decode and plot the pixel at `(px, py)`
of a square with top-left `(x, y)`, if it passes the clip test. -/
def drawAt (inside : Int → Int → Bool) (cand : Nat → Nat → Except Stop (Option Pen)) (x y : Int)
    (f : Frame) (px py : Nat) : Run Frame :=
  if inside (x + px) (y + py) then
    match cand px py with
    | .error e => .error ⟨e, f⟩
    | .ok p    => .ok (plotCandidate f (x + px) (y + py) p)
  else .ok f

theorem drawTilePixel_eq (c : Config) (d : Word) (x y : Int) (size : Nat) :
    drawTilePixel c d x y size = drawAt (tileInside c) (tilePixel c d size) x y := rfl

theorem drawSpritePixel_eq (c : Config) (sp : SpriteDesc) (x0 y0 : Int) :
    drawSpritePixel c sp x0 y0 = drawAt (spriteInside c) (spritePixel c sp) x0 y0 := rfl

/-- A clip test that keeps pixels on the screen of `c`. -/
def KeepsOnScreen (c : Config) (inside : Int → Int → Bool) : Prop :=
  ∀ x y, inside x y = true → (0 ≤ x ∧ x < c.screenW) ∧ (0 ≤ y ∧ y < c.screenH)

theorem tileInside_keeps (c : Config) : KeepsOnScreen c (tileInside c) :=
  fun _ _ h => tileInside_onScreen h

theorem spriteInside_keeps (c : Config) : KeepsOnScreen c (spriteInside c) :=
  fun _ _ h => spriteInside_onScreen h

/-- All a guarded plot can leave: the bitmap as it was, or one plot of a pen on the screen. -/
theorem drawAt_cases {c : Config} {inside : Int → Int → Bool} (hin : KeepsOnScreen c inside)
    (cand : Nat → Nat → Except Stop (Option Pen)) (x y : Int) (f : Frame) (px py : Nat) :
    leftBy (drawAt inside cand x y f px py) = f ∨
      ∃ (X Y : Nat) (p : Pen), X < c.screenW ∧ Y < c.screenH ∧
        leftBy (drawAt inside cand x y f px py) = plot f X Y (.pen p) := by
  unfold drawAt
  split
  · next hi =>
    have hs := hin _ _ hi
    cases cand px py with
    | error e => exact .inl rfl
    | ok q =>
      cases q with
      | none => exact .inl rfl
      | some p => exact .inr ⟨(x + px).toNat, (y + py).toNat, p, by omega, by omega, rfl⟩
  · exact .inl rfl

/-- A property of bitmaps that on-screen plots of pens keep. -/
def PlotStable (c : Config) (P : Frame → Prop) : Prop :=
  ∀ f x y p, x < c.screenW → y < c.screenH → P f → P (plot f x y (.pen p))

theorem raster_drawAt_keeps {c : Config} {P : Frame → Prop} (hP : PlotStable c P)
    {inside : Int → Int → Bool} (hin : KeepsOnScreen c inside)
    (cand : Nat → Nat → Except Stop (Option Pen)) (x y : Int) (n : Nat) {f : Frame} (hf : P f) :
    P (leftBy (raster n (drawAt inside cand x y) f)) := by
  refine raster_keeps (P := P) ?_ hf
  intro g px py _ _ hg
  rcases drawAt_cases hin cand x y g px py with h | ⟨X, Y, p, hX, hY, h⟩
  · rw [h]; exact hg
  · rw [h]; exact hP g X Y p hX hY hg

theorem drawCell_keeps {c : Config} {P : Frame → Prop} (hP : PlotStable c P) (d : Word) (x y : Int)
    (size : Nat) {f : Frame} (hf : P f) : P (leftBy (drawCell c d x y size f)) := by
  unfold drawCell
  split
  · exact hf
  · exact raster_drawAt_keeps hP (tileInside_keeps c) _ _ _ _ hf

theorem drawTilemap_keeps {c : Config} {P : Frame → Prop} (hP : PlotStable c P) (bank treg : Store)
    {f : Frame} (hf : P f) : P (leftBy (drawTilemap c bank treg f)) :=
  raster_keeps (P := P) (fun _ _ _ _ _ hg => drawCell_keeps hP _ _ _ _ hg) hf

theorem drawSprite_keeps {c : Config} {P : Frame → Prop} (hP : PlotStable c P) (w0 w1 : Word)
    (xoff : Int) {f : Frame} (hf : P f) : P (leftBy (drawSprite c w0 w1 xoff f)) := by
  unfold drawSprite
  simp only
  split
  · exact hf
  · exact raster_drawAt_keeps hP (spriteInside_keeps c) _ _ _ _ hf

theorem walkSprites_keeps {c : Config} {P : Frame → Prop} (hP : PlotStable c P) (mem : Store)
    (xoff : Int) (k : Nat) {f : Frame} (hf : P f) : P (leftBy (walkSprites c mem xoff k f)) := by
  induction k generalizing f with
  | zero => exact hf
  | succ k ih =>
    have hd := drawSprite_keeps hP (storeWord mem (2 * (k + 1))) (storeWord mem (2 * (k + 1) + 1))
      xoff hf
    unfold walkSprites
    cases h : drawSprite c (storeWord mem (2 * (k + 1))) (storeWord mem (2 * (k + 1) + 1)) xoff f with
    | error e => rw [h] at hd; exact hd
    | ok f1 => rw [h] at hd; exact ih hd

/-- All a rendered frame can be, complete or not: the cleared frame, and plots of pens on the screen. -/
theorem renderFrame_keeps {s : State} {P : Frame → Prop} (hP : PlotStable s.cfg P)
    (h0 : P clearedFrame) (scr : Screen) : P (leftBy (renderFrame s scr)) := by
  have h1 := drawTilemap_keeps hP (quad s.tile (backMap scr)) (quad s.treg (backMap scr)) h0
  unfold renderFrame drawMap
  cases hm : drawTilemap s.cfg (quad s.tile (backMap scr)) (quad s.treg (backMap scr)) clearedFrame with
  | error e => rw [hm] at h1; exact h1
  | ok f1 =>
    rw [hm] at h1
    have h2 := walkSprites_keeps hP s.sprite (spriteXoff scr) (spriteWords / 2 - 1) h1
    change P (leftBy (drawSprites s.cfg s.sprite (spriteXoff scr) f1)) at h2
    simp only
    cases hs : drawSprites s.cfg s.sprite (spriteXoff scr) f1 with
    | error e => rw [hs] at h2; exact h2
    | ok f2 =>
      rw [hs] at h2
      exact drawTilemap_keeps hP _ _ h2

/-- All a refresh can do when it completes (R112): it replaces its own screen's bitmap by the rendered
frame. -/
theorem refreshRun_ok {s t : State} {scr : Screen} (h : refreshRun s scr = .ok t) :
    ∃ f, renderFrame s scr = .ok f ∧ t = (s.setFb scr f).reply none := by
  unfold refreshRun at h
  cases hr : renderFrame s scr with
  | error e => rw [hr] at h; cases h
  | ok f =>
    rw [hr] at h
    cases h
    exact ⟨f, rfl, rfl⟩

/-- All a refresh can do when it stops (60_exceptions.md R144): its own screen's bitmap is left as far as
it was drawn. -/
theorem refreshRun_error {s : State} {scr : Screen} {h : Halt State}
    (hr : refreshRun s scr = .error h) :
    ∃ f, renderFrame s scr = .error ⟨h.stop, f⟩ ∧ h.left = s.setFb scr f := by
  unfold refreshRun at hr
  cases hf : renderFrame s scr with
  | error e => rw [hf] at hr; cases hr; exact ⟨e.left, rfl, rfl⟩
  | ok f => rw [hf] at hr; cases hr

end Sys2Proof.Machine
end

