-- ==== Sys2Proof/Laws/Halted.lean ====
section
/-! SUPPORT. What a step leaves when it goes on and when it stops (60_exceptions.md R144). -/

namespace Sys2Proof.Machine

@[simp] theorem stopOutcome_ne_next {σ : Type} (e : Stop) (t : σ) : stopOutcome e ≠ .next t := by
  cases e <;> intro h <;> cases h

@[simp] theorem finish_ok {σ : Type} (s : σ) : finish (.ok s) = .next s := rfl

@[simp] theorem finish_error {σ : Type} (h : Halt σ) : finish (.error h) = stopOutcome h.stop := rfl

theorem finish_next_iff {σ : Type} {r : Run σ} {t : σ} : finish r = .next t ↔ r = .ok t := by
  cases r with
  | ok s => simp
  | error h => simp

/-- A step that goes on leaves its next state. -/
theorem stateAfter_next {s t : State} (h : step s = .next t) : stateAfter s = t := by
  unfold step at h
  unfold stateAfter
  cases hf : fetch s with
  | error e => rw [hf] at h; exact absurd h (stopOutcome_ne_next e t)
  | ok r =>
    rw [hf] at h
    cases r with
    | none => cases h; rfl
    | some q =>
      obtain ⟨i, u⟩ := q
      simp only at h ⊢
      rw [h]

/-- What a refresh leaves, complete or not: its own screen's bitmap, and the reply. -/
theorem refreshRun_leaves (s : State) (scr : Screen) :
    ∃ o, leftBy (refreshRun s scr) = (s.setFb scr (leftBy (renderFrame s scr))).reply o := by
  unfold refreshRun
  cases renderFrame s scr with
  | ok f => exact ⟨none, rfl⟩
  | error h => exact ⟨s.out, by cases scr <;> rfl⟩

/-- What a command leaves, complete or not, inside a blit or not. -/
theorem runCmd_leaves (cmd : BltCmd) (s : State) : BlitFields s (leftBy (runCmd cmd s)) := by
  cases hc : s.cursor with
  | some cur =>
    exact (runCmd_cases (P := fun _ => True) (fun _ _ _ _ _ _ => trivial) cmd hc).1.fields
  | none => rw [runCmd_idle cmd hc]; rfl

/-- What a register write leaves, complete or not: the registers and the fields of a blit. -/
theorem bltregWrRun_leaves (off : BitVec 3) (data : Word) (be : Lanes) (s : State) :
    ∃ m, BlitFields (s.setBltReg m) (leftBy (bltregWrRun off data be s)) := by
  unfold bltregWrRun
  split
  · refine ⟨storeMerge s.bltReg off.toNat data be, ?_⟩
    simp only
    split
    · unfold startBlit
      refine BlitFields.trans' ?_ (runBlit_cases (P := fun _ => True)
        (fun _ _ _ _ _ _ => trivial) _ rfl).1.fields
      exact rfl
    · exact rfl
  · exact ⟨s.bltReg, rfl⟩

/-- No instruction that stops touches a mark: `stateAfter` sets the one of its stop. -/
theorem leftByStop_marks (i : Instr) (s : State) : (leftByStop i s).marks = s.marks := by
  have hb : ∀ {t u : State}, BlitFields t u → u.marks = t.marks := fun h => by rw [h]
  have hr : ∀ scr, (leftBy (refreshRun s scr)).marks = s.marks := fun scr => by
    obtain ⟨o, h⟩ := refreshRun_leaves s scr
    rw [h]
    cases scr <;> rfl
  cases i with
  | refreshLeft => exact hr .left
  | refreshRight => exact hr .right
  | bltregWr off data be =>
    obtain ⟨m, h⟩ := bltregWrRun_leaves off data be s
    exact (hb h).trans rfl
  | bltEnd => exact hb (runCmd_leaves .endList s)
  | bltCopy amt => exact hb (runCmd_leaves (.copy amt) s)
  | bltFill amt v => exact hb (runCmd_leaves (.fill amt v) s)
  | bltNextline => exact hb (runCmd_leaves .nextline s)
  | bltUnknown c0 => exact hb (runCmd_leaves (.unknown c0) s)
  | _ => rfl

end Sys2Proof.Machine
end

