-- ==== Sys2Proof/Laws/Window.lean ====
section
/-! SUPPORT. What a sound address map gives (20_memory.md R45): every region has one window, a byte
address falls in at most one window, and word `i` of a region is found at the address the encoder
gives it. -/

namespace Sys2Proof

theorem mem_allRegions (r : Region) : r ∈ allRegions := by
  cases r with
  | tile b => revert b; decide
  | treg t => revert t; decide
  | brt p => revert p; decide
  | sprite => decide
  | palette => decide
  | sreg => decide
  | bltreg => decide

/-- The four things a sound map says. -/
theorem mapSound_iff {c : Config} : mapSound c = true ↔
    (∀ r ∈ allRegions, ∃ w ∈ c.addrMap, w.region = r) ∧
    (∀ w ∈ c.addrMap, 4 ∣ w.base ∧ windowEnd c w ≤ 0x100000) ∧
    (c.addrMap.Pairwise fun v w => windowsApart c v w = true) ∧ c.sregWords ≤ 16 := by
  simp only [mapSound, Bool.and_eq_true, List.all_eq_true, List.any_eq_true, decide_eq_true_eq,
    and_assoc]

/-- The base the encoder uses is the base of a listed window of that region. -/
theorem regionBase_window {c : Config} (hc : mapSound c = true) (r : Region) :
    ∃ w ∈ c.addrMap, w.region = r ∧ regionBase c r = w.base := by
  obtain ⟨v, hv, hr⟩ := (mapSound_iff.1 hc).1 r (mem_allRegions r)
  unfold regionBase
  cases hf : c.addrMap.find? fun w => decide (w.region = r) with
  | none => exact absurd (List.find?_eq_none.1 hf v hv) (by simp [hr])
  | some w =>
    exact ⟨w, List.mem_of_find?_eq_some hf, by simpa using List.find?_some hf, rfl⟩

theorem windowHolds_iff {c : Config} {a : Nat} {w : Window} (h4 : 4 ∣ w.base) :
    windowHolds c a w = true ↔
      regionPresent c w.region = true ∧ w.base ≤ a ∧ a < windowEnd c w := by
  obtain ⟨b, hb⟩ := h4
  simp only [windowHolds, Bool.and_eq_true, decide_eq_true_eq, and_assoc]
  unfold wordIndex windowEnd
  constructor
  · rintro ⟨hp, h1, h2⟩
    exact ⟨hp, h1, by omega⟩
  · rintro ⟨hp, h1, h2⟩
    exact ⟨hp, h1, by omega⟩

/-- Two windows of a sound map that hold one address are the same window. -/
theorem windowHolds_unique {c : Config} (hc : mapSound c = true) {a : Nat} {v w : Window}
    (hv : v ∈ c.addrMap) (hw : w ∈ c.addrMap) (hav : windowHolds c a v = true)
    (haw : windowHolds c a w = true) : v = w := by
  obtain ⟨_, hbase, hpair, _⟩ := mapSound_iff.1 hc
  by_contra hne
  have hsymm : Std.Symm fun v w : Window => windowsApart c v w = true :=
    ⟨fun x y h => by
      simp only [windowsApart, Bool.or_eq_true, decide_eq_true_eq] at h ⊢
      exact h.symm⟩
  have hap : windowsApart c v w = true := hpair.forall hv hw hne
  have h1 := (windowHolds_iff (hbase v hv).1).1 hav
  have h2 := (windowHolds_iff (hbase w hw).1).1 haw
  simp only [windowsApart, Bool.or_eq_true, decide_eq_true_eq] at hap
  omega

/-- A listed window that holds the address is the one found. -/
theorem windowAt_eq_some {c : Config} (hc : mapSound c = true) {a : Nat} {w : Window}
    (hw : w ∈ c.addrMap) (h : windowHolds c a w = true) : windowAt c a = some w := by
  unfold windowAt
  cases hf : c.addrMap.find? (windowHolds c a) with
  | none => exact absurd h (by simpa using List.find?_eq_none.1 hf w hw)
  | some v =>
    rw [windowHolds_unique hc (List.mem_of_find?_eq_some hf) hw (List.find?_some hf) h]

/-- All `windowAt` can answer: nothing, or a listed window that holds the address. -/
theorem windowAt_some {c : Config} {a : Nat} {w : Window} (h : windowAt c a = some w) :
    w ∈ c.addrMap ∧ windowHolds c a w = true :=
  ⟨List.mem_of_find?_eq_some h, List.find?_some h⟩

/-- The bytes of a region lie inside the 20-bit space. -/
theorem regionBase_fits {c : Config} (hc : mapSound c = true) (r : Region) :
    regionBase c r + 4 * regionWords c r ≤ 0x100000 := by
  obtain ⟨w, hw, hr, hb⟩ := regionBase_window hc r
  have := ((mapSound_iff.1 hc).2.1 w hw).2
  rw [hb, ← hr]
  exact this

/-- The address the encoder gives word `idx` of region `r`. -/
theorem regionReq_addr {c : Config} (hc : mapSound c = true) {r : Region} {idx : Nat}
    (hi : idx < regionWords c r) (w : Bool) (data : Word) (be : Lanes) :
    (regionReq c r idx w data be).addr.toNat = regionBase c r + 4 * idx := by
  have := regionBase_fits hc r
  simp only [regionReq, BitVec.toNat_ofNat]
  exact Nat.mod_eq_of_lt (by omega)

/-- Word `idx` of a present region is found there, with that index. -/
theorem windowAt_region {c : Config} (hc : mapSound c = true) {r : Region} {idx : Nat}
    (hp : regionPresent c r = true) (hi : idx < regionWords c r) :
    ∃ w, windowAt c (regionBase c r + 4 * idx) = some w ∧ w.region = r ∧
      wordIndex w (regionBase c r + 4 * idx) = idx := by
  obtain ⟨w, hw, hr, hb⟩ := regionBase_window hc r
  subst hr
  have hx : wordIndex w (regionBase c w.region + 4 * idx) = idx := by
    unfold wordIndex
    omega
  refine ⟨w, windowAt_eq_some hc hw ?_, rfl, hx⟩
  unfold windowHolds
  rw [hx]
  simp [hp, hb, hi]

/-- Decoding the request for word `idx` of a present region gives that region's row. -/
theorem decodeBus_regionReq {c : Config} (hc : mapSound c = true) {r : Region} {idx : Nat}
    (hp : regionPresent c r = true) (hi : idx < regionWords c r) (w : Bool) (data : Word)
    (be : Lanes) :
    decodeBus c (regionReq c r idx w data be) = regionInstr r idx (regionReq c r idx w data be) := by
  obtain ⟨v, hv, hr, hx⟩ := windowAt_region hc hp hi
  unfold decodeBus
  rw [regionReq_addr hc hi, hv]
  simp only
  rw [hx, hr]

end Sys2Proof
end

