-- ==== Sys2Proof/Laws/PerInstr.lean ====
section
/-! SUPPORT. Statements per instruction, one lemma a constructor.

`WindowAddress`: a well-formed instruction of a window is encoded with a byte address inside that
window (20_memory.md R45; 30_encoding.md R54), for every sound map. -/

namespace Sys2Proof

/-- The window an instruction acts on; none for the unmapped rows, the events and the commands. -/
def instrRegion : Instr → Option Region
  | .tileRd b _       => some (.tile b)
  | .tileWr b _ _ _   => some (.tile b)
  | .sprRd _          => some .sprite
  | .sprWr _ _ _      => some .sprite
  | .palRd _          => some .palette
  | .palWr _ _ _      => some .palette
  | .tregRd t _       => some (.treg t)
  | .tregWr t _ _ _   => some (.treg t)
  | .sregRd _         => some .sreg
  | .sregWr _ _ _     => some .sreg
  | .brtRd p          => some (.brt p)
  | .brtWr p _ _      => some (.brt p)
  | .bltregRd _       => some .bltreg
  | .bltregWr _ _ _   => some .bltreg
  | .unmappedRd _     => none
  | .unmappedWr _ _ _ => none
  | .refreshLeft      => none
  | .refreshRight     => none
  | .blitDone         => none
  | .reset            => none
  | .bltEnd           => none
  | .bltCopy _        => none
  | .bltFill _ _      => none
  | .bltNextline      => none
  | .bltUnknown _     => none

/-- The byte address of a request lies in the bytes of a region. -/
def inRegion (c : Config) (r : Region) (q : BusReq) : Prop :=
  regionBase c r ≤ q.addr.toNat ∧ q.addr.toNat < regionBase c r + 4 * regionWords c r

theorem regionReq_inRegion {c : Config} (hc : mapSound c = true) {r : Region} {idx : Nat}
    (hi : idx < regionWords c r) (w : Bool) (data : Word) (be : Lanes) :
    inRegion c r (regionReq c r idx w data be) := by
  unfold inRegion
  rw [regionReq_addr hc hi]
  omega

namespace Laws.WindowAddress

/-- A well-formed instruction of window `r` is encoded with an address in `r`. -/
def Statement (i : Instr) : Prop :=
  ∀ (c : Config) (q : BusReq) (r : Region), mapSound c = true → i.wf c = true →
    encode c i = .input (.bus q) → instrRegion i = some r → inRegion c r q

/-- The request the encoder gives word `idx` of `r` is the one claimed. -/
theorem of_region {c : Config} (hc : mapSound c = true) {r r' : Region} {idx : Nat} {w : Bool}
    {data : Word} {be : Lanes} {q : BusReq} (hi : idx < regionWords c r)
    (he : Words.input (.bus (regionReq c r idx w data be)) = .input (.bus q))
    (hr : some r = some r') : inRegion c r' q := by
  cases hr
  cases he
  exact regionReq_inRegion hc hi w data be

/-- An instruction of no window claims nothing. -/
theorem of_none {i : Instr} (h : instrRegion i = none) : Statement i := by
  intro c q r _ _ _ hr
  rw [h] at hr
  cases hr

theorem tileRd (b : BitVec 2) (off : BitVec 14) : Statement (.tileRd b off) :=
  fun _ _ _ hc _ he hr => of_region hc off.isLt he hr

theorem tileWr (b : BitVec 2) (off : BitVec 14) (data : Word) (be : Lanes) :
    Statement (.tileWr b off data be) :=
  fun _ _ _ hc _ he hr => of_region hc off.isLt he hr

theorem sprRd (off : BitVec 14) : Statement (.sprRd off) :=
  fun _ _ _ hc hwf he hr => of_region hc (by simpa [Instr.wf, regionWords] using hwf) he hr

theorem sprWr (off : BitVec 14) (data : Word) (be : Lanes) : Statement (.sprWr off data be) :=
  fun _ _ _ hc hwf he hr => of_region hc (by simpa [Instr.wf, regionWords] using hwf) he hr

theorem palRd (idx : BitVec 12) : Statement (.palRd idx) :=
  fun _ _ _ hc _ he hr => of_region hc idx.isLt he hr

theorem palWr (idx : BitVec 12) (data : Word) (be : Lanes) : Statement (.palWr idx data be) :=
  fun _ _ _ hc _ he hr => of_region hc idx.isLt he hr

theorem tregRd (t : BitVec 2) (off : BitVec 5) : Statement (.tregRd t off) :=
  fun _ _ _ hc hwf he hr => of_region hc (by simpa [Instr.wf, regionWords] using hwf) he hr

theorem tregWr (t : BitVec 2) (off : BitVec 5) (data : Word) (be : Lanes) :
    Statement (.tregWr t off data be) :=
  fun _ _ _ hc hwf he hr => of_region hc (by simpa [Instr.wf, regionWords] using hwf) he hr

theorem sregRd (off : BitVec 4) : Statement (.sregRd off) :=
  fun _ _ _ hc hwf he hr => of_region hc (by simpa [Instr.wf, regionWords] using hwf) he hr

theorem sregWr (off : BitVec 4) (data : Word) (be : Lanes) : Statement (.sregWr off data be) :=
  fun _ _ _ hc hwf he hr => of_region hc (by simpa [Instr.wf, regionWords] using hwf) he hr

theorem brtRd (p : BitVec 1) : Statement (.brtRd p) :=
  fun _ _ _ hc _ he hr => of_region hc Nat.one_pos he hr

theorem brtWr (p : BitVec 1) (data : Word) (be : Lanes) : Statement (.brtWr p data be) :=
  fun _ _ _ hc _ he hr => of_region hc Nat.one_pos he hr

theorem bltregRd (off : BitVec 3) : Statement (.bltregRd off) :=
  fun _ _ _ hc _ he hr => of_region hc off.isLt he hr

theorem bltregWr (off : BitVec 3) (data : Word) (be : Lanes) : Statement (.bltregWr off data be) :=
  fun _ _ _ hc _ he hr => of_region hc off.isLt he hr

theorem unmappedRd (wa : BitVec 18) : Statement (.unmappedRd wa) := of_none rfl

theorem unmappedWr (wa : BitVec 18) (data : Word) (be : Lanes) :
    Statement (.unmappedWr wa data be) :=
  of_none rfl

theorem refreshLeft : Statement .refreshLeft := of_none rfl

theorem refreshRight : Statement .refreshRight := of_none rfl

theorem blitDone : Statement .blitDone := of_none rfl

theorem reset : Statement .reset := of_none rfl

theorem bltEnd : Statement .bltEnd := of_none rfl

theorem bltCopy (amt : Byte) : Statement (.bltCopy amt) := of_none rfl

theorem bltFill (amt : Byte) (v : Half) : Statement (.bltFill amt v) := of_none rfl

theorem bltNextline : Statement .bltNextline := of_none rfl

theorem bltUnknown (c0 : Byte) : Statement (.bltUnknown c0) := of_none rfl

end Laws.WindowAddress

end Sys2Proof
end

