-- ==== Sys2Proof/Laws/Picture.lean ====
section
/-! SUPPORT. Each layer of a refresh pixel by pixel: what a cell, a tilemap, a sprite and the sprite
walk leave at one screen position, and when they complete. -/

namespace Sys2Proof.Machine

/-! ## One guarded raster -/

/-- The bitmap pixel under an optional pen. -/
def overlay (p : Option Pen) (under : Pixel) : Pixel :=
  match p with
  | some p => .pen p
  | none   => under

@[simp] theorem overlay_none (u : Pixel) : overlay none u = u := rfl
@[simp] theorem overlay_some (p : Pen) (u : Pixel) : overlay (some p) u = .pen p := rfl
@[simp] theorem overlay_overlay (p : Option Pen) (u : Pixel) :
    overlay p (overlay p u) = overlay p u := by cases p <;> rfl

/-- Position `q` of a square with top-left `(x, y)` is screen position `(X, Y)`. -/
def Hits (x y : Int) (q : Nat × Nat) (X Y : Nat) : Prop :=
  x + q.1 = X ∧ y + q.2 = Y

theorem drawAt_pixel {c : Config} {inside : Int → Int → Bool} (hin : KeepsOnScreen c inside)
    {cand : Nat → Nat → Except Stop (Option Pen)} {x y : Int} {f f' : Frame} {q : Nat × Nat}
    (h : drawAt inside cand x y f q.1 q.2 = .ok f') (X Y : Nat) :
    (Hits x y q X Y ∧ inside X Y = true →
        frameAt f' X Y = overlay (opaquePen (cand q.1 q.2)) (frameAt f X Y)) ∧
    (¬(Hits x y q X Y ∧ inside X Y = true) → frameAt f' X Y = frameAt f X Y) := by
  unfold drawAt at h
  split at h
  · next hi =>
    have hs := hin _ _ hi
    cases hc : cand q.1 q.2 with
    | error e => rw [hc] at h; cases h
    | ok r =>
      rw [hc] at h
      cases r with
      | none =>
        cases h
        exact ⟨fun _ => rfl, fun _ => rfl⟩
      | some p =>
        cases h
        constructor
        · rintro ⟨⟨hx, hy⟩, _⟩
          have hX : (x + (q.1 : Int)).toNat = X := by omega
          have hY : (y + (q.2 : Int)).toNat = Y := by omega
          simp [plotCandidate, hX, hY, opaquePen]
        · intro hn
          refine frameAt_plot_ne _ _ ?_
          rintro ⟨hX, hY⟩
          apply hn
          have h1 : x + (q.1 : Int) = X := by omega
          have h2 : y + (q.2 : Int) = Y := by omega
          exact ⟨⟨h1, h2⟩, by rw [← h1, ← h2]; exact hi⟩
  · next hi =>
    cases h
    refine ⟨?_, fun _ => rfl⟩
    rintro ⟨⟨h1, h2⟩, hi'⟩
    rw [h1, h2] at hi
    exact absurd hi' hi

/-- Guarded plots at the positions of a list, at one screen position: the candidate of the position that
hits it, over what was there. -/
theorem foldlM_drawAt_pixel {c : Config} {inside : Int → Int → Bool} (hin : KeepsOnScreen c inside)
    {cand : Nat → Nat → Except Stop (Option Pen)} {x y : Int} {l : List (Nat × Nat)} {f f' : Frame}
    (h : l.foldlM (m := Except (Halt Frame)) (fun f q => drawAt inside cand x y f q.1 q.2) f = .ok f')
    (X Y : Nat) :
    ((∃ q ∈ l, Hits x y q X Y ∧ inside X Y = true) →
      frameAt f' X Y
        = overlay (opaquePen (cand ((X : Int) - x).toNat ((Y : Int) - y).toNat)) (frameAt f X Y)) ∧
    (¬(∃ q ∈ l, Hits x y q X Y ∧ inside X Y = true) → frameAt f' X Y = frameAt f X Y) := by
  induction l generalizing f with
  | nil =>
    cases h
    exact ⟨fun ⟨q, hq, _⟩ => by simp at hq, fun _ => rfl⟩
  | cons q l ih =>
    rw [foldlM_cons_eq] at h
    cases hd : drawAt inside cand x y f q.1 q.2 with
    | error e => rw [hd] at h; cases h
    | ok f1 =>
      rw [hd] at h
      obtain ⟨ih1, ih2⟩ := ih h
      obtain ⟨d1, d2⟩ := drawAt_pixel hin hd X Y
      by_cases hq : Hits x y q X Y ∧ inside X Y = true
      · have hx : ((X : Int) - x).toNat = q.1 := by
          have := hq.1.1; omega
        have hy : ((Y : Int) - y).toNat = q.2 := by
          have := hq.1.2; omega
        have h1 := d1 hq
        rw [← hx, ← hy] at h1
        refine ⟨fun _ => ?_, fun hn => absurd ⟨q, by simp, hq⟩ hn⟩
        by_cases hl : ∃ q ∈ l, Hits x y q X Y ∧ inside X Y = true
        · rw [ih1 hl, h1, overlay_overlay]
        · rw [ih2 hl, h1]
      · have h1 := d2 hq
        constructor
        · rintro ⟨q', hq', hh⟩
          rcases List.mem_cons.1 hq' with rfl | hq'
          · exact absurd hh hq
          · rw [ih1 ⟨q', hq', hh⟩, h1]
        · intro hn
          rw [ih2 (fun ⟨q', hq', hh⟩ => hn ⟨q', List.mem_cons_of_mem _ hq', hh⟩), h1]

/-- A raster of guarded plots at one screen position: the candidate of the position it hits, over what
was there. -/
theorem raster_drawAt_pixel {c : Config} {inside : Int → Int → Bool} (hin : KeepsOnScreen c inside)
    {cand : Nat → Nat → Except Stop (Option Pen)} {x y : Int} {n : Nat} {f f' : Frame}
    (h : raster n (drawAt inside cand x y) f = .ok f') (X Y : Nat) :
    frameAt f' X Y =
      if inside X Y = true ∧ (0 ≤ (X : Int) - x ∧ (X : Int) - x < n) ∧
          (0 ≤ (Y : Int) - y ∧ (Y : Int) - y < n) then
        overlay (opaquePen (cand ((X : Int) - x).toNat ((Y : Int) - y).toNat)) (frameAt f X Y)
      else frameAt f X Y := by
  rw [raster_eq_foldlM] at h
  obtain ⟨k1, k2⟩ := foldlM_drawAt_pixel hin h X Y
  split
  · next hc =>
    obtain ⟨hi, hx, hy⟩ := hc
    refine k1 ⟨(((X : Int) - x).toNat, ((Y : Int) - y).toNat), mem_positions.2 ?_, ?_, hi⟩
    · constructor <;> simp only <;> omega
    · constructor <;> simp only <;> omega
  · next hc =>
    refine k2 ?_
    rintro ⟨q, hq, ⟨h1, h2⟩, hi⟩
    have := mem_positions.1 hq
    apply hc
    refine ⟨hi, ?_, ?_⟩ <;> omega

/-- A raster of guarded plots completes if every candidate that passes the clip test decodes. -/
theorem raster_drawAt_completes {inside : Int → Int → Bool}
    {cand : Nat → Nat → Except Stop (Option Pen)} {x y : Int} {n : Nat}
    (hc : ∀ px py, px < n → py < n → inside (x + px) (y + py) = true →
      decodes (cand px py) = true) (f : Frame) :
    ∃ f', raster n (drawAt inside cand x y) f = .ok f' := by
  refine raster_completes ?_ f
  intro f px py hx hy
  unfold drawAt
  split
  · next hi =>
    have := hc px py hx hy hi
    cases hcand : cand px py with
    | error e => rw [hcand] at this; cases this
    | ok p => exact ⟨_, rfl⟩
  · exact ⟨f, rfl⟩

/-! ## Cells -/

theorem drawCell_pixel {c : Config} {d : Word} {x y : Int} {n : Nat} {f f' : Frame}
    (h : drawCell c d x y n f = .ok f') (X Y : Nat) :
    frameAt f' X Y =
      if tileInside c X Y = true ∧ (0 ≤ (X : Int) - x ∧ (X : Int) - x < n) ∧
          (0 ≤ (Y : Int) - y ∧ (Y : Int) - y < n) then
        overlay (opaquePen (tilePixel c d n ((X : Int) - x).toNat ((Y : Int) - y).toNat))
          (frameAt f X Y)
      else frameAt f X Y := by
  unfold drawCell at h
  split at h
  · next hr =>
    cases h
    rw [if_neg]
    rintro ⟨hi, hx, hy⟩
    have hs := tileInside_onScreen hi
    have := squareOutside_offScreen hr (px := ((X : Int) - x).toNat) (py := ((Y : Int) - y).toNat)
      (by omega) (by omega)
    omega
  · rw [drawTilePixel_eq] at h
    exact raster_drawAt_pixel (tileInside_keeps c) h X Y

theorem drawCell_completes {c : Config} {d : Word} {x y : Int} {n : Nat}
    (hc : ∀ px py, px < n → py < n → tileInside c (x + px) (y + py) = true →
      decodes (tilePixel c d n px py) = true) (f : Frame) : ∃ f', drawCell c d x y n f = .ok f' := by
  unfold drawCell
  split
  · exact ⟨f, rfl⟩
  · rw [drawTilePixel_eq]
    exact raster_drawAt_completes hc f

theorem cellSize_pos (c : Config) (t : Store) : 0 < cellSize c t := by
  unfold cellSize; split <;> decide

/-! ## Sprites -/

theorem drawSprite_pixel {c : Config} {w0 w1 : Word} {xoff : Int} {f f' : Frame}
    (h : drawSprite c w0 w1 xoff f = .ok f') (X Y : Nat) :
    frameAt f' X Y =
      (let sp := decodeSprite c w0 w1
       let x0 := sp.xs - xoff - spriteBias
       let y0 := sp.ys - spriteBias
       if spriteInside c X Y = true ∧ (0 ≤ (X : Int) - x0 ∧ (X : Int) - x0 < spriteSize) ∧
          (0 ≤ (Y : Int) - y0 ∧ (Y : Int) - y0 < spriteSize) then
        overlay (opaquePen (spritePixel c sp ((X : Int) - x0).toNat ((Y : Int) - y0).toNat))
          (frameAt f X Y)
       else frameAt f X Y) := by
  unfold drawSprite at h
  simp only at h ⊢
  split at h
  · next hr =>
    cases h
    rw [if_neg]
    rintro ⟨hi, hx, hy⟩
    have hs := spriteInside_onScreen hi
    have := squareOutside_offScreen hr
      (px := ((X : Int) - ((decodeSprite c w0 w1).xs - xoff - spriteBias)).toNat)
      (py := ((Y : Int) - ((decodeSprite c w0 w1).ys - spriteBias)).toNat) (by omega) (by omega)
    omega
  · rw [drawSpritePixel_eq] at h
    exact raster_drawAt_pixel (spriteInside_keeps c) h X Y

/-- One slot's sprite at one screen position: its sample over what was there. -/
theorem drawSlot_pixel {s : State} {scr : Screen} {k : Nat} {f f' : Frame}
    (h : drawSprite s.cfg (storeWord s.sprite (2 * k)) (storeWord s.sprite (2 * k + 1))
      (spriteXoff scr) f = .ok f') (X Y : Nat) :
    frameAt f' X Y = overlay (opaquePen (spriteSample s scr k X Y)) (frameAt f X Y) := by
  rw [drawSprite_pixel h X Y]
  unfold spriteSample
  simp only [Bool.and_eq_true, decide_eq_true_eq]
  split
  · next hc => rw [if_pos (by tauto)]
  · next hc => rw [if_neg (by tauto)]; rfl

theorem drawnSlots_upTo_succ (k : Nat) :
    (List.range (k + 1)).map (fun k => k + 1) = (List.range k).map (fun k => k + 1) ++ [k + 1] := by
  simp [List.range_succ]

/-- The walk at one screen position: the lowest slot with an opaque pixel, over what was there
(R108). -/
theorem walkSprites_pixel {s : State} {scr : Screen} {X Y : Nat} {k : Nat} {f f' : Frame}
    (h : walkSprites s.cfg s.sprite (spriteXoff scr) k f = .ok f') :
    frameAt f' X Y =
      overlay (((List.range k).map fun k => k + 1).findSome? fun k =>
        opaquePen (spriteSample s scr k X Y)) (frameAt f X Y) := by
  induction k generalizing f with
  | zero => cases h; rfl
  | succ k ih =>
    unfold walkSprites at h
    cases hd : drawSprite s.cfg (storeWord s.sprite (2 * (k + 1)))
        (storeWord s.sprite (2 * (k + 1) + 1)) (spriteXoff scr) f with
    | error e => rw [hd] at h; cases h
    | ok f1 =>
      rw [hd] at h
      rw [ih h, drawSlot_pixel hd X Y, drawnSlots_upTo_succ, List.findSome?_append]
      cases ((List.range k).map fun k => k + 1).findSome? fun k =>
        opaquePen (spriteSample s scr k X Y) with
      | some p => rfl
      | none =>
        cases hk : opaquePen (spriteSample s scr (k + 1) X Y) <;> simp [hk]

theorem drawSlot_completes {s : State} {scr : Screen} {k : Nat}
    (hc : ∀ X Y, X < s.cfg.screenW → Y < s.cfg.screenH →
      decodes (spriteSample s scr k X Y) = true) (f : Frame) :
    ∃ f', drawSprite s.cfg (storeWord s.sprite (2 * k)) (storeWord s.sprite (2 * k + 1))
      (spriteXoff scr) f = .ok f' := by
  unfold drawSprite
  simp only
  split
  · exact ⟨f, rfl⟩
  · rw [drawSpritePixel_eq]
    refine raster_drawAt_completes ?_ f
    intro px py hx hy hi
    have hs := spriteInside_onScreen hi
    generalize hx0 : (decodeSprite s.cfg (storeWord s.sprite (2 * k))
      (storeWord s.sprite (2 * k + 1))).xs - spriteXoff scr - spriteBias = x0 at *
    generalize hy0 : (decodeSprite s.cfg (storeWord s.sprite (2 * k))
      (storeWord s.sprite (2 * k + 1))).ys - spriteBias = y0 at *
    have hX : ((x0 + px).toNat : Int) = x0 + px := by omega
    have hY : ((y0 + py).toNat : Int) = y0 + py := by omega
    have := hc (x0 + px).toNat (y0 + py).toNat (by omega) (by omega)
    unfold spriteSample at this
    simp only [hX, hY, hx0, hy0] at this
    have e1 : (x0 + (px : Int) - x0).toNat = px := by omega
    have e2 : (y0 + (py : Int) - y0).toNat = py := by omega
    rw [if_pos, e1, e2] at this
    · exact this
    · simp only [hi, Bool.and_eq_true, decide_eq_true_eq, true_and]
      refine ⟨⟨⟨?_, ?_⟩, ?_⟩, ?_⟩ <;> omega

theorem walkSprites_completes {s : State} {scr : Screen} {n : Nat}
    (hc : ∀ k, k < n → ∀ X Y, X < s.cfg.screenW → Y < s.cfg.screenH →
      decodes (spriteSample s scr (k + 1) X Y) = true) (f : Frame) :
    ∃ f', walkSprites s.cfg s.sprite (spriteXoff scr) n f = .ok f' := by
  induction n generalizing f with
  | zero => exact ⟨f, rfl⟩
  | succ n ih =>
    obtain ⟨f1, h1⟩ := drawSlot_completes (hc n (by omega)) f
    obtain ⟨f', h'⟩ := ih (fun k hk => hc k (by omega)) f1
    exact ⟨f', by unfold walkSprites; rw [h1]; exact h'⟩

/-! ## Tilemaps -/

/-- The cell of the grid that covers screen position `(X, Y)`, and the place inside it. -/
theorem cell_covers {g n col : Nat} {x : Int} (hn : 0 < n) (hx : x = (g : Int) - (col * n : Nat)) :
    (0 ≤ x ∧ x < n) ↔ col = g / n := by
  have hdm := Nat.div_add_mod g n
  have hlt := Nat.mod_lt g hn
  constructor
  · rintro ⟨h0, h1⟩
    have h2 : col * n ≤ g := by omega
    have h3 : g < col * n + n := by omega
    rw [Nat.div_eq_of_lt_le h2 (by rw [Nat.succ_mul]; exact h3)]
  · intro h
    subst h
    have : g / n * n = n * (g / n) := Nat.mul_comm _ _
    omega

theorem cell_offset {g n : Nat} {x : Int} (hx : x = (g : Int) - (g / n * n : Nat)) :
    x.toNat = g % n := by
  have hdm := Nat.div_add_mod g n
  have : g / n * n = n * (g / n) := Nat.mul_comm _ _
  omega

/-- The cells of a list, drawn at one screen position: the pixel of the one cell that covers it, over what
was there (R104, R105). -/
theorem foldlM_gridCell_pixel {s : State} {t : BitVec 2} {l : List (Nat × Nat)} {f f' : Frame}
    (h : l.foldlM (m := Except (Halt Frame))
      (fun f q => drawGridCell s.cfg (quad s.tile t) (quad s.treg t) f q.1 q.2) f = .ok f')
    (X Y : Nat) :
    let n  := cellSize s.cfg (quad s.treg t)
    let gx := ((X : Int) + scrollX s.cfg (quad s.treg t)).toNat
    let gy := ((Y : Int) + scrollY s.cfg (quad s.treg t)).toNat
    frameAt f' X Y =
      if tileInside s.cfg X Y = true ∧ (gx / n, gy / n) ∈ l then
        overlay (opaquePen (tilePixel s.cfg
          (storeWord (quad s.tile t) (gy / n * gridSize + gx / n)) n (gx % n) (gy % n)))
          (frameAt f X Y)
      else frameAt f X Y := by
  simp only
  have hn := cellSize_pos s.cfg (quad s.treg t)
  have hsx : 0 ≤ scrollX s.cfg (quad s.treg t) := Int.natCast_nonneg _
  have hsy : 0 ≤ scrollY s.cfg (quad s.treg t) := Int.natCast_nonneg _
  generalize hnn : cellSize s.cfg (quad s.treg t) = n at hn
  generalize hsx' : scrollX s.cfg (quad s.treg t) = sx at hsx
  generalize hsy' : scrollY s.cfg (quad s.treg t) = sy at hsy
  generalize hgx : ((X : Int) + sx).toNat = gx
  generalize hgy : ((Y : Int) + sy).toNat = gy
  have hgx' : (X : Int) + sx = gx := by omega
  have hgy' : (Y : Int) + sy = gy := by omega
  have step : ∀ (f f' : Frame) (q : Nat × Nat),
      drawGridCell s.cfg (quad s.tile t) (quad s.treg t) f q.1 q.2 = .ok f' →
      frameAt f' X Y =
        if tileInside s.cfg X Y = true ∧ q.1 = gx / n ∧ q.2 = gy / n then
          overlay (opaquePen (tilePixel s.cfg
            (storeWord (quad s.tile t) (gy / n * gridSize + gx / n)) n (gx % n) (gy % n)))
            (frameAt f X Y)
        else frameAt f X Y := by
    intro f f' q hq
    unfold drawGridCell at hq
    simp only [hnn, hsx', hsy'] at hq
    rw [drawCell_pixel hq X Y]
    have ex : (X : Int) - ((q.1 * n : Nat) - sx) = (gx : Int) - (q.1 * n : Nat) := by omega
    have ey : (Y : Int) - ((q.2 * n : Nat) - sy) = (gy : Int) - (q.2 * n : Nat) := by omega
    rw [ex, ey]
    simp only [cell_covers hn rfl]
    split
    · next hc =>
      obtain ⟨_, h1, h2⟩ := hc
      rw [h1, h2, cell_offset rfl, cell_offset rfl]
    · rfl
  induction l generalizing f with
  | nil => cases h; simp
  | cons q l ih =>
    rw [foldlM_cons_eq] at h
    cases hd : drawGridCell s.cfg (quad s.tile t) (quad s.treg t) f q.1 q.2 with
    | error e => rw [hd] at h; cases h
    | ok f1 =>
      rw [hd] at h
      rw [ih h, step f f1 q hd]
      by_cases hi : tileInside s.cfg X Y = true
      · by_cases hq : q.1 = gx / n ∧ q.2 = gy / n
        · have hq' : (gx / n, gy / n) = q := by rw [← hq.1, ← hq.2]
          by_cases hl : (gx / n, gy / n) ∈ l
          · simp [hi, hq, hl]
          · simp [hi, ← hq', hl]
        · have hq' : (gx / n, gy / n) ≠ q := fun e => hq (by rw [← e]; exact ⟨rfl, rfl⟩)
          simp [hi, hq, hq']
      · simp [hi]

/-- A tilemap at one screen position: the sample of the one cell that covers it, over what was there
(R104, R105). -/
theorem drawMap_pixel {s : State} {t : BitVec 2} {f f' : Frame} (h : drawMap s t f = .ok f')
    (X Y : Nat) :
    frameAt f' X Y = overlay (opaquePen (tileSample s t X Y)) (frameAt f X Y) := by
  unfold drawMap drawTilemap at h
  rw [raster_eq_foldlM] at h
  have hn := cellSize_pos s.cfg (quad s.treg t)
  have hsx : 0 ≤ scrollX s.cfg (quad s.treg t) := Int.natCast_nonneg _
  have hsy : 0 ≤ scrollY s.cfg (quad s.treg t) := Int.natCast_nonneg _
  have hk := foldlM_gridCell_pixel h X Y
  simp only at hk
  rw [hk]
  unfold tileSample
  generalize hnn : cellSize s.cfg (quad s.treg t) = n at *
  generalize hsx' : scrollX s.cfg (quad s.treg t) = sx at *
  generalize hsy' : scrollY s.cfg (quad s.treg t) = sy at *
  generalize hgx : ((X : Int) + sx).toNat = gx at *
  generalize hgy : ((Y : Int) + sy).toNat = gy at *
  have hgx' : (X : Int) + sx = gx := by omega
  have hgy' : (Y : Int) + sy = gy := by omega
  simp only [hnn, hsx', hsy', hgx', hgy', Int.toNat_natCast, Bool.and_eq_true, decide_eq_true_eq,
    mem_positions]
  have b1 : (gx / n < gridSize) ↔ ((gx : Int) < (gridSize : Int) * n) := by
    rw [Nat.div_lt_iff_lt_mul hn]; exact_mod_cast Iff.rfl
  have b2 : (gy / n < gridSize) ↔ ((gy : Int) < (gridSize : Int) * n) := by
    rw [Nat.div_lt_iff_lt_mul hn]; exact_mod_cast Iff.rfl
  simp only [b1, b2]
  split
  · next hc => rw [if_pos (by tauto)]
  · next hc => rw [if_neg (by tauto)]; rfl

/-- A place of the grid gives back its cell and its place in the cell. -/
theorem cell_place {n a b : Nat} (hb : b < n) : (a * n + b) / n = a ∧ (a * n + b) % n = b := by
  rw [Nat.mul_comm, Nat.mul_add_div (by omega), Nat.div_eq_of_lt hb, Nat.add_zero, Nat.mul_add_mod,
    Nat.mod_eq_of_lt hb]
  exact ⟨rfl, rfl⟩

/-- The sample of a tilemap at the screen position of place `(px, py)` of cell `(col, row)`: that cell's
pixel (R104). -/
theorem tileSample_at {s : State} {t : BitVec 2} {col row px py X Y : Nat} (hcol : col < gridSize)
    (hrow : row < gridSize)
    (hx : px < cellSize s.cfg (quad s.treg t)) (hy : py < cellSize s.cfg (quad s.treg t))
    (hX : (X : Int) + scrollX s.cfg (quad s.treg t)
      = ((col * cellSize s.cfg (quad s.treg t) + px : Nat) : Int))
    (hY : (Y : Int) + scrollY s.cfg (quad s.treg t)
      = ((row * cellSize s.cfg (quad s.treg t) + py : Nat) : Int))
    (hi : tileInside s.cfg X Y = true) :
    tileSample s t X Y = tilePixel s.cfg (storeWord (quad s.tile t) (row * gridSize + col))
        (cellSize s.cfg (quad s.treg t)) px py
      ∧ tileTurn s t (X, Y)
        = (row * gridSize + col, py * cellSize s.cfg (quad s.treg t) + px) := by
  unfold tileSample tileTurn
  simp only [hX, hY, Int.toNat_natCast]
  generalize cellSize s.cfg (quad s.treg t) = n at *
  have b : ∀ {a b : Nat}, a < gridSize → b < n → ((a * n + b : Nat) : Int) < (gridSize : Int) * n :=
    fun {a b} ha hb => by
      have : (a + 1) * n ≤ gridSize * n := Nat.mul_le_mul_right n ha
      rw [Nat.succ_mul] at this
      have h' : a * n + b < gridSize * n := by omega
      exact_mod_cast h'
  rw [(cell_place hx).1, (cell_place hx).2, (cell_place hy).1, (cell_place hy).2, if_pos]
  · exact ⟨rfl, rfl⟩
  · simp only [hi, Bool.and_eq_true, decide_eq_true_eq, true_and]
    exact ⟨b hcol hx, b hrow hy⟩

theorem drawMap_completes {s : State} {t : BitVec 2}
    (hc : ∀ X Y, X < s.cfg.screenW → Y < s.cfg.screenH →
      decodes (tileSample s t X Y) = true) (f : Frame) : ∃ f', drawMap s t f = .ok f' := by
  unfold drawMap drawTilemap
  refine raster_completes ?_ f
  intro f col row hcol hrow
  refine drawCell_completes ?_ f
  intro px py hx hy hi
  have hs := tileInside_onScreen hi
  generalize hX : (((col * cellSize s.cfg (quad s.treg t) : Nat) : Int)
    - scrollX s.cfg (quad s.treg t) + px).toNat = X
  generalize hY : (((row * cellSize s.cfg (quad s.treg t) : Nat) : Int)
    - scrollY s.cfg (quad s.treg t) + py).toNat = Y
  rw [← (tileSample_at (s := s) (t := t) (X := X) (Y := Y) hcol hrow hx hy (by omega) (by omega)
    ?_).1]
  · exact hc X Y (by omega) (by omega)
  · rw [← hi]
    congr 1 <;> omega

/-- A cell that was drawn decoded each of its pixels that passes the clip test. -/
theorem drawCell_decodes {c : Config} {d : Word} {x y : Int} {n : Nat} {f f' : Frame}
    (h : drawCell c d x y n f = .ok f') {px py : Nat} (hx : px < n) (hy : py < n)
    (hi : tileInside c (x + px) (y + py) = true) : decodes (tilePixel c d n px py) = true := by
  unfold drawCell at h
  split at h
  · next hr => exact absurd (tileInside_onScreen hi) (squareOutside_offScreen hr hx hy)
  · obtain ⟨g, g', hg⟩ := raster_each h hx hy
    unfold drawTilePixel at hg
    rw [if_pos hi] at hg
    cases hp : tilePixel c d n px py with
    | error e => rw [hp] at hg; cases hg
    | ok p => rfl

/-- A tilemap that was drawn decoded every position it samples: the converse of `drawMap_completes`. -/
theorem drawMap_decodes {s : State} {t : BitVec 2} {f f' : Frame} (h : drawMap s t f = .ok f')
    (X Y : Nat) : decodes (tileSample s t X Y) = true := by
  unfold tileSample
  simp only [Bool.and_eq_true, decide_eq_true_eq]
  split
  · next hc =>
    obtain ⟨⟨hi, hgx⟩, hgy⟩ := hc
    have hn := cellSize_pos s.cfg (quad s.treg t)
    have hsx : 0 ≤ scrollX s.cfg (quad s.treg t) := Int.natCast_nonneg _
    have hsy : 0 ≤ scrollY s.cfg (quad s.treg t) := Int.natCast_nonneg _
    unfold drawMap drawTilemap at h
    generalize hgx' : ((X : Int) + scrollX s.cfg (quad s.treg t)).toNat = gx
    generalize hgy' : ((Y : Int) + scrollY s.cfg (quad s.treg t)).toNat = gy
    generalize hnn : cellSize s.cfg (quad s.treg t) = n at *
    have bound : ∀ g : Nat, (g : Int) < (gridSize : Int) * n → g / n < gridSize := by
      intro g hg
      rw [Nat.div_lt_iff_lt_mul hn]
      exact_mod_cast hg
    obtain ⟨g, g', hg⟩ := raster_each h (bound gx (by omega)) (bound gy (by omega))
    unfold drawGridCell at hg
    simp only [hnn] at hg
    refine drawCell_decodes hg (Nat.mod_lt gx hn) (Nat.mod_lt gy hn) ?_
    have ex := Nat.div_add_mod gx n
    have ey := Nat.div_add_mod gy n
    rw [Nat.mul_comm] at ex ey
    have e1 : ((gx / n * n : Nat) : Int) - scrollX s.cfg (quad s.treg t) + (gx % n : Nat) = X := by
      omega
    have e2 : ((gy / n * n : Nat) : Int) - scrollY s.cfg (quad s.treg t) + (gy % n : Nat) = Y := by
      omega
    rw [e1, e2]
    exact hi
  · rfl

end Sys2Proof.Machine
end

