-- ==== Sys2Proof/Laws/Stopped.lean ====
section
/-! SUPPORT. What a draw that stopped has drawn, and where it stopped: a square, a tilemap, a sprite, the
walk, a whole refresh (60_exceptions.md R144, R148); and what a blit that stopped has run. -/

namespace Sys2Proof.Machine

/-! ## The order of a raster -/

theorem spriteBefore_iff {q p : Nat × Nat} :
    spriteBefore q p = true ↔ q.2 < p.2 ∨ q.2 = p.2 ∧ q.1 < p.1 := by
  simp [spriteBefore]

theorem positions_sorted (n : Nat) :
    (positions n).Pairwise fun q p => spriteBefore q p = true := by
  unfold positions
  rw [List.pairwise_flatMap]
  constructor
  · intro py _
    rw [List.pairwise_map]
    refine List.pairwise_lt_range.imp ?_
    intro a b h
    exact spriteBefore_iff.2 (.inr ⟨rfl, h⟩)
  · refine List.pairwise_lt_range.imp fun h q hq p hp => ?_
    simp only [List.mem_map] at hq hp
    obtain ⟨_, _, rfl⟩ := hq
    obtain ⟨_, _, rfl⟩ := hp
    exact spriteBefore_iff.2 (.inl h)

/-- What a raster that is at position `p` has passed: the positions before `p`. -/
theorem mem_passed {n : Nat} {l1 l2 : List (Nat × Nat)} {p : Nat × Nat}
    (h : positions n = l1 ++ p :: l2) (q : Nat × Nat) :
    q ∈ l1 ↔ (q.1 < n ∧ q.2 < n) ∧ spriteBefore q p = true := by
  have hs := positions_sorted n
  rw [← mem_positions, h]
  rw [h, List.pairwise_append, List.pairwise_cons] at hs
  obtain ⟨_, ⟨hp, _⟩, hl⟩ := hs
  simp only [spriteBefore_iff] at *
  constructor
  · intro hq
    exact ⟨by simp [hq], hl q hq p (by simp)⟩
  · rintro ⟨hq, hb⟩
    simp only [List.mem_append, List.mem_cons] at hq
    rcases hq with hq | rfl | hq
    · exact hq
    · omega
    · have := hp q hq
      omega

/-! ## Squares -/

/-- A guarded plot that stops: its candidate could not be decoded, and nothing is plotted. -/
theorem drawAt_error {inside : Int → Int → Bool} {cand : Nat → Nat → Except Stop (Option Pen)}
    {x y : Int} {f : Frame} {px py : Nat} {e : Halt Frame}
    (h : drawAt inside cand x y f px py = .error e) :
    inside (x + px) (y + py) = true ∧ cand px py = .error e.stop ∧ e.left = f := by
  unfold drawAt at h
  split at h
  · next hi =>
    cases hc : cand px py with
    | error e' => rw [hc] at h; cases h; exact ⟨hi, rfl, rfl⟩
    | ok p => rw [hc] at h; cases h
  · cases h

/-- The candidate of a square at a screen position, none outside the square or the clip test. -/
def squareSample (inside : Int → Int → Bool) (cand : Nat → Nat → Except Stop (Option Pen)) (x y : Int)
    (n X Y : Nat) : Except Stop (Option Pen) :=
  let dx := (X : Int) - x
  let dy := (Y : Int) - y
  if inside X Y && decide (0 ≤ dx) && decide (dx < n) && decide (0 ≤ dy) && decide (dy < n) then
    cand dx.toNat dy.toNat
  else .ok none

theorem squareSample_at {inside : Int → Int → Bool} {cand : Nat → Nat → Except Stop (Option Pen)}
    {x y : Int} {n X Y : Nat} {q : Nat × Nat} (hq : q.1 < n ∧ q.2 < n) (hh : Hits x y q X Y)
    (hi : inside X Y = true) : squareSample inside cand x y n X Y = cand q.1 q.2 := by
  obtain ⟨h1, h2⟩ := hh
  unfold squareSample
  have e1 : ((X : Int) - x).toNat = q.1 := by omega
  have e2 : ((Y : Int) - y).toNat = q.2 := by omega
  simp only
  rw [if_pos, e1, e2]
  simp only [hi, Bool.and_eq_true, decide_eq_true_eq, true_and]
  omega

/-- A screen position is hit by one position of the square, or has no candidate. -/
theorem squareSample_cases (inside : Int → Int → Bool) (cand : Nat → Nat → Except Stop (Option Pen))
    (x y : Int) (n X Y : Nat) :
    (∃ q : Nat × Nat, (q.1 < n ∧ q.2 < n) ∧ Hits x y q X Y ∧ inside X Y = true) ∨
      (¬(∃ q : Nat × Nat, (q.1 < n ∧ q.2 < n) ∧ Hits x y q X Y ∧ inside X Y = true) ∧
        squareSample inside cand x y n X Y = .ok none) := by
  unfold squareSample
  simp only [Bool.and_eq_true, decide_eq_true_eq]
  split
  · next h =>
    refine .inl ⟨(((X : Int) - x).toNat, ((Y : Int) - y).toNat), ?_, ?_, h.1.1.1.1⟩
    · constructor <;> simp only <;> omega
    · constructor <;> simp only <;> omega
  · next h =>
    refine .inr ⟨?_, rfl⟩
    rintro ⟨q, hq, ⟨h1, h2⟩, hi⟩
    refine h ⟨⟨⟨⟨hi, ?_⟩, ?_⟩, ?_⟩, ?_⟩ <;> omega

/-- A square that was drawn decoded each of its samples. -/
theorem raster_drawAt_decodes {inside : Int → Int → Bool}
    {cand : Nat → Nat → Except Stop (Option Pen)} {x y : Int} {n : Nat} {f f' : Frame}
    (h : raster n (drawAt inside cand x y) f = .ok f') (X Y : Nat) :
    decodes (squareSample inside cand x y n X Y) = true := by
  rcases squareSample_cases inside cand x y n X Y with ⟨q, hq, hh, hi⟩ | ⟨_, h0⟩
  · rw [squareSample_at hq hh hi]
    obtain ⟨g, g', hg⟩ := raster_each h hq.1 hq.2
    unfold drawAt at hg
    rw [hh.1, hh.2, if_pos hi] at hg
    cases hc : cand q.1 q.2 with
    | error e => rw [hc] at hg; cases hg
    | ok p => rfl
  · rw [h0]; rfl

/-- All a raster of guarded plots can do when it stops: it stops at the first screen position whose
sample cannot be decoded, and has drawn the positions before it. -/
theorem raster_drawAt_error {c : Config} {inside : Int → Int → Bool} (hin : KeepsOnScreen c inside)
    {cand : Nat → Nat → Except Stop (Option Pen)} {x y : Int} {n : Nat} {f : Frame} {e : Halt Frame}
    (h : raster n (drawAt inside cand x y) f = .error e) :
    ∃ P : Nat × Nat, squareSample inside cand x y n P.1 P.2 = .error e.stop ∧
      (∀ Q : Nat × Nat, spriteBefore Q P = true →
        decodes (squareSample inside cand x y n Q.1 Q.2) = true) ∧
      ∀ X Y, frameAt e.left X Y =
        overlay (if spriteBefore (X, Y) P then opaquePen (squareSample inside cand x y n X Y) else none)
          (frameAt f X Y) := by
  rw [raster_eq_foldlM] at h
  obtain ⟨l1, p, l2, f1, hl, h1, h2⟩ := foldlM_error h
  obtain ⟨hi, hc, hf⟩ := drawAt_error h2
  have hp : p.1 < n ∧ p.2 < n := mem_positions.1 (by rw [hl]; simp)
  have hs := hin _ _ hi
  have hP : Hits x y p (x + p.1).toNat (y + p.2).toNat := by constructor <;> omega
  -- a position of the square comes before `p` as its screen position does before `P`
  have hb : ∀ {q : Nat × Nat} {X Y : Nat}, Hits x y q X Y →
      (spriteBefore q p = true ↔
        spriteBefore (X, Y) ((x + p.1).toNat, (y + p.2).toNat) = true) := by
    rintro q X Y ⟨_, _⟩
    obtain ⟨_, _⟩ := hP
    simp only [spriteBefore_iff]
    omega
  refine ⟨((x + p.1).toNat, (y + p.2).toNat), ?_, ?_, ?_⟩
  · rw [squareSample_at hp hP (by rw [← hP.1, ← hP.2]; exact hi), hc]
  · rintro ⟨X, Y⟩ hQ
    rcases squareSample_cases inside cand x y n X Y with ⟨q, hq, hh, hi'⟩ | ⟨_, h0⟩
    · simp only
      rw [squareSample_at hq hh hi']
      obtain ⟨g, g', hg⟩ := foldlM_each h1 ((mem_passed hl q).2 ⟨hq, (hb hh).2 hQ⟩)
      unfold drawAt at hg
      rw [hh.1, hh.2, if_pos hi'] at hg
      cases hd : cand q.1 q.2 with
      | error e' => rw [hd] at hg; cases hg
      | ok r => rfl
    · simp only [h0]; rfl
  · intro X Y
    obtain ⟨k1, k2⟩ := foldlM_drawAt_pixel hin h1 X Y
    rw [hf]
    rcases squareSample_cases inside cand x y n X Y with ⟨q, hq, hh, hi'⟩ | ⟨hno, h0⟩
    · rw [squareSample_at hq hh hi']
      have e1 : ((X : Int) - x).toNat = q.1 := by have := hh.1; omega
      have e2 : ((Y : Int) - y).toNat = q.2 := by have := hh.2; omega
      split
      · next hbef =>
        rw [k1 ⟨q, (mem_passed hl q).2 ⟨hq, (hb hh).2 hbef⟩, hh, hi'⟩, e1, e2]
      · next hbef =>
        rw [k2, overlay_none]
        rintro ⟨q', hq', hh', _⟩
        exact hbef ((hb hh').1 ((mem_passed hl q').1 hq').2)
    · rw [h0, k2 fun ⟨q, hq, hh⟩ => hno ⟨q, ((mem_passed hl q).1 hq).1, hh⟩]
      split <;> rfl

/-! ## Sprites -/

theorem spriteSample_eq (s : State) (scr : Screen) (k X Y : Nat) :
    spriteSample s scr k X Y =
      (let sp := decodeSprite s.cfg (storeWord s.sprite (2 * k)) (storeWord s.sprite (2 * k + 1))
       squareSample (spriteInside s.cfg) (spritePixel s.cfg sp) (sp.xs - spriteXoff scr - spriteBias)
         (sp.ys - spriteBias) spriteSize X Y) := rfl

/-- A slot whose sprite was drawn decoded each of its pixels. -/
theorem drawSlot_decodes {s : State} {scr : Screen} {k : Nat} {f f' : Frame}
    (h : drawSprite s.cfg (storeWord s.sprite (2 * k)) (storeWord s.sprite (2 * k + 1))
      (spriteXoff scr) f = .ok f') : slotDecodes s scr k := by
  intro X Y
  rw [spriteSample_eq]
  unfold drawSprite at h
  simp only at h ⊢
  split at h
  · next hr =>
    generalize (decodeSprite s.cfg (storeWord s.sprite (2 * k))
      (storeWord s.sprite (2 * k + 1))).xs - spriteXoff scr - spriteBias = x0 at *
    generalize (decodeSprite s.cfg (storeWord s.sprite (2 * k))
      (storeWord s.sprite (2 * k + 1))).ys - spriteBias = y0 at *
    rcases squareSample_cases (spriteInside s.cfg) (spritePixel s.cfg (decodeSprite s.cfg
      (storeWord s.sprite (2 * k)) (storeWord s.sprite (2 * k + 1)))) x0 y0 spriteSize X Y with
      ⟨q, hq, ⟨h1, h2⟩, hi⟩ | ⟨_, h0⟩
    · have hs := spriteInside_onScreen hi
      have := squareOutside_offScreen hr hq.1 hq.2
      omega
    · rw [h0]; rfl
  · exact raster_drawAt_decodes h X Y

/-- All a slot's sprite can do when it stops. -/
theorem drawSlot_error {s : State} {scr : Screen} {k : Nat} {f : Frame} {e : Halt Frame}
    (h : drawSprite s.cfg (storeWord s.sprite (2 * k)) (storeWord s.sprite (2 * k + 1))
      (spriteXoff scr) f = .error e) :
    ∃ P, slotStops s scr k P e.stop ∧
      ∀ X Y, frameAt e.left X Y = overlay (partSlot s scr k P X Y) (frameAt f X Y) := by
  unfold drawSprite at h
  simp only at h
  split at h
  · cases h
  · obtain ⟨P, h1, h2, h3⟩ := raster_drawAt_error (spriteInside_keeps s.cfg) h
    exact ⟨P, ⟨h1, h2⟩, h3⟩

/-- All the walk can do when it stops: it stops in one slot, and has drawn the sprites above it. -/
theorem walkSprites_error {s : State} {scr : Screen} {n : Nat} {f : Frame} {e : Halt Frame}
    (h : walkSprites s.cfg s.sprite (spriteXoff scr) n f = .error e) :
    ∃ k, 0 < k ∧ k ≤ n ∧ ∃ P, slotStops s scr k P e.stop ∧
      (∀ j, k < j → j ≤ n → slotDecodes s scr j) ∧
      ∀ X Y, frameAt e.left X Y =
        overlay (partSlot s scr k P X Y) (overlay
          ((((List.range n).map fun k => k + 1).filter fun j => decide (k < j)).findSome? fun j =>
            opaquePen (spriteSample s scr j X Y)) (frameAt f X Y)) := by
  induction n generalizing f with
  | zero => cases h
  | succ n ih =>
    unfold walkSprites at h
    cases hd : drawSprite s.cfg (storeWord s.sprite (2 * (n + 1)))
        (storeWord s.sprite (2 * (n + 1) + 1)) (spriteXoff scr) f with
    | error e' =>
      rw [hd] at h
      cases h
      obtain ⟨P, hP, hpix⟩ := drawSlot_error hd
      refine ⟨n + 1, by omega, by omega, P, hP, fun j _ _ => by omega, fun X Y => ?_⟩
      rw [hpix, List.filter_eq_nil_iff.2]
      · rfl
      · simp
    | ok f1 =>
      rw [hd] at h
      obtain ⟨k, h0, hk, P, hP, hdec, hpix⟩ := ih h
      refine ⟨k, h0, by omega, P, hP, fun j hj hjn => ?_, fun X Y => ?_⟩
      · rcases Nat.lt_or_ge n j with hlt | hle
        · obtain rfl : j = n + 1 := by omega
          exact drawSlot_decodes hd
        · exact hdec j hj hle
      · rw [hpix, drawSlot_pixel hd X Y, drawnSlots_upTo_succ, List.filter_append,
          List.findSome?_append]
        cases (((List.range n).map fun k => k + 1).filter fun j => decide (k < j)).findSome? fun j =>
          opaquePen (spriteSample s scr j X Y) with
        | some p => rfl
        | none =>
          cases hs : opaquePen (spriteSample s scr (n + 1) X Y) <;>
            simp [Nat.lt_succ_of_le hk, hs]

theorem walkSprites_decodes {s : State} {scr : Screen} {n : Nat} {f f' : Frame}
    (h : walkSprites s.cfg s.sprite (spriteXoff scr) n f = .ok f') {k : Nat} (h0 : 0 < k)
    (hk : k ≤ n) : slotDecodes s scr k := by
  induction n generalizing f with
  | zero => omega
  | succ n ih =>
    unfold walkSprites at h
    cases hd : drawSprite s.cfg (storeWord s.sprite (2 * (n + 1)))
        (storeWord s.sprite (2 * (n + 1) + 1)) (spriteXoff scr) f with
    | error e => rw [hd] at h; cases h
    | ok f1 =>
      rw [hd] at h
      rcases Nat.lt_or_ge n k with hlt | hle
      · obtain rfl : k = n + 1 := by omega
        exact drawSlot_decodes hd
      · exact ih h hle

/-! ## Tilemaps -/

theorem tileBefore_iff {s : State} {t : BitVec 2} {q p : Nat × Nat} :
    tileBefore s t q p = true ↔ (tileTurn s t q).1 < (tileTurn s t p).1 ∨
      (tileTurn s t q).1 = (tileTurn s t p).1 ∧ (tileTurn s t q).2 < (tileTurn s t p).2 := by
  simp [tileBefore]

/-- A screen position is drawn by one place of one cell of the grid, or has no candidate. -/
theorem tileSample_cases (s : State) (t : BitVec 2) (X Y : Nat) :
    (∃ col row px py, (col < gridSize ∧ row < gridSize) ∧
      (px < cellSize s.cfg (quad s.treg t) ∧ py < cellSize s.cfg (quad s.treg t)) ∧
      (X : Int) + scrollX s.cfg (quad s.treg t)
        = ((col * cellSize s.cfg (quad s.treg t) + px : Nat) : Int) ∧
      (Y : Int) + scrollY s.cfg (quad s.treg t)
        = ((row * cellSize s.cfg (quad s.treg t) + py : Nat) : Int) ∧
      tileInside s.cfg X Y = true) ∨
    (¬(tileInside s.cfg X Y = true ∧
        (((X : Int) + scrollX s.cfg (quad s.treg t)).toNat / cellSize s.cfg (quad s.treg t),
          ((Y : Int) + scrollY s.cfg (quad s.treg t)).toNat / cellSize s.cfg (quad s.treg t))
          ∈ positions gridSize) ∧
      tileSample s t X Y = .ok none) := by
  have hn := cellSize_pos s.cfg (quad s.treg t)
  have hsx : 0 ≤ scrollX s.cfg (quad s.treg t) := Int.natCast_nonneg _
  have hsy : 0 ≤ scrollY s.cfg (quad s.treg t) := Int.natCast_nonneg _
  unfold tileSample
  generalize hgx : ((X : Int) + scrollX s.cfg (quad s.treg t)).toNat = gx
  generalize hgy : ((Y : Int) + scrollY s.cfg (quad s.treg t)).toNat = gy
  have ex : (X : Int) + scrollX s.cfg (quad s.treg t) = gx := by omega
  have ey : (Y : Int) + scrollY s.cfg (quad s.treg t) = gy := by omega
  simp only [ex, ey, Bool.and_eq_true, decide_eq_true_eq, mem_positions]
  generalize cellSize s.cfg (quad s.treg t) = n at *
  have bound : ∀ g : Nat, g / n < gridSize ↔ (g : Int) < (gridSize : Int) * n := fun g => by
    rw [Nat.div_lt_iff_lt_mul hn]; exact_mod_cast Iff.rfl
  simp only [bound]
  split
  · next hc =>
    refine .inl ⟨gx / n, gy / n, gx % n, gy % n, ⟨(bound _).2 hc.1.2, (bound _).2 hc.2⟩,
      ⟨Nat.mod_lt _ hn, Nat.mod_lt _ hn⟩, ?_, ?_, hc.1.1⟩
    · rw [Nat.mul_comm, Nat.div_add_mod]
    · rw [Nat.mul_comm, Nat.div_add_mod]
  · next hc => exact .inr ⟨fun h => hc ⟨⟨h.1, h.2.1⟩, h.2.2⟩, rfl⟩

/-- The sample of a cell at a screen position of its square is that of its tilemap. -/
theorem cellSample_at {s : State} {t : BitVec 2} {col row px py X Y : Nat} (hcol : col < gridSize)
    (hrow : row < gridSize)
    (hx : px < cellSize s.cfg (quad s.treg t)) (hy : py < cellSize s.cfg (quad s.treg t))
    (hX : (X : Int) + scrollX s.cfg (quad s.treg t)
      = ((col * cellSize s.cfg (quad s.treg t) + px : Nat) : Int))
    (hY : (Y : Int) + scrollY s.cfg (quad s.treg t)
      = ((row * cellSize s.cfg (quad s.treg t) + py : Nat) : Int))
    (hi : tileInside s.cfg X Y = true) :
    squareSample (tileInside s.cfg)
      (tilePixel s.cfg (storeWord (quad s.tile t) (row * gridSize + col))
        (cellSize s.cfg (quad s.treg t)))
      ((col * cellSize s.cfg (quad s.treg t) : Nat) - scrollX s.cfg (quad s.treg t))
      ((row * cellSize s.cfg (quad s.treg t) : Nat) - scrollY s.cfg (quad s.treg t))
      (cellSize s.cfg (quad s.treg t)) X Y = tileSample s t X Y := by
  rw [(tileSample_at hcol hrow hx hy hX hY hi).1,
    squareSample_at (q := (px, py)) ⟨hx, hy⟩ (by constructor <;> simp only <;> omega) hi]

/-- A place of the grid comes before another: its cell does, or it is an earlier place of that cell. -/
theorem placeBefore_iff {n col row px py col' row' px' py' : Nat}
    (h : (col < gridSize ∧ row < gridSize) ∧ px < n ∧ py < n)
    (h' : (col' < gridSize ∧ row' < gridSize) ∧ px' < n ∧ py' < n) :
    (row * gridSize + col < row' * gridSize + col' ∨
      row * gridSize + col = row' * gridSize + col' ∧ py * n + px < py' * n + px') ↔
    (spriteBefore (col, row) (col', row') = true ∨
      (col = col' ∧ row = row') ∧ spriteBefore (px, py) (px', py') = true) := by
  simp only [spriteBefore_iff]
  have key : ∀ {m a b a' b' : Nat}, b < m → b' < m →
      (a * m + b < a' * m + b' ↔ a < a' ∨ a = a' ∧ b < b') := by
    intro m a b a' b' hb hb'
    constructor
    · intro hlt
      rcases Nat.lt_trichotomy a a' with h | h | h
      · exact .inl h
      · subst h; exact .inr ⟨rfl, by omega⟩
      · have : (a' + 1) * m ≤ a * m := Nat.mul_le_mul_right m h
        rw [Nat.succ_mul] at this
        omega
    · rintro (h | ⟨rfl, h⟩)
      · have : (a + 1) * m ≤ a' * m := Nat.mul_le_mul_right m h
        rw [Nat.succ_mul] at this
        omega
      · omega
  rw [key h.2.1 h'.2.1]
  simp only [gridSize] at *
  omega

/-- All a tilemap can do when it stops. -/
theorem drawMap_error {s : State} {t : BitVec 2} {f : Frame} {e : Halt Frame}
    (h : drawMap s t f = .error e) :
    ∃ P, tileStops s t P e.stop ∧
      ∀ X Y, frameAt e.left X Y = overlay (partTile s t P X Y) (frameAt f X Y) := by
  unfold drawMap drawTilemap at h
  rw [raster_eq_foldlM] at h
  obtain ⟨l1, ⟨c, r⟩, l2, f1, hl, h1, h2⟩ := foldlM_error h
  have hc : c < gridSize ∧ r < gridSize := by
    have : (c, r) ∈ positions gridSize := by rw [hl]; simp
    exact mem_positions.1 this
  unfold drawGridCell drawCell at h2
  simp only at h2
  split at h2
  · cases h2
  rw [drawTilePixel_eq] at h2
  obtain ⟨⟨X0, Y0⟩, hstop, hbefore, hpix⟩ := raster_drawAt_error (tileInside_keeps s.cfg) h2
  rcases squareSample_cases (tileInside s.cfg) _ _ _ _ X0 Y0 with ⟨q, hq, ⟨hx, hy⟩, hi⟩ | ⟨_, h0⟩
  swap
  · rw [h0] at hstop; cases hstop
  have hX0 : (X0 : Int) + scrollX s.cfg (quad s.treg t)
      = ((c * cellSize s.cfg (quad s.treg t) + q.1 : Nat) : Int) := by omega
  have hY0 : (Y0 : Int) + scrollY s.cfg (quad s.treg t)
      = ((r * cellSize s.cfg (quad s.treg t) + q.2 : Nat) : Int) := by omega
  -- what comes before the stop: an earlier cell, or an earlier pixel of the cell
  have hbef : ∀ {col row px py X Y : Nat}, (col < gridSize ∧ row < gridSize) →
      (px < cellSize s.cfg (quad s.treg t) ∧ py < cellSize s.cfg (quad s.treg t)) →
      (X : Int) + scrollX s.cfg (quad s.treg t)
        = ((col * cellSize s.cfg (quad s.treg t) + px : Nat) : Int) →
      (Y : Int) + scrollY s.cfg (quad s.treg t)
        = ((row * cellSize s.cfg (quad s.treg t) + py : Nat) : Int) →
      tileInside s.cfg X Y = true →
      (tileBefore s t (X, Y) (X0, Y0) = true ↔
        (col, row) ∈ l1 ∨ (col, row) = (c, r) ∧ spriteBefore (X, Y) (X0, Y0) = true) := by
    intro col row px py X Y hcr hp hX hY hi'
    rw [tileBefore_iff, (tileSample_at hcr.1 hcr.2 hp.1 hp.2 hX hY hi').2,
      (tileSample_at hc.1 hc.2 hq.1 hq.2 hX0 hY0 hi).2, placeBefore_iff ⟨hcr, hp⟩ ⟨hc, hq⟩,
      mem_passed hl (col, row)]
    refine or_congr ⟨fun h => ⟨hcr, h⟩, fun h => h.2⟩ ?_
    rw [Prod.mk.injEq]
    refine and_congr_right fun he => ?_
    obtain ⟨rfl, rfl⟩ := he
    simp only [spriteBefore_iff]
    omega
  refine ⟨(X0, Y0), ⟨?_, ?_⟩, ?_⟩
  · rw [← cellSample_at hc.1 hc.2 hq.1 hq.2 hX0 hY0 hi]
    exact hstop
  · rintro ⟨X, Y⟩ hQ
    rcases tileSample_cases s t X Y with ⟨col, row, px, py, hcr, hp, hX, hY, hi'⟩ | ⟨_, h0⟩
    · rcases (hbef hcr hp hX hY hi').1 hQ with hmem | ⟨he, hb⟩
      · obtain ⟨g, g', hg⟩ := foldlM_each h1 hmem
        unfold drawGridCell at hg
        simp only at hg
        rw [(tileSample_at hcr.1 hcr.2 hp.1 hp.2 hX hY hi').1]
        refine drawCell_decodes hg hp.1 hp.2 ?_
        rw [← hi']
        congr 1 <;> omega
      · cases he
        rw [← cellSample_at hcr.1 hcr.2 hp.1 hp.2 hX hY hi']
        exact hbefore (X, Y) hb
    · simp only [h0]; rfl
  · intro X Y
    have hk := foldlM_gridCell_pixel h1 X Y
    simp only at hk
    have hsq := squareSample_cases (tileInside s.cfg) (tilePixel s.cfg
      (storeWord (quad s.tile t) (r * gridSize + c)) (cellSize s.cfg (quad s.treg t)))
      ((c * cellSize s.cfg (quad s.treg t) : Nat) - scrollX s.cfg (quad s.treg t))
      ((r * cellSize s.cfg (quad s.treg t) : Nat) - scrollY s.cfg (quad s.treg t))
      (cellSize s.cfg (quad s.treg t)) X Y
    have hnot : (c, r) ∉ l1 := fun hm => by
      have := spriteBefore_iff.1 ((mem_passed hl _).1 hm).2
      omega
    rw [hpix X Y, hk]
    unfold partTile
    rcases tileSample_cases s t X Y with ⟨col, row, px, py, hcr, hp, hX, hY, hi'⟩ | ⟨hno, h0⟩
    · have hat := tileSample_at hcr.1 hcr.2 hp.1 hp.2 hX hY hi'
      simp only [hX, hY, Int.toNat_natCast, (cell_place hp.1).1, (cell_place hp.1).2,
        (cell_place hp.2).1, (cell_place hp.2).2, ← hat.1, hi', true_and,
        hbef hcr hp hX hY hi']
      by_cases he : (col, row) = (c, r)
      · cases he
        rw [cellSample_at hcr.1 hcr.2 hp.1 hp.2 hX hY hi']
        simp [hnot]
      · rcases hsq with ⟨q', hq', ⟨hx', hy'⟩, _⟩ | ⟨_, h0'⟩
        · refine absurd ?_ he
          have hat' := (tileSample_at (X := X) (Y := Y) hc.1 hc.2 hq'.1 hq'.2 (by omega) (by omega)
            hi').2
          have := congrArg Prod.fst (hat.2.symm.trans hat')
          simp only [gridSize] at this hc hcr
          rw [Prod.mk.injEq]
          omega
        · rw [h0']
          by_cases hm : (col, row) ∈ l1 <;> simp [hm, he, opaquePen]
    · rw [h0, if_neg (c := _ ∧ _) fun h => hno ⟨h.1, by rw [hl]; exact List.mem_append_left _ h.2⟩]
      rcases hsq with ⟨q', hq', ⟨hx', hy'⟩, hi'⟩ | ⟨_, h0'⟩
      · rw [cellSample_at hc.1 hc.2 hq'.1 hq'.2 (by omega) (by omega) hi', h0]
        simp [opaquePen]
      · rw [h0']
        simp [opaquePen]

/-! ## A whole refresh -/

theorem mem_drawnSlots {k : Nat} : k ∈ drawnSlots ↔ 0 < k ∧ k ≤ spriteWords / 2 - 1 := by
  unfold drawnSlots
  rw [List.mem_map]
  constructor
  · rintro ⟨j, hj, rfl⟩
    exact ⟨Nat.succ_pos j, List.mem_range.1 hj⟩
  · rintro ⟨h0, hk⟩
    exact ⟨k - 1, List.mem_range.2 (by omega), by omega⟩

@[simp] theorem stacked_nil : stacked [] = .black := rfl

@[simp] theorem stacked_cons (p : Option Pen) (l : List (Option Pen)) :
    stacked (p :: l) = overlay p (stacked l) := by
  cases p <;> rfl

/-- All a refresh can do when it stops: what it has drawn is `leftPicture`. -/
theorem renderFrame_error {s : State} {scr : Screen} {e : Halt Frame}
    (h : renderFrame s scr = .error e) :
    e.left.base = .black ∧ leftPicture s scr e.stop e.left := by
  have hb := renderFrame_keeps (s := s) (P := fun f => f.base = .black)
    (fun _ _ _ _ _ _ h => h) rfl scr
  rw [h] at hb
  refine ⟨hb, ?_⟩
  unfold renderFrame at h
  cases hm : drawMap s (backMap scr) clearedFrame with
  | error e' =>
    rw [hm] at h
    cases h
    obtain ⟨P, hP, hpix⟩ := drawMap_error hm
    exact .inl ⟨P, hP, fun X Y => by rw [hpix, frameAt_cleared, stacked_cons, stacked_nil]⟩
  | ok f1 =>
    rw [hm] at h
    have hdec : tileDecodes s (backMap scr) := fun X Y => drawMap_decodes hm X Y
    simp only at h
    unfold drawSprites at h
    cases hs : walkSprites s.cfg s.sprite (spriteXoff scr) (spriteWords / 2 - 1) f1 with
    | error e' =>
      rw [hs] at h
      cases h
      obtain ⟨k, h0, hk, P, hP, hslots, hpix⟩ := walkSprites_error hs
      refine .inr (.inl ⟨hdec, k, mem_drawnSlots.2 ⟨h0, hk⟩, P, hP,
        fun j hj hkj => hslots j hkj (mem_drawnSlots.1 hj).2, fun X Y => ?_⟩)
      rw [hpix, drawMap_pixel hm, frameAt_cleared, stacked_cons, stacked_cons, stacked_cons,
        stacked_nil]
      rfl
    | ok f2 =>
      rw [hs] at h
      obtain ⟨P, hP, hpix⟩ := drawMap_error h
      refine .inr (.inr ⟨hdec, fun k hk => walkSprites_decodes hs (mem_drawnSlots.1 hk).1
        (mem_drawnSlots.1 hk).2, P, hP, fun X Y => ?_⟩)
      rw [hpix, walkSprites_pixel hs, drawMap_pixel hm, frameAt_cleared, stacked_cons, stacked_cons,
        stacked_cons, stacked_nil]
      rfl

/-! ## Half-words written one after the other -/

/-- The bank after the first `j` half-words `h` are written from the cursor on (R134). -/
def halvesAfter (c : Config) (cur : BltCursor) (h : Nat → Half) (bank : Store) : Nat → Store
  | 0     => bank
  | j + 1 => storeMerge (halvesAfter c cur h bank j) (lineWord cur j) (h j ++ h j) (halfLanes c cur.odd)

theorem col_succ (j : Nat) : (BitVec.ofNat 7 j + 1 : BitVec 7) = BitVec.ofNat 7 (j + 1) :=
  (BitVec.ofNat_add j 1).symm

theorem lineWord_eq (cur : BltCursor) (j : Nat) :
    cur.lineBase + (cur.col + BitVec.ofNat 7 j).toNat = lineWord cur j := by
  unfold lineWord
  simp [BitVec.toNat_add]

/-- Each word of `halvesAfter` is the old one, under one merge at most. -/
theorem halvesAfter_word (c : Config) (cur : BltCursor) (h : Nat → Half) (bank : Store) (j i : Nat) :
    storeWord (halvesAfter c cur h bank j) i = storeWord bank i ∨
      ∃ d, storeWord (halvesAfter c cur h bank j) i
        = merge (storeWord bank i) d (halfLanes c cur.odd) := by
  induction j with
  | zero => exact .inl rfl
  | succ j ih =>
    unfold halvesAfter
    by_cases hi : i = lineWord cur j
    · subst hi
      rw [storeWord_merge_self]
      rcases ih with ih | ⟨d, ih⟩
      · rw [ih]; exact .inr ⟨_, rfl⟩
      · rw [ih, merge_over]; exact .inr ⟨_, rfl⟩
    · rw [storeWord_merge_ne _ _ _ hi]
      exact ih

/-- `halvesAfter` is the bank `halvesWritten` tells of. -/
theorem halvesAfter_written (s : State) (cur : BltCursor) (h : Nat → Half) (j : Nat) :
    halvesWritten s cur j h (halvesAfter s.cfg cur h (quad s.tile cur.tm) j) := by
  induction j with
  | zero => exact ⟨fun _ _ => rfl, fun k hk => absurd hk (Nat.not_lt_zero k)⟩
  | succ j ih =>
    obtain ⟨ih1, ih2⟩ := ih
    unfold halvesAfter
    refine ⟨fun i hi => ?_, fun k hk hkj => ?_⟩
    · rw [storeWord_merge_ne _ _ _ (hi j (Nat.lt_succ_self j))]
      exact ih1 i fun k hk => hi k (by omega)
    · by_cases hw : lineWord cur k = lineWord cur j
      · obtain rfl : k = j := by
          unfold lineWord at hw
          omega
        rw [storeWord_merge_self]
        rcases halvesAfter_word s.cfg cur h (quad s.tile cur.tm) k (lineWord cur k) with hw | ⟨d, hw⟩
        · rw [hw]
        · rw [hw, merge_over]
      · rw [storeWord_merge_ne _ _ _ hw]
        have : k ≠ j := fun e => hw (by rw [e])
        exact ih2 k (by omega) (by omega)

theorem romByte_getD (c : Config) (rom : Rom) {a : Nat} (h : a < (romBytes c rom).length) :
    romByte c rom a = .ok ((romBytes c rom).getD a 0) := by
  unfold romByte
  simp [List.getElem?_eq_getElem h]

theorem romByte_past (c : Config) (rom : Rom) {a : Nat} (h : (romBytes c rom).length ≤ a) :
    romByte c rom a = .error (.fault (.romOutOfRange rom a)) := by
  unfold romByte
  simp [List.getElem?_eq_none h]

/-- The loop of COPY with its first `j` half-words done: what is left of it. -/
theorem copyHalves_after {c : Config} {n p j : Nat} {bank : Store} {cur : BltCursor} (hj : j ≤ n)
    (hb : ∀ k, k < j → lineWord cur k < tileBankWords) (hr : p + 2 * j ≤ c.blitRom.length) :
    copyHalves c n p bank cur =
      copyHalves c (n - j) (p + 2 * j)
        (halvesAfter c cur (fun k => c.blitRom.getD (p + 2 * k) 0 ++ c.blitRom.getD (p + 1 + 2 * k) 0)
          bank j)
        { cur with col := cur.col + BitVec.ofNat 7 j } := by
  induction j with
  | zero => simp [halvesAfter]
  | succ j ih =>
    rw [ih (by omega) (fun k hk => hb k (by omega)) (by omega)]
    obtain ⟨m, hm⟩ : ∃ m, n - j = m + 1 := ⟨n - j - 1, by omega⟩
    rw [hm, show n - (j + 1) = m by omega, copyHalves, romByte_getD c .blit (by simp [romBytes]; omega),
      romByte_getD c .blit (by simp [romBytes]; omega)]
    rcases writeHalf_cases c (c.blitRom.getD (p + 2 * j) 0 ++ c.blitRom.getD (p + 2 * j + 1) 0)
      (halvesAfter c cur (fun k => c.blitRom.getD (p + 2 * k) 0 ++ c.blitRom.getD (p + 1 + 2 * k) 0)
          bank j) { cur with col := cur.col + BitVec.ofNat 7 j } with ⟨_, hw⟩ | ⟨hle, _⟩
    · simp only [romBytes, hw, lineWord_eq, BitVec.add_assoc, col_succ]
      rw [show p + 2 * j + 2 = p + 2 * (j + 1) by omega]
      simp only [halvesAfter, show p + 2 * j + 1 = p + 1 + 2 * j by omega]
    · have := hb j (Nat.lt_succ_self j)
      rw [← lineWord_eq] at this
      simp only at hle
      omega

/-- The loop of FILL with its first `j` half-words done: what is left of it. -/
theorem fillHalves_after {c : Config} {v : Half} {n j : Nat} {bank : Store} {cur : BltCursor}
    (hj : j ≤ n) (hb : ∀ k, k < j → lineWord cur k < tileBankWords) :
    fillHalves c v n bank cur =
      fillHalves c v (n - j) (halvesAfter c cur (fun _ => v) bank j)
        { cur with col := cur.col + BitVec.ofNat 7 j } := by
  induction j with
  | zero => simp [halvesAfter]
  | succ j ih =>
    rw [ih (by omega) fun k hk => hb k (by omega)]
    obtain ⟨m, hm⟩ : ∃ m, n - j = m + 1 := ⟨n - j - 1, by omega⟩
    rw [hm, show n - (j + 1) = m by omega, fillHalves]
    rcases writeHalf_cases c v (halvesAfter c cur (fun _ => v) bank j)
      { cur with col := cur.col + BitVec.ofNat 7 j } with ⟨_, hw⟩ | ⟨hle, _⟩
    · simp only [hw, lineWord_eq, BitVec.add_assoc, col_succ, halvesAfter]
    · have := hb j (Nat.lt_succ_self j)
      rw [← lineWord_eq] at this
      simp only at hle
      omega

/-! ## A blit -/

theorem exec_cmd (cmd : BltCmd) (s : State) : exec cmd.instr s = finish (runCmd cmd s) := by
  cases cmd <;> rfl

theorem leftByStop_cmd (cmd : BltCmd) (s : State) :
    leftByStop cmd.instr s = leftBy (runCmd cmd s) := by
  cases cmd <;> rfl

/-- A command that stops leaves half-words in the target bank and nothing else. -/
theorem runCmd_error {cmd : BltCmd} {s : State} {cur : BltCursor} {e : Halt State}
    (hc : s.cursor = some cur) (h : runCmd cmd s = .error e) :
    ∃ m, e.left = { s with tile := setQuad s.tile cur.tm m } := by
  have hw : ∀ {amt loop src}, writeCommand s amt loop src = .error e →
      ∃ m, e.left = { s with tile := setQuad s.tile cur.tm m } := by
    intro amt loop src h
    unfold writeCommand writeBack at h
    rw [atCursor_some _ hc] at h
    cases hn : halfCount s.cfg amt with
    | error e' =>
      rw [hn] at h
      cases h
      exact ⟨quad s.tile cur.tm, by rw [setQuad_quad]⟩
    | ok n =>
      rw [hn] at h
      simp only at h
      cases hl : loop n cur with
      | error e' => rw [hl] at h; cases h; exact ⟨e'.left.1, rfl⟩
      | ok r => rw [hl] at h; cases h
  cases cmd with
  | copy amt => exact hw h
  | fill amt v => exact hw h
  | endList => rw [show runCmd .endList s = _ from atCursor_some _ hc] at h; cases h
  | nextline => rw [show runCmd .nextline s = _ from atCursor_some _ hc] at h; cases h
  | unknown c0 => rw [show runCmd (.unknown c0) s = _ from atCursor_some _ hc] at h; cases h

/-- A command that completes has no reply. -/
theorem runCmd_out {cmd : BltCmd} {s t : State} (h : runCmd cmd s = .ok t) : t.out = none := by
  have hw : ∀ {amt loop src}, writeCommand s amt loop src = .ok t → t.out = none := by
    intro amt loop src h
    unfold writeCommand writeBack at h
    cases hc : s.cursor with
    | none => rw [atCursor_none _ hc] at h; cases h; rfl
    | some cur =>
      rw [atCursor_some _ hc] at h
      cases hn : halfCount s.cfg amt with
      | error e => rw [hn] at h; cases h
      | ok n =>
        rw [hn] at h
        simp only at h
        cases hl : loop n cur with
        | error e => rw [hl] at h; cases h
        | ok r => rw [hl] at h; cases h; rfl
  have hn : ∀ {f : BltCursor → State}, atCursor s (fun cur => .ok ((f cur).reply none)) = .ok t →
      t.out = none := by
    intro f h
    unfold atCursor at h
    split at h <;> cases h <;> rfl
  cases cmd with
  | copy amt => exact hw h
  | fill amt v => exact hw h
  | endList => exact hn (f := fun _ => (s.setPending true).setCursor none) h
  | nextline => exact hn (f := fun cur => s.setCursor (some { cur with
      col := cur.col0, lineBase := cur.lineBase + 128, src := cur.src + 1 })) h
  | unknown c0 => exact hn (f := fun cur => s.setCursor (some { cur with src := cur.src + 1 })) h

/-- With no blit running, `runBlit` and `afterCommands` both leave the state as it is. -/
theorem runBlit_done_iff {n : Nat} {s t : State} (hc : s.cursor = none) :
    runBlit n s = .ok t ↔ ∃ m, afterCommands m s = some t ∧ t.cursor = none := by
  rw [runBlit_done hc]
  constructor
  · intro h
    cases h
    exact ⟨0, rfl, hc⟩
  · rintro ⟨m, hm, _⟩
    cases m with
    | zero => cases hm; rfl
    | succ m =>
      unfold afterCommands at hm
      simp only [hc] at hm
      cases hm

/-- A blit that is running takes a command or more to end. -/
theorem afterCommands_running {m : Nat} {s t : State} {cur : BltCursor} (hc : s.cursor = some cur)
    (hm : afterCommands m s = some t) (ht : t.cursor = none) : ∃ m', m = m' + 1 := by
  cases m with
  | zero => cases hm; rw [hc] at ht; cases ht
  | succ m => exact ⟨m, rfl⟩

/-- All a blit can do when it stops, run with a bound that reaches the end of the ROM: its first commands
complete, and the next cannot be read or stops (48_blitter_optional.md R132; 60_exceptions.md R144). -/
theorem runBlit_error {n : Nat} {s : State} {cur : BltCursor} {e : Halt State}
    (hc : s.cursor = some cur) (hn : s.cfg.blitRom.length < cur.src + n + 1)
    (h : runBlit n s = .error e) :
    (∃ m u cur', afterCommands m s = some u ∧ u.cursor = some cur' ∧
      ((∃ k, decodeCmd (s.cfg.blitRom.drop cur'.src) = .error (.streamShort k) ∧
          e = ⟨.fault (.romOutOfRange .blit (cur'.src + k)), u⟩) ∨
        ∃ cmd, decodeCmd (s.cfg.blitRom.drop cur'.src) = .ok cmd ∧ runCmd cmd u = .error e)) ∧
      ∃ m, e.left = { s with tile := setQuad s.tile cur.tm m, cursor := e.left.cursor,
                             out := e.left.out } ∧
        (s.out = none → e.left.out = none) := by
  induction n generalizing s cur with
  | zero =>
    unfold runBlit at h
    simp only [hc] at h
    cases h
    refine ⟨⟨0, s, cur, rfl, hc, .inl ⟨0, ?_, rfl⟩⟩,
      quad s.tile cur.tm, by rw [setQuad_quad], id⟩
    rw [List.drop_eq_nil_of_le (by omega)]
    rfl
  | succ n ih =>
    rw [runBlit_step hc] at h
    unfold fetchCmd at h
    cases hd : decodeCmd (s.cfg.blitRom.drop cur.src) with
    | error r =>
      obtain ⟨k⟩ := r
      rw [hd] at h
      cases h
      exact ⟨⟨0, s, cur, rfl, hc, .inl ⟨k, hd, rfl⟩⟩,
        quad s.tile cur.tm, by rw [setQuad_quad], id⟩
    | ok cmd =>
      rw [hd] at h
      simp only at h
      cases hr : runCmd cmd s with
      | error e' =>
        rw [hr] at h
        cases h
        obtain ⟨m, hm⟩ := runCmd_error hc hr
        exact ⟨⟨0, s, cur, rfl, hc, .inr ⟨cmd, hd, hr⟩⟩, m, by rw [hm], by rw [hm]; exact id⟩
      | ok u =>
        rw [hr] at h
        obtain ⟨hl, hm⟩ := runCmd_cases (P := fun _ => True) (fun _ _ _ _ _ _ => trivial) cmd hc
        rw [hr] at hl
        have hf : BlitFields s u := hl.fields
        obtain ⟨bank, hu, _⟩ := hl.bank
        have hcfg : u.cfg = s.cfg := by rw [hf]
        rcases hm u hr with ⟨hcn, _⟩ | ⟨hpend, cur1, hcu, htm, hlt⟩
        · simp only [runBlit_done hcn] at h; cases h
        · obtain ⟨⟨m, v, cur', hv, hcv, hstop⟩, bank', hleft, hout⟩ := ih hcu (by rw [hcfg]; omega) h
          rw [hcfg] at hstop
          refine ⟨⟨m + 1, v, cur', ?_, hcv, hstop⟩, bank', ?_, fun _ => hout (runCmd_out hr)⟩
          · unfold afterCommands
            simp only [hc, hd, exec_cmd, hr, finish_ok, hv]
          · have htile : setQuad u.tile cur1.tm bank' = setQuad s.tile cur.tm bank' := by
              rw [show u.tile = setQuad s.tile cur.tm bank from hu, htm]
              unfold setQuad
              simp
            rw [hleft, htile, hf, hpend]

/-- A blit run with a bound that reaches the end of the ROM completes just where its commands, run one by
one, end it, and leaves what they leave (48_blitter_optional.md R132). -/
theorem runBlit_ok_iff {n : Nat} {s t : State}
    (hn : ∀ cur, s.cursor = some cur → s.cfg.blitRom.length < cur.src + n + 1) :
    runBlit n s = .ok t ↔ ∃ m, afterCommands m s = some t ∧ t.cursor = none := by
  induction n generalizing s with
  | zero =>
    cases hc : s.cursor with
    | none => exact runBlit_done_iff hc
    | some cur =>
      have hle := hn cur hc
      constructor
      · intro h
        unfold runBlit at h
        simp only [hc] at h
        cases h
      · rintro ⟨m, hm, ht⟩
        obtain ⟨m, rfl⟩ := afterCommands_running hc hm ht
        unfold afterCommands at hm
        simp only [hc, List.drop_eq_nil_of_le (show s.cfg.blitRom.length ≤ cur.src by omega)] at hm
        cases hm
  | succ n ih =>
    cases hc : s.cursor with
    | none => exact runBlit_done_iff hc
    | some cur =>
      have hlt := hn cur hc
      have hsucc : (∃ m, afterCommands m s = some t ∧ t.cursor = none) ↔
          ∃ m, afterCommands (m + 1) s = some t ∧ t.cursor = none := by
        constructor
        · rintro ⟨m, hm, ht⟩
          obtain ⟨m, rfl⟩ := afterCommands_running hc hm ht
          exact ⟨m, hm, ht⟩
        · exact fun ⟨m, h⟩ => ⟨m + 1, h⟩
      rw [hsucc, runBlit_step hc]
      unfold fetchCmd
      simp only [afterCommands, hc]
      cases hd : decodeCmd (s.cfg.blitRom.drop cur.src) with
      | error r => simp
      | ok cmd =>
        simp only [exec_cmd]
        cases hr : runCmd cmd s with
        | error e =>
          simp only [finish_error]
          cases e.stop <;> simp [stopOutcome]
        | ok u =>
          simp only [finish_ok]
          refine ih fun cur' hcu => ?_
          obtain ⟨hl, hm⟩ := runCmd_cases (P := fun _ => True) (fun _ _ _ _ _ _ => trivial) cmd hc
          rw [hr] at hl
          rw [show u.cfg = s.cfg by rw [show BlitFields s u from hl.fields]]
          rcases hm u hr with ⟨hcn, _⟩ | ⟨_, cur1, hc1, _, hsrc⟩
          · rw [hcn] at hcu; cases hcu
          · rw [hc1] at hcu; cases hcu; omega

/-- The blit of a register write to START, from the registers it leaves (48_blitter_optional.md R131). -/
theorem bltregWrRun_start {data : Word} {be : Lanes} {s : State} (hp : s.cfg.blitterPresent = true) :
    bltregWrRun s.cfg.bltRegLayout.start data be s =
      runBlit (s.cfg.blitRom.length + 1)
        { s with bltReg := storeMerge s.bltReg s.cfg.bltRegLayout.start.toNat data be
                 cursor := some (startCursor s.cfg
                   (storeMerge s.bltReg s.cfg.bltRegLayout.start.toNat data be))
                 out    := none } := by
  unfold bltregWrRun startBlit
  rw [if_pos hp]
  simp only
  rw [if_pos trivial]
  rfl

end Sys2Proof.Machine
end

