-- ==== Sys2Proof/Tests/Slice0.lean ====
section
/-! SUPPORT. Tests of the model. Expected results are those of 95_test_vectors.md (its vector is named in
the comment) or follow by hand from the rule named. Witnesses show that the hypotheses of each
statement can be met, at the boundary values where its clauses meet. -/

namespace Sys2Proof.Tests

-- Each theorem here is a kernel evaluation: they are run one after another, which bounds the memory.
set_option Elab.async false

open Sys2Proof Sys2Proof.Machine

/-! ## Helpers -/

/-- The outcome is a next state with property `p`. -/
def nextIs (o : Host.Outcome State Fault Refusal) (p : State → Bool) : Bool :=
  match o with
  | .next t    => p t
  | .fault _   => false
  | .refused _ => false

theorem nextIs_mono {o : Host.Outcome State Fault Refusal} {p q : State → Bool}
    (h : nextIs o p = true) (hpq : ∀ t, p t = true → q t = true) : nextIs o q = true := by
  cases o with
  | next t => exact hpq t h
  | fault f => cases h
  | refused r => cases h

/-- The outcome is the fault `f`. -/
def faultIs (o : Host.Outcome State Fault Refusal) (f : Fault) : Bool :=
  match o with
  | .next _    => false
  | .fault g   => decide (g = f)
  | .refused _ => false

/-- The outcome is the refusal `r`. -/
def refusedIs (o : Host.Outcome State Fault Refusal) (r : Refusal) : Bool :=
  match o with
  | .next _    => false
  | .fault _   => false
  | .refused q => decide (q = r)

/-- The tile ROM of the fixture of 95_test_vectors.md section 0. -/
def fixtureTileRom : List Byte :=
  List.replicate 0x100 0xFF ++ List.replicate 0x40 0x01 ++ List.replicate 0x20 0x12
    ++ List.replicate 0x20 0xF3 ++ List.replicate 0x80 0xFF
    ++ (List.range 256).map (BitVec.ofNat 8) ++ List.replicate 0x100 0xFF

/-- The sprite ROM of the fixture of 95_test_vectors.md section 0. -/
def fixtureSpriteRom : List Byte :=
  List.replicate 0x100 0xFF ++ (List.range 256).map (fun j => BitVec.ofNat 8 (j % 16))
    ++ List.replicate 0x100 0x09 ++ (List.range 256).map (BitVec.ofNat 8)

/-- The fixture with the screen cut to 24 by 24 pixels. -/
def fixture : Config :=
  { defaultConfig with tileRom := fixtureTileRom, spriteRom := fixtureSpriteRom
                       screenW := 24, screenH := 24 }

/-- A screen of 3 by 3 pixels with ROMs as small as its refresh needs. -/
def tiny : Config :=
  { defaultConfig with
    tileRom   := List.replicate 32 0xFF ++ List.replicate 64 0x01
    spriteRom := List.replicate 256 0xFF ++ List.replicate 256 0x09
    screenW := 3, screenH := 3 }

/-- The annex with a command ROM. -/
def annexRom (rom : List Byte) : Config :=
  { annexConfig with blitRom := rom }

/-- A state inside a blit whose cursor is at ROM address 0, column `col` of the line at `lineBase`. -/
def midBlit (c : Config) (col : BitVec 7) (lineBase : Nat) : State :=
  { initState c with
    cursor := some { src := 0, col0 := 5, col := col, lineBase := lineBase, tm := 0, odd := false } }

/-- The initial state of the default configuration with one input to come. -/
def waiting (i : Input) : State :=
  { State.reset with inbox := [i] }

/-- A state with one tile word set. -/
def withTile (s : State) (b : BitVec 2) (i : Nat) (w : Word) : State :=
  s.setTile b (storePut (quad s.tile b) i w)

/-! ## WellFormed: each check refuses an ill-formed term -/

theorem test_wf_sprite_offset : Instr.wf defaultConfig (.sprRd 0x2FFF) = true ∧
    Instr.wf defaultConfig (.sprRd 0x3000) = false ∧
    Instr.wf defaultConfig (.sprWr 0x3000 0 0xF) = false := by decide

theorem test_wf_treg_offset : Instr.wf defaultConfig (.tregRd 0 23) = true ∧
    Instr.wf defaultConfig (.tregRd 0 24) = false ∧
    Instr.wf defaultConfig (.tregWr 3 24 0 0xF) = false := by decide

theorem test_wf_sreg_offset : Instr.wf defaultConfig (.sregRd 8) = true ∧
    Instr.wf defaultConfig (.sregRd 9) = false ∧
    Instr.wf defaultConfig (.sregWr 9 0 0xF) = false := by decide

theorem test_wf_blitter_absent : Instr.wf annexConfig (.bltregRd 7) = true ∧
    Instr.wf defaultConfig (.bltregRd 7) = false ∧
    Instr.wf defaultConfig (.bltregWr 5 0 0xF) = false ∧ Instr.wf defaultConfig .bltEnd = false ∧
    Instr.wf defaultConfig (.bltCopy 2) = false ∧ Instr.wf defaultConfig (.bltFill 2 0) = false ∧
    Instr.wf defaultConfig .bltNextline = false ∧
    Instr.wf defaultConfig (.bltUnknown 0x7F) = false := by decide

theorem test_wf_unmapped : Instr.wf defaultConfig (.unmappedRd 0x13000) = true ∧
    Instr.wf defaultConfig (.unmappedRd 0x12FFF) = false ∧
    Instr.wf defaultConfig (.unmappedWr 0 0 0xF) = false := by decide +kernel

theorem test_wf_commands : Instr.wf annexConfig (.bltCopy 1) = true ∧
    Instr.wf annexConfig (.bltCopy 0) = false ∧ Instr.wf annexConfig (.bltUnknown 1) = true ∧
    Instr.wf annexConfig (.bltUnknown 0) = false ∧ Instr.wf annexConfig (.bltUnknown 2) = false ∧
    Instr.wf annexConfig (.bltUnknown 3) = false := by decide

theorem test_map_sound : mapSound defaultConfig = true ∧ mapSound annexConfig = true := by
  decide +kernel

theorem test_map_lacks_a_region :
    mapSound { defaultConfig with addrMap := defaultAddrMap.tail } = false := by decide +kernel

theorem test_map_window_off_a_word :
    mapSound { defaultConfig with
      addrMap := ⟨.bltreg, 0x60402⟩ :: defaultAddrMap.dropLast } = false := by decide +kernel

theorem test_map_window_past_the_space :
    mapSound { defaultConfig with
      addrMap := ⟨.bltreg, 0xFFFE4⟩ :: defaultAddrMap.dropLast } = false := by decide +kernel

theorem test_map_windows_overlap :
    mapSound { defaultConfig with
      addrMap := ⟨.bltreg, 0x60300⟩ :: defaultAddrMap.dropLast } = false := by decide +kernel

theorem test_map_too_many_sregs : mapSound { defaultConfig with sregWords := 17 } = false := by
  decide +kernel

theorem test_config_wf : defaultConfig.wf = true ∧ annexConfig.wf = true := by decide +kernel

theorem test_config_field_outside_its_word :
    Config.wf { defaultConfig with
      tileDesc := { defaultTileDesc with colorBank := 25 } } = false := by decide +kernel

theorem test_config_short_contrast_table :
    Config.wf { defaultConfig with contrastScale := .table [0, 1] } = false := by decide +kernel

theorem test_config_shift_too_wide :
    Config.wf { defaultConfig with tile4BankShift := some 8 } = true ∧
      Config.wf { defaultConfig with tile4BankShift := some 9 } = false := by decide +kernel

/-! ## Decode: one word a constructor, from 30_encoding.md R54 to R56 and 48_blitter_optional.md R133 -/

-- A1: key 0x001234.
theorem test_decode_tileRd : decodeTableWord 21 0x001234 = some (.tileRd 0 0x48D) := by
  decide +kernel

-- A2: key 0x13FFFC; A3: address bits 1:0 are ignored.
theorem test_decode_tileWr :
    decodeBus defaultConfig ⟨true, 0x3FFFC, 0xF, 0xCAFEF00D⟩ = .tileWr 3 0x3FFF 0xCAFEF00D 0xF ∧
    decodeBus defaultConfig ⟨true, 0x00017, 0x1, 0xAA⟩ = .tileWr 0 5 0xAA 0x1 := by decide +kernel

-- A5: key 0x04BFFC.
theorem test_decode_sprRd : decodeTableWord 21 0x04BFFC = some (.sprRd 0x2FFF) := by
  decide +kernel

-- A5: key 0x14BFFC.
theorem test_decode_sprWr :
    decodeBus defaultConfig ⟨true, 0x4BFFC, 0xF, 0x00100020⟩ = .sprWr 0x2FFF 0x00100020 0xF := by
  decide +kernel

-- A11: key 0x053FFC.
theorem test_decode_palRd : decodeTableWord 21 0x053FFC = some (.palRd 0xFFF) := by decide +kernel

-- A8: key 0x150040.
theorem test_decode_palWr :
    decodeBus defaultConfig ⟨true, 0x50040, 0xF, 0x00112233⟩ = .palWr 0x10 0x00112233 0xF := by
  decide +kernel

-- A13: key 0x060088.
theorem test_decode_tregRd : decodeTableWord 21 0x060088 = some (.tregRd 1 2) := by decide +kernel

-- A12: key 0x160088; A15: key 0x160180.
theorem test_decode_tregWr :
    decodeBus defaultConfig ⟨true, 0x60088, 0xF, 0x00300040⟩ = .tregWr 1 2 0x00300040 0xF ∧
    decodeBus defaultConfig ⟨true, 0x60180, 0xF, 0x00400000⟩ = .tregWr 3 0 0x00400000 0xF := by
  decide +kernel

-- R56 row 9: mask 0x1FFFC0, match 0x060200, off = addr[5:2].
theorem test_decode_sregRd : decodeTableWord 21 0x060220 = some (.sregRd 8) := by decide +kernel

-- A16: key 0x160220; A17: key 0x160224 is unmapped.
theorem test_decode_sregWr :
    decodeBus defaultConfig ⟨true, 0x60220, 0xF, 7⟩ = .sregWr 8 7 0xF ∧
    decodeBus defaultConfig ⟨true, 0x60224, 0xF, 1⟩ = .unmappedWr 0x18089 1 0xF := by
  decide +kernel

-- R56 row 11: match 0x060300, p = addr[2].
theorem test_decode_brtRd : decodeTableWord 21 0x060300 = some (.brtRd 0) := by decide +kernel

-- A18: key 0x160304; A19: key 0x160308 is unmapped.
theorem test_decode_brtWr :
    decodeBus defaultConfig ⟨true, 0x60304, 0xF, 0xC4000000⟩ = .brtWr 1 0xC4000000 0xF ∧
    decodeBus defaultConfig ⟨true, 0x60308, 0xF, 0xC4000000⟩ = .unmappedWr 0x180C2 0xC4000000 0xF := by
  decide +kernel

-- R56 row 13: match 0x060400, off = addr[4:2].
theorem test_decode_bltregRd : decodeTableWord 21 0x06041C = some (.bltregRd 7) := by
  decide +kernel

-- Program 4 step 7: key 0x160414; A20: the same key with the blitter absent is unmapped.
theorem test_decode_bltregWr :
    decodeBus annexConfig ⟨true, 0x60414, 0xF, 0⟩ = .bltregWr 5 0 0xF ∧
    decodeBus defaultConfig ⟨true, 0x60414, 0xF, 0⟩ = .unmappedWr 0x18105 0 0xF := by
  decide +kernel

-- A7: key 0x04C000.
theorem test_decode_unmappedRd : decodeTableWord 21 0x04C000 = some (.unmappedRd 0x13000) := by
  decide +kernel

-- A6: key 0x14C000; A14: key 0x160060.
theorem test_decode_unmappedWr :
    decodeBus defaultConfig ⟨true, 0x4C000, 0xF, 0xFFFFFFFF⟩ = .unmappedWr 0x13000 0xFFFFFFFF 0xF ∧
    decodeBus defaultConfig ⟨true, 0x60060, 0xF, 0x12345678⟩ = .unmappedWr 0x18018 0x12345678 0xF := by
  decide +kernel

-- R55: code 0b00.
theorem test_decode_refreshLeft : decodeTableWord 2 0b00 = some .refreshLeft := by decide

-- R55: code 0b01.
theorem test_decode_refreshRight : decodeTableWord 2 0b01 = some .refreshRight := by decide

-- R55: code 0b10.
theorem test_decode_blitDone : decodeTableWord 2 0b10 = some .blitDone := by decide

-- R55: code 0b11.
theorem test_decode_reset : decodeTableWord 2 0b11 = some .reset := by decide

-- R133: bytes 00 00.
theorem test_decode_bltEnd : decode annexConfig (.cmd [0x00, 0x00]) = .ok .bltEnd := by decide

-- R133: bytes 00 02, the payload left in the stream.
theorem test_decode_bltCopy : decode annexConfig (.cmd [0x00, 0x02, 0xAA, 0xBB]) = .ok (.bltCopy 2) := by
  decide

-- R133, R137: bytes 02 04 12 34, the high byte of the value first.
theorem test_decode_bltFill :
    decode annexConfig (.cmd [0x02, 0x04, 0x12, 0x34]) = .ok (.bltFill 4 0x1234) := by decide

-- R133: byte 03.
theorem test_decode_bltNextline : decode annexConfig (.cmd [0x03]) = .ok .bltNextline := by decide

-- R133, R139: byte 7F; 0x01 is unknown too.
theorem test_decode_bltUnknown : decode annexConfig (.cmd [0x7F]) = .ok (.bltUnknown 0x7F) ∧
    decode annexConfig (.cmd [0x01, 0x00]) = .ok (.bltUnknown 0x01) := by decide

/-! ## The bus family -/

-- R75: a word never written returns 0.
theorem test_tileRd : nextIs (exec (.tileRd 2 0x1234) State.reset)
    (fun t => decide (t.out = some (.word 0))) = true := by decide +kernel

-- R76's example: lanes 0 and 2 of 0x11223344.
theorem test_tileWr_lanes :
    nextIs (exec (.tileWr 0 5 0xAABBCCDD 0b0101) (withTile State.reset 0 5 0x11223344))
      (fun t => decide (storeWord (quad t.tile 0) 5 = 0x11BB33DD)) = true := by decide +kernel

-- A2: the last word of the last bank; bank 2 unchanged.
theorem test_tileWr_last :
    nextIs (exec (.tileWr 3 0x3FFF 0xCAFEF00D 0xF) State.reset)
      (fun t => decide (storeWord (quad t.tile 3) 0x3FFF = 0xCAFEF00D ∧
        storeWord (quad t.tile 2) 0x3FFF = 0)) = true := by decide +kernel

-- R77's example: the word written is read back.
theorem test_sprRd : nextIs (exec (.sprRd 0x2FFE) (State.reset.setSprite (storePut [] 0x2FFE 0x00100020)))
    (fun t => decide (t.out = some (.word 0x00100020))) = true := by decide +kernel

-- R78's example: lane 3 of word 3.
theorem test_sprWr : nextIs (exec (.sprWr 3 0xFFFFFFFF 0b1000) State.reset)
    (fun t => decide (storeWord t.sprite 3 = 0xFF000000)) = true := by decide +kernel

-- R79's example: bits 31:24 read back.
theorem test_palRd : nextIs (exec (.palRd 7) (State.reset.setPal (storePut [] 7 0xFF112233)))
    (fun t => decide (t.out = some (.word 0xFF112233))) = true := by decide +kernel

-- A8, A9: lane 0 of 0x00112233 gives the colour (0x22, 0x11, 0x99).
theorem test_palWr : nextIs (exec (.palWr 0x10 0x99 0x1) (State.reset.setPal (storePut [] 0x10 0x00112233)))
    (fun t => decide (storeWord t.pal 0x10 = 0x00112299 ∧
      colourOf t 0x10 = { r := 0x22, g := 0x11, b := 0x99 })) = true := by decide +kernel

-- A13: a read of a tilemap register draws one word and changes no register.
theorem test_tregRd : nextIs (exec (.tregRd 1 2) (State.reset.setTreg 1 (storePut [] 2 0x00300040)))
    (fun t => decide (t.draws = 1 ∧ storeWord (quad t.treg 1) 2 = 0x00300040)) = true := by
  decide +kernel

-- A12: scrollY 3, scrollX 4.
theorem test_tregWr : nextIs (exec (.tregWr 1 2 0x00300040 0xF) State.reset)
    (fun t => decide (scrollY t.cfg (quad t.treg 1) = 3 ∧ scrollX t.cfg (quad t.treg 1) = 4)) = true := by
  decide +kernel

-- R83: as for R81.
theorem test_sregRd : nextIs (exec (.sregRd 0) State.reset) (fun t => decide (t.draws = 1)) = true := by
  decide +kernel

-- A16.
theorem test_sregWr : nextIs (exec (.sregWr 8 7 0xF) State.reset)
    (fun t => decide (storeWord t.sreg 8 = 7)) = true := by decide +kernel

-- R85: one word is drawn.
theorem test_brtRd : nextIs (exec (.brtRd 0) State.reset) (fun t => decide (t.draws = 1)) = true := by
  decide +kernel

-- B2: the port does not choose the bank.
theorem test_brtWr_bank : nextIs (exec (.brtWr 1 0xC4000000 0xF) State.reset)
    (fun t => decide (t.contrast = #v[16, 8] ∧ t.brtCache = #v[0, 8])) = true := by decide +kernel

-- B4: level 0 right after reset is skipped.
theorem test_brtWr_skipped : nextIs (exec (.brtWr 0 0x80000000 0xF) State.reset)
    (fun t => decide (t.contrast = #v[16, 16] ∧ storeWord t.brt 0 = 0x80000000)) = true := by
  decide +kernel

-- A7: a free word; nothing else changes.
theorem test_unmappedRd : nextIs (exec (.unmappedRd 0x13000) State.reset)
    (fun t => decide (t.draws = 1 ∧ t.tile = State.reset.tile)) = true := by decide +kernel

-- A6: no state changes.
theorem test_unmappedWr : nextIs (exec (.unmappedWr 0x13000 0xFFFFFFFF 0xF) State.reset)
    (fun t => decide (t = State.reset)) = true := by decide +kernel

-- R40 with `big`: the byte at address + 0 is lane 3; with `little` it is lane 0.
theorem test_host_byte_lanes :
    hostByteWrite defaultConfig 0x00014 0xAB = .bus ⟨true, 0x00014, 0b1000, 0xAB000000⟩ ∧
    hostByteWrite { defaultConfig with hostLaneOrder := .little } 0x00014 0xAB =
      .bus ⟨true, 0x00014, 0b0001, 0x000000AB⟩ := by decide

-- R72: WRH of the upper half, BRIGHT, and the two writes of SPRITE.
theorem test_pseudo_operations :
    wrhHi defaultConfig .palette 0x10 0xABCD = .bus ⟨true, 0x50040, 0xC, 0xABCD0000⟩ ∧
    bright defaultConfig 0 1 8 1 = .bus ⟨true, 0x60300, 0xF, 0xC4000000⟩ ∧
    spriteOp defaultConfig 1 0x00100020 4 =
      [.bus ⟨true, 0x40008, 0xF, 0x00100020⟩, .bus ⟨true, 0x4000C, 0xF, 4⟩] := by decide +kernel

/-! ## The decoder (95_test_vectors.md sections 3.1 to 3.3) -/

-- T1, T1b, T7: high nibble first; nibble 15 is transparent.
theorem test_tilePixel_4bpp :
    tilePixel fixture 0x0000000A 8 0 0 = .ok (some 1) ∧
    tilePixel fixture 0x0000000A 8 1 0 = .ok (some 2) ∧
    tilePixel fixture 0x0000000B 8 0 0 = .ok none ∧
    tilePixel fixture 0x0FF0000A 8 1 0 = .ok (some 2) := by decide +kernel

-- T3, T4b, T5, T8, T9.
theorem test_tilePixel_8bpp :
    tilePixel fixture 0x10500008 8 3 2 = .ok (some 0x501) ∧
    tilePixel fixture 0x10000010 16 15 15 = .ok none ∧
    tilePixel fixture 0x10200010 8 7 7 = .ok (some 0x23F) ∧
    tilePixel fixture 0x10000009 8 0 4 = .ok (some 0x12) ∧
    tilePixel fixture 0x000000FF 8 0 0 = .error (.fault (.romOutOfRange .tile 0x1FE0)) := by
  decide +kernel

-- T10, T11.
theorem test_tilePixel_colour_bank :
    tilePixel { fixture with tile4ColourBank := true } 0x0000000A 8 0 0 =
      .error (.refusal .tile4BankShiftUnset) ∧
    tilePixel { fixture with tile4ColourBank := true, tile4BankShift := some 4 } 0x0030000A 8 0 0 =
      .ok (some 0x31) := by decide +kernel

-- S1 to S6.
theorem test_decodeSprite :
    decodeSprite defaultConfig 0x00100020 0x00300002 =
      { xs := 32, ys := 16, flipXeff := true, flipY := false, tile := 1, colour := 3 } ∧
    (decodeSprite defaultConfig 0x00000FFF 0).xs = -1 ∧
    (decodeSprite defaultConfig 0x00000800 0).xs = -2048 ∧
    (decodeSprite defaultConfig 0x0FFF0000 0).ys = 4095 ∧
    (decodeSprite defaultConfig 0x0000C000 0).flipXeff = false ∧
    (decodeSprite defaultConfig 0x0000C000 0).flipY = true := by decide +kernel

-- S7 to S9.
theorem test_decodeSprite_unnamed_bits :
    (decodeSprite defaultConfig 0 0x00000003).tile = 1 ∧
    (decodeSprite defaultConfig 0 0x0003FFFF).tile = 0x1FFFF ∧
    decodeSprite defaultConfig 0xF0003000 0xF00C0000 = decodeSprite defaultConfig 0 0 := by
  decide +kernel

-- P1, P2, P3, P4, P5, P7.
theorem test_spritePixel :
    spritePixel fixture ⟨0, 0, true, false, 1, 3⟩ 0 0 = .ok (some 0x30F) ∧
    spritePixel fixture ⟨0, 0, false, false, 1, 3⟩ 0 0 = .ok (some 0x300) ∧
    spritePixel fixture ⟨0, 0, false, true, 3, 0⟩ 2 0 = .ok (some 0xF2) ∧
    spritePixel fixture ⟨0, 0, false, true, 3, 0⟩ 15 0 = .ok none ∧
    spritePixel fixture ⟨0, 0, false, false, 5, 0⟩ 0 0 = .ok (some 0) ∧
    spritePixel fixture ⟨0, 0, true, false, 2, 0x10⟩ 0 0 = .ok (some 0x1009) := by decide +kernel

-- P6.
theorem test_spritePixel_fault_policy :
    spritePixel { fixture with spriteIndexPolicy := .fault } ⟨0, 0, false, false, 5, 0⟩ 0 0 =
      .error (.fault (.spriteIndexOutOfRange 5)) := by decide +kernel

/-! ## The compositor -/

/-- A cell drawn on a cleared screen shows the given pixels. -/
def cellShows (c : Config) (d : Word) (x y : Int) (size : Nat) (q : List (Nat × Nat × Pixel)) : Bool :=
  match drawCell c d x y size clearedFrame with
  | .ok f    => q.all fun e => decide (frameAt f e.1 e.2.1 = e.2.2)
  | .error _ => false

/-- A sprite drawn on a cleared screen shows the given pixels. -/
def spriteShows (c : Config) (w0 w1 : Word) (xoff : Int) (q : List (Nat × Nat × Pixel)) : Bool :=
  match drawSprite c w0 w1 xoff clearedFrame with
  | .ok f    => q.all fun e => decide (frameAt f e.1 e.2.1 = e.2.2)
  | .error _ => false

-- C1, C2: the exclusive clip drops row 0 and column 0.
theorem test_drawCell_clip :
    cellShows fixture 0x10000008 0 0 8
      [(0, 1, .black), (1, 0, .black), (1, 1, .pen 1), (7, 7, .pen 1), (8, 7, .black)] = true ∧
    cellShows { fixture with tileClipExclusive := false } 0x10000008 0 0 8
      [(0, 0, .pen 1), (7, 7, .pen 1)] = true := by decide +kernel

-- C5: scrollX 4 leaves X 1 to 3.
theorem test_drawCell_scrolled :
    cellShows fixture 0x10000008 (-4) 0 8 [(3, 1, .pen 1), (4, 1, .black)] = true := by
  decide +kernel

-- C11, C12: the sprite clip is inclusive.
theorem test_drawSprite_border :
    spriteShows { fixture with screenW := 3, screenH := 3 } 0x00080008 4 0
      [(0, 0, .pen 9), (2, 2, .pen 9)] = true ∧
    spriteShows { fixture with screenW := 3, screenH := 3 } 0x00080FF9 4 0
      [(0, 0, .pen 9), (1, 0, .black)] = true := by decide +kernel

-- C15: xs 320 on the left screen covers X 0 to 7.
theorem test_drawSprite_bleed :
    spriteShows { fixture with screenH := 10 } 0x00100140 4 320
      [(0, 7, .black), (0, 8, .pen 9), (7, 8, .pen 9), (8, 8, .black)] = true := by
  decide +kernel

/-- The tiny screen with an 8bpp back cell at the top left, and slot 1 at X 2 of the left screen. -/
def tinyPicture : State :=
  (withTile (initState tiny) 3 0 0x10000001).setSprite
    (storePut (storePut [] 2 0x0008014A) 3 0x00000002)

/-- What the left screen of `tinyPicture` shows after a refresh: the back layer inside the exclusive
clip, the sprite on the border, black elsewhere (R110, R113); the other bitmap is untouched (R112). -/
def tinyPictureShown (t : State) : Bool :=
  decide (frameAt t.fbLeft 1 1 = .pen 1 ∧ frameAt t.fbLeft 2 2 = .pen 9 ∧
    frameAt t.fbLeft 0 0 = .black ∧ frameAt t.fbLeft 0 2 = .black ∧ t.fbRight = blankFrame)

theorem test_refreshLeft : nextIs (exec .refreshLeft tinyPicture) tinyPictureShown = true := by
  decide +kernel

/-- The refresh of `tinyPicture` completes. -/
theorem tinyPicture_completes : nextIs (exec .refreshLeft tinyPicture) (fun _ => true) = true :=
  nextIs_mono test_refreshLeft fun _ _ => rfl

-- C16: the first fetch past byte 15 that passes the clip.
theorem test_refreshRight_fault :
    faultIs (exec .refreshRight (initState { fixture with tileRom := List.replicate 16 0xFF }))
      (.romOutOfRange .tile 16) = true := by decide +kernel

/-! ## Palette and display (95_test_vectors.md section 5) -/

-- D1, D2, D3: PalMem[0x10] = 0x00112233 at contrast 16, 8 and 0.
theorem test_display_contrast :
    showPixel (State.reset.setPal (storePut [] 0x10 0x00112233)) 0 (.pen 0x10) =
      { r := 0x22, g := 0x11, b := 0x33 } ∧
    showPixel ((State.reset.setPal (storePut [] 0x10 0x00112233)).setContrast 0 8) 0 (.pen 0x10) =
      { r := 0x11, g := 0x08, b := 0x19 } ∧
    showPixel ((State.reset.setPal (storePut [] 0x10 0x00112233)).setContrast 0 0) 0 (.pen 0x10) =
      { r := 0, g := 0, b := 0 } := by decide +kernel

-- D4, D5: the split at entry 0x800.
theorem test_display_split :
    showPixel ((State.reset.setPal (storePut [] 0x7FF 0x00FFFFFF)).setContrast 0 15) 0 (.pen 0x7FF) =
      { r := 0xEF, g := 0xEF, b := 0xEF } ∧
    showPixel ((State.reset.setPal (storePut [] 0x800 0x00FFFFFF)).setContrast 0 15) 0 (.pen 0x800) =
      { r := 0xFF, g := 0xFF, b := 0xFF } := by decide +kernel

/-! ## The blitter (95_test_vectors.md section 6) and the events -/

/-- L1's state: the source's example stream and a word at the cursor. -/
def blitExample : State :=
  withTile (initState (annexRom [0x00, 0x02, 0xAA, 0xBB, 0x00, 0x00])) 0 0 0x11223344

-- L1.
theorem test_bltregWr_start : nextIs (exec (.bltregWr 5 0 0xF) blitExample)
    (fun t => decide (storeWord (quad t.tile 0) 0 = 0xAABB3344 ∧ t.bltPending = true ∧
      t.cursor = none)) = true := by decide +kernel

-- L12: the stream ends inside a FILL.
theorem test_bltregWr_short_stream :
    faultIs (exec (.bltregWr 5 0 0xF) (initState (annexRom [0x02, 0x04, 0x12])))
      (.romOutOfRange .blit 3) = true := by decide +kernel

-- R130: a free word.
theorem test_bltregRd : nextIs (exec (.bltregRd 0) (initState annexConfig))
    (fun t => decide (t.draws = 1)) = true := by decide +kernel

-- L14: the pending completion is delivered once.
theorem test_blitDone : nextIs (exec .blitDone ((initState annexConfig).setPending true))
    (fun t => decide (t.out = some .irqBlit ∧ t.bltPending = false)) = true := by decide +kernel

-- E3: nothing with the blitter absent.
theorem test_blitDone_absent : nextIs (exec .blitDone (State.reset.setPending true))
    (fun t => decide (t.out = none)) = true := by decide +kernel

-- E1: the store is zero again; E2: a fault mark stays.
theorem test_reset :
    nextIs (exec .reset (markStop (withTile State.reset 3 0x3FFF 0xCAFEF00D)
        (.fault (.romOutOfRange .tile 16))))
      (fun t => decide (storeWord (quad t.tile 3) 0x3FFF = 0 ∧ t.contrast = #v[16, 16] ∧
        t.marks.fault = some (.romOutOfRange .tile 16))) = true := by decide +kernel

-- R136.
theorem test_bltEnd : nextIs (exec .bltEnd (midBlit (annexRom [0x00, 0x00]) 0 0))
    (fun t => decide (t.bltPending = true ∧ t.cursor = none)) = true := by decide +kernel

-- L4: the column wraps inside the line.
theorem test_bltCopy_wraps :
    nextIs (exec (.bltCopy 4) (midBlit (annexRom [0x00, 0x04, 0x11, 0x11, 0x22, 0x22, 0, 0]) 127 0))
      (fun t => decide (storeWord (quad t.tile 0) 127 = 0x11110000 ∧
        storeWord (quad t.tile 0) 0 = 0x22220000)) = true := by decide +kernel

-- L9: an odd amount is refused.
theorem test_bltCopy_odd :
    refusedIs (exec (.bltCopy 3) (midBlit (annexRom [0x00, 0x03, 0xAA, 0xBB, 0xCC, 0, 0]) 0 0))
      .bltOddAmount = true := by decide +kernel

-- L5: two words, the lower half and the third word unchanged; the source moves by 4.
theorem test_bltFill : nextIs (exec (.bltFill 4 0x1234) (midBlit (annexRom []) 0 0))
    (fun t => decide (storeWord (quad t.tile 0) 0 = 0x12340000 ∧
      storeWord (quad t.tile 0) 1 = 0x12340000 ∧ storeWord (quad t.tile 0) 2 = 0 ∧
      t.cursor.map BltCursor.src = some 4)) = true := by decide +kernel

-- L11: a write past the bank faults.
theorem test_bltFill_past_the_bank :
    faultIs (exec (.bltFill 2 0xAABB) (midBlit (annexRom []) 0 0x8000))
      (.bltDestOutOfRange 0 0x8000) = true := by decide +kernel

-- R138: back to the initial column, 5 here, one line on.
theorem test_bltNextline : nextIs (exec .bltNextline (midBlit (annexRom [0x03]) 9 256))
    (fun t => decide (t.cursor.map BltCursor.col = some 5 ∧
      t.cursor.map BltCursor.lineBase = some 384 ∧ t.cursor.map BltCursor.src = some 1)) = true := by
  decide +kernel

-- R139: one byte is skipped, the cursor does not move.
theorem test_bltUnknown : nextIs (exec (.bltUnknown 0x7F) (midBlit (annexRom [0x7F]) 9 256))
    (fun t => decide (t.cursor.map BltCursor.col = some 9 ∧ t.cursor.map BltCursor.src = some 1)) = true := by
  decide +kernel

/-! ## Witnesses: the hypotheses of each statement can be met -/

theorem test_witness_DecodeUndoesEncode :
    mapSound annexConfig = true ∧ Instr.wf annexConfig (.sregWr 8 7 0xF) = true ∧
      Instr.wf annexConfig (.unmappedRd 0x3FFFF) = true := by decide +kernel

theorem test_witness_AddressMapAgreesWithRequestTable :
    defaultConfig.addrMap = defaultAddrMap ∧ defaultConfig.sregWords = 9 := by decide

theorem test_witness_RequestRowsAreDisjointAndTotal :
    ∃ r ∈ busTable annexConfig, rowTakes ⟨true, 0x6041C, 0xF, 0⟩ r = true ∧ r.number < 15 := by
  decide +kernel

theorem test_witness_DecodedInputsAreWellFormed : mapSound defaultConfig = true := by decide +kernel

theorem test_witness_AddressLowBitsAreIgnored :
    mapSound defaultConfig = true ∧
      (0x00017#20).extractLsb' 2 18 = (0x00014#20).extractLsb' 2 18 := by decide +kernel

theorem test_witness_CommandIsReadFromItsOwnBytes :
    decodeCmd [0x02, 0x04, 0x12, 0x34] = .ok (.fill 4 0x1234) ∧
      decodeCmd [0x02, 0x04, 0x12] = .error (.streamShort 3) ∧
      decodeCmd [] = .error (.streamShort 0) := by decide

theorem test_witness_StepRunsTheDecodedInstruction :
    (unmarked (waiting resetEvt) = true ∧ (waiting resetEvt).cursor = none ∧
      (waiting resetEvt).inbox = resetEvt :: []) ∧
    (unmarked (midBlit (annexRom [0x03]) 0 0) = true ∧
      (midBlit (annexRom [0x03]) 0 0).cursor.isSome = true ∧
      decodeCmd ((annexRom [0x03]).blitRom.drop 0) = .ok .nextline) ∧
    (unmarked State.reset = true ∧ State.reset.cursor = none ∧ State.reset.inbox = []) ∧
    (markStop State.reset (.fault (.romOutOfRange .tile 0))).marks.fault =
      some (.romOutOfRange .tile 0) ∧
    (markStop State.reset (.refusal .bltOddAmount)).marks.fault = none ∧
    (markStop State.reset (.refusal .bltOddAmount)).marks.refusal = some .bltOddAmount := by
  decide +kernel

theorem test_witness_TableWordIsTheOneRun :
    decodeTableWord 21 0x160414 = some (.bltregWr 5 0 0) ∧
      decodeTableWord 16 0x0003 = some (.bltCopy 3) := by decide +kernel

theorem test_witness_WriteOnlyReadsReturnAFreeWord :
    ∃ wa, Instr.unmappedRd 0x13000 = .unmappedRd wa := ⟨_, rfl⟩

-- Enabled with another level; enabled with the cached level; not enabled.
theorem test_witness_BrightnessWriteSetsOneBank :
    ((0xC4000000#32).getLsbD 31 = true ∧ (0xC4000000#32).extractLsb' 27 4 ≠ pair State.reset.brtCache 1) ∧
    ¬((0x80000000#32).getLsbD 31 = true ∧
      (0x80000000#32).extractLsb' 27 4 ≠ pair State.reset.brtCache 0) ∧
    ¬((0x44000000#32).getLsbD 31 = true) := by decide +kernel

-- A brightness write without the annex, and a blitter register write that starts nothing with it.
theorem test_witness_RepeatedWriteChangesNothing :
    (storesWf State.reset = true ∧
      (∀ data be, decodeBus State.reset.cfg ⟨true, 0x60304, 0xF, 0xC4000000⟩ ≠
        .bltregWr State.reset.cfg.bltRegLayout.start data be) ∧
      nextIs (exec (decodeBus State.reset.cfg ⟨true, 0x60304, 0xF, 0xC4000000⟩) State.reset)
        (fun _ => true) = true) ∧
    (storesWf (initState annexConfig) = true ∧
      (∀ data be, decodeBus annexConfig ⟨true, 0x60400, 0xF, 7⟩ ≠
        .bltregWr annexConfig.bltRegLayout.start data be) ∧
      nextIs (exec (decodeBus annexConfig ⟨true, 0x60400, 0xF, 7⟩) (initState annexConfig))
        (fun t => decide (storeWord t.bltReg 0 = 7)) = true) := by
  have h1 : decodeBus State.reset.cfg ⟨true, 0x60304, 0xF, 0xC4000000⟩ = .brtWr 1 0xC4000000 0xF := by
    decide +kernel
  have h2 : decodeBus annexConfig ⟨true, 0x60400, 0xF, 7⟩ = .bltregWr 0 7 0xF := by decide +kernel
  rw [h1, h2]
  refine ⟨⟨by decide +kernel, fun data be h => (by cases h), by decide +kernel⟩,
    by decide +kernel, fun data be h => ?_, by decide +kernel⟩
  injection h with h0
  exact absurd h0 (by decide)

theorem test_witness_CoreBusRequestsComplete : State.reset.cfg.blitterPresent = false := by decide

-- R40 at both ends of a word, by hand: offsets 0 and 3 under each order.
theorem test_witness_HostByteWriteChangesOneByte :
    (0x00017#20).extractLsb' 0 2 ≠ (0x00014#20).extractLsb' 0 2 ∧
    hostByteOf defaultConfig 0x00014 0xAABBCCDD = 0xAA ∧
    hostByteOf defaultConfig 0x00017 0xAABBCCDD = 0xDD ∧
    hostByteOf { defaultConfig with hostLaneOrder := .little } 0x00014 0xAABBCCDD = 0xDD ∧
    hostByteOf { defaultConfig with hostLaneOrder := .little } 0x00017 0xAABBCCDD = 0xAA := by decide

theorem test_witness_StateStaysSound : State.sound (waiting (sw 0x3FFFC 0xCAFEF00D 0xF)) = true ∧
    nextIs (step (waiting (sw 0x3FFFC 0xCAFEF00D 0xF))) (fun t => decide (t.tile ≠ State.reset.tile))
      = true := by decide +kernel

theorem test_witness_BrightnessCacheStaysInAgreement :
    (∀ k, brightnessAgrees (waiting (sw 0x60304 0xC4000000 0xF)) k = true) ∧
    nextIs (step (waiting (sw 0x60304 0xC4000000 0xF)))
      (fun t => decide (t.contrast = #v[16, 8])) = true := by decide +kernel

theorem test_witness_FullContrastComesOnlyFromReset :
    nextIs (step { waiting resetEvt with contrast := #v[8, 8] })
      (fun t => decide (pair t.contrast 1 = 16)) = true := by decide +kernel

theorem test_witness_UpperTileWordsStayZero :
    (waiting (sw 0x0FFFC 0xFFFFFFFF 0xF)).cfg.blitterPresent = false ∧
    blitterInert (waiting (sw 0x0FFFC 0xFFFFFFFF 0xF)) = true ∧
    nextIs (step (waiting (sw 0x0FFFC 0xFFFFFFFF 0xF)))
      (fun t => decide (storeWord (quad t.tile 0) 0x3FFF = 0xFFFFFFFF)) = true := by decide +kernel

theorem test_witness_NoInputChangesTheConfiguration :
    nextIs (step (waiting resetEvt)) (fun _ => true) = true := by decide +kernel

/-- A step that faults: a refresh with no tile ROM. -/
def stopped : State :=
  { initState { fixture with tileRom := [] } with inbox := [refreshOf .right] }

/-- An outcome that is a fault or a refusal is no next state. -/
theorem notNext_of_fault {o : Host.Outcome State Fault Refusal} {f : Fault}
    (h : faultIs o f = true) (t : State) : o ≠ .next t := by
  intro e
  rw [e] at h
  cases h

theorem test_witness_StoppedRunStaysStopped :
    nextIs (step (waiting resetEvt)) (fun _ => true) = true ∧ ∀ t, step stopped ≠ .next t :=
  ⟨by decide +kernel, notNext_of_fault (f := .romOutOfRange .tile 4) (by decide +kernel)⟩

/-- A COPY of two half-words whose ROM ends one byte into the second. -/
def cutCopy : State :=
  midBlit (annexRom [0x00, 0x04, 0xAA, 0xBB, 0xCC]) 0 0

-- The first half-word stays written (R144), and the fault is that of the byte past the ROM's end.
theorem test_cut_copy_keeps_its_writes :
    storeWord (quad (leftByStop (.bltCopy 4) cutCopy).tile 0) 0 = 0xAABB0000 ∧
      storeWord (quad (leftByStop (.bltCopy 4) cutCopy).tile 0) 1 = 0 := by decide +kernel

-- L12: START stays written and the fault mark is set; the blit is no longer running.
theorem test_stopped_start_keeps_its_register :
    let s := stateAfter { initState (annexRom [0x02, 0x04, 0x12]) with
      inbox := [sw 0x60414 0x11 0xF, resetEvt] }
    storeWord s.bltReg 5 = 0x11 ∧ s.cursor = none ∧ s.inbox = [resetEvt] ∧
      s.marks.fault = some (.romOutOfRange .blit 3) := by decide +kernel

-- A refresh that faults in the fetch of a pixel has cleared its own bitmap and left the other alone.
theorem test_stopped_refresh_keeps_its_clear :
    frameAt (stateAfter stopped).fbRight 0 0 = .black ∧ (stateAfter stopped).fbLeft = blankFrame := by
  decide +kernel

/-- The tiny picture with the two top slots alone, and a ROM that ends before their sprite's third row: slot
0x17FF one row lower, so that this row is off the screen, and slot 0x17FE. -/
def cutSprite : State :=
  { tinyPicture.setSprite
      ([(0x2FFC, 0x0008014A), (0x2FFD, 0x00000002), (0x2FFE, 0x0009014A), (0x2FFF, 0x00100002)].foldl
        (fun m r => storePut m r.1 r.2) []) with
    cfg := { tiny with spriteRom := List.replicate 256 0xFF ++ List.replicate 32 0x09
                       spriteTileCount := some 2 } }

/-- The tiny picture with a front cell whose pixels are past the ROM's end. -/
def cutFront : State :=
  withTile tinyPicture 2 0 0x100000FF

/-- A refresh of the left screen stops with the fault `f`, and its bitmap then shows the pixels `want`. -/
def cutShows (s : State) (f : Fault) (want : List (Nat × Nat × Pixel)) : Bool :=
  match renderFrame s .left with
  | .ok _    => false
  | .error h => decide (h.stop = .fault f) && want.all fun r => decide (frameAt h.left r.1 r.2.1 = r.2.2)

theorem cutShows_fault {s : State} {f : Fault} {want : List (Nat × Nat × Pixel)}
    (h : cutShows s f want = true) : faultIs (exec (refreshInstr .left) s) f = true := by
  unfold cutShows at h
  show faultIs (finish (refreshRun s .left)) f = true
  unfold refreshRun
  cases hr : renderFrame s .left with
  | ok g => rw [hr] at h; cases h
  | error e =>
    rw [hr] at h
    simp only [Bool.and_eq_true, decide_eq_true_eq] at h
    simp [finish, h.1, stopOutcome, faultIs]

-- By hand from R98 (the flip bit is inverted: column 0 reads byte 15), R107, R144: the back layer, slot 0x17FF
-- and the first two rows of slot 0x17FE stay; its third is not drawn.
theorem test_stop_in_a_sprite : cutShows cutSprite (.romOutOfRange .sprite 303)
    [(1, 1, .pen 1), (2, 0, .pen 9), (2, 1, .pen 9), (2, 2, .pen 0x109), (0, 0, .black)] = true := by
  decide +kernel

-- By hand from R110, R144: the back layer and the sprite stay under a front layer that stopped.
theorem test_stop_in_the_front_layer : cutShows cutFront (.romOutOfRange .tile 0x1FE9)
    [(1, 1, .pen 1), (2, 1, .pen 9), (2, 2, .pen 9), (0, 0, .black)] = true := by decide +kernel

/-- A start that fills one half-word and then runs into `rest`. -/
def cutBlit (rest : List Byte) : State :=
  initState (annexRom ([0x02, 0x02, 0xAA, 0xBB] ++ rest))

-- By hand from R132, R144: what the FILL wrote stays, whatever the next command stops on.
theorem test_stopped_start_keeps_its_half_words :
    storeWord (quad (leftByStop (.bltregWr 5 0 0xF) (cutBlit [0x02, 0x04])).tile 0) 0 = 0xAABB0000 ∧
    storeWord (quad (leftByStop (.bltregWr 5 0 0xF) (cutBlit [0x00, 0x04, 0xCC, 0xDD])).tile 0) 1
      = 0xCCDD0000 := by decide +kernel

-- Each stop of a step; of a refresh in its back layer, its sprites, its front layer; of a start in its
-- stream and in a command.
theorem test_witness_StoppedStepKeepsItsWrites :
    (∃ t, fetch stopped = .ok (some (.refreshRight, t)) ∧
      faultIs (exec .refreshRight t) (.romOutOfRange .tile 4) = true) ∧
    refusedIs (exec (.bltFill 1 0) (midBlit (annexRom [0x02, 1, 0, 0]) 0 0)) .bltOddAmount = true ∧
    faultIs (exec (refreshInstr .right) stopped) (.romOutOfRange .tile 4) = true ∧
    faultIs (exec (refreshInstr .left) cutSprite) (.romOutOfRange .sprite 303) = true ∧
    faultIs (exec (refreshInstr .left) cutFront) (.romOutOfRange .tile 0x1FE9) = true ∧
    (cutBlit []).cfg.blitterPresent = true ∧ (cutBlit []).cfg.bltRegLayout.start = 5 ∧
    faultIs (exec (.bltregWr 5 0 0xF) (cutBlit [0x02, 0x04])) (.romOutOfRange .blit 6) = true ∧
    faultIs (exec (.bltregWr 5 0 0xF) (cutBlit [0x00, 0x04, 0xCC, 0xDD])) (.romOutOfRange .blit 8)
      = true ∧
    refusedIs (exec (.bltregWr 5 0 0xF) (cutBlit [0x02, 0x01, 0, 0])) .bltOddAmount = true :=
  ⟨⟨stopped.setInbox [], rfl, by decide +kernel⟩, by decide +kernel, by decide +kernel,
    cutShows_fault test_stop_in_a_sprite, cutShows_fault test_stop_in_the_front_layer, by decide,
    by decide, by decide +kernel, by decide +kernel, by decide +kernel⟩

-- A COPY cut at its first byte and later, a COPY and a FILL past the bank at their first half-word and at
-- their second, an odd amount.
theorem test_witness_StoppedStepKeepsItsWrites_commands :
    (cutCopy.cursor.isSome = true ∧ cutCopy.cfg.bltAmountUnit = .bytes ∧
      (4 : Byte).toNat = 2 * 2 ∧ 0 + 2 + 2 * 1 ≤ cutCopy.cfg.blitRom.length ∧
      cutCopy.cfg.blitRom.length < 0 + 4 + 2 * 1) ∧
    (0 + 2 + 2 * 0 ≤ (annexRom [0x00, 0x04]).blitRom.length ∧
      (annexRom [0x00, 0x04]).blitRom.length < 0 + 4 + 2 * 0) ∧
    (∃ cur, (midBlit (annexRom [0, 4, 1, 2, 3, 4]) 0 0x8000).cursor = some cur ∧
      0x8000 ≤ lineWord cur 0 ∧ cur.src + 4 + 2 * 0 ≤ 6) ∧
    (∃ cur, (midBlit (annexRom [0, 4, 1, 2, 3, 4]) 0 0x7FFF).cursor = some cur ∧
      (∀ k, k < 1 → lineWord cur k < 0x8000) ∧ 0x8000 ≤ lineWord cur 1 ∧ cur.src + 4 + 2 * 1 ≤ 6) ∧
    faultIs (exec (.bltCopy 4) (midBlit (annexRom [0, 4, 1, 2, 3, 4]) 0 0x7FFF))
      (.bltDestOutOfRange 0 0x8000) = true ∧
    storeWord (quad (leftByStop (.bltFill 4 0xAABB) (midBlit (annexRom []) 0 0x7FFF)).tile 0) 0x7FFF
      = 0xAABB0000 ∧
    (3 : Byte).toNat % 2 = 1 :=
  ⟨by decide +kernel, by decide, ⟨_, rfl, by decide, by decide⟩,
    ⟨_, rfl, by decide, by decide, by decide⟩, by decide +kernel, by decide +kernel, by decide⟩

-- A faulting refresh, a faulting command, a refused refresh and a refused command.
theorem test_witness_OnlyTheNamedStopsHappen :
    faultIs (exec .refreshRight (initState { fixture with tileRom := [] }))
      (.romOutOfRange .tile 4) = true ∧
    faultIs (exec (.bltFill 2 0) (midBlit (annexRom []) 0 0x8000)) (.bltDestOutOfRange 0 0x8000) = true ∧
    refusedIs (exec .refreshLeft (initState { fixture with tile4ColourBank := true }))
      .tile4BankShiftUnset = true ∧
    refusedIs (exec (.bltFill 1 0) (midBlit (annexRom []) 0 0)) .bltOddAmount = true ∧
    refusedIs (exec (.bltregWr 5 0 0xF) (initState (annexRom [0x03, 0x00, 0x03, 0xAA])))
      .bltOddAmount = true := by
  decide +kernel

theorem test_witness_OnlyItsRefreshChangesABitmap :
    nextIs (exec .refreshLeft tinyPicture) (fun t => decide (t.fb .left ≠ tinyPicture.fb .left))
      = true := by
  refine nextIs_mono test_refreshLeft fun t h => ?_
  simp only [tinyPictureShown, decide_eq_true_eq] at h ⊢
  intro e
  have h0 := h.2.2.1
  rw [show t.fbLeft = blankFrame from e] at h0
  cases h0

-- A 4bpp and an 8bpp pixel, in the ROM and just past its end.
theorem test_witness_TilePixelFollowsItsFormula :
    fixture.tileDesc = defaultTileDesc ∧ (0x0000000A#32).getLsbD 28 = false ∧
    fixture.tile4ColourBank = false ∧ fixture.tileRom[0x3FF]? = some 0xFF ∧
    fixture.tileRom.length ≤ 0x400 ∧ (0x10000010#32).getLsbD 28 = true ∧
    ({ fixture with tile4ColourBank := true } : Config).tile4BankShift = none := by decide +kernel

theorem test_witness_TilePensStayInRange :
    tilePixel fixture 0x0000000A 8 1 0 = .ok (some 2) ∧
      (decodeTile fixture 0x0000000A).depth = false ∧
      tilePixel fixture 0x10500008 8 3 2 = .ok (some 0x501) ∧
      (decodeTile fixture 0x10500008).depth = true := by decide +kernel

theorem test_witness_DataWordsAssemble : defaultConfig.tileDesc = defaultTileDesc ∧
    defaultConfig.tregLayout = defaultTregLayout ∧ defaultConfig.sprLayout = defaultSprLayout := by
  decide

-- No graphics; wrap; fault policy at the last tile and just past it; a count of its own.
theorem test_witness_SpriteIndexResolves :
    spriteTileCount defaultConfig = 0 ∧ fixture.spriteTileCount = none ∧
      0 < spriteTileCount fixture ∧ fixture.spriteIndexPolicy = .wrap ∧
      spriteTileCount { fixture with spriteIndexPolicy := .fault } ≤ 4 ∧
      3 < spriteTileCount { fixture with spriteIndexPolicy := .fault } ∧
      ({ fixture with spriteTileCount := some 3 } : Config).spriteTileCount = some 3 := by
  decide +kernel

-- A count of 3 wraps tile 5 to 2; a count of 8 lets tile 7 run past the ROM of four tiles.
theorem test_sprite_tile_count :
    resolveSpriteTile { fixture with spriteTileCount := some 3 } 5 = .ok 2 ∧
      spritePixel { fixture with spriteTileCount := some 8 } ⟨0, 0, false, false, 7, 0⟩ 0 0 =
        .error (.fault (.romOutOfRange .sprite 0x700)) := by decide +kernel

theorem test_witness_SpritePixelFollowsItsFormula :
    resolveSpriteTile fixture 7 = .ok 3 ∧ fixture.spriteTileCount = none ∧
      fixture.spriteRom[3 * 256 + 15 * 16 + 15]? = some 0xFF ∧
      resolveSpriteTile { fixture with spriteTileCount := some 8 } 4 = .ok 4 ∧
      fixture.spriteRom.length ≤ 4 * 256 + 0 * 16 + 0 ∧
      resolveSpriteTile defaultConfig 0 = .error (.fault (.spriteIndexOutOfRange 0)) := by
  decide +kernel

theorem test_witness_RefreshShowsTheLayeredPicture :
    nextIs (exec (refreshInstr .left) tinyPicture) (fun _ => true) = true ∧
      2 < tinyPicture.cfg.screenW ∧ 2 < tinyPicture.cfg.screenH :=
  ⟨tinyPicture_completes, by decide, by decide⟩

/-- A screen of one pixel that tiles reach. -/
def dot : Config :=
  { tiny with screenW := 1, screenH := 1, tileClipExclusive := false }

/-- With sprite memory empty every slot samples alike. -/
theorem spriteSample_empty (scr : Screen) (k : Nat) :
    spriteSample (initState dot) scr k 0 0 = spriteSample (initState dot) scr 1 0 0 := by
  unfold spriteSample
  simp only [show (initState dot).sprite = [] from rfl, storeWord_nil]

theorem test_witness_RefreshCompletesWhereAllDecodes :
    pictureDecodes (initState dot) .left ∧ pictureDecodes (initState dot) .right := by
  have one : ∀ n : Nat, n < 1 → n = 0 := by omega
  constructor
  · intro x y hx hy
    rw [one x hx, one y hy]
    refine ⟨by decide +kernel, by decide +kernel, fun k _ => ?_⟩
    rw [spriteSample_empty]
    decide +kernel
  · intro x y hx hy
    rw [one x hx, one y hy]
    refine ⟨by decide +kernel, by decide +kernel, fun k _ => ?_⟩
    rw [spriteSample_empty]
    decide +kernel

theorem test_witness_RefreshTwiceIsRefreshOnce :
    nextIs (exec (refreshInstr .left) tinyPicture) (fun _ => true) = true := tinyPicture_completes

theorem test_witness_RefreshReadsOnlyWhatItRenders :
    sameRenderInputs tinyPicture (withTile tinyPicture 0 0 0x10000001) .left := by
  refine ⟨rfl, fun t ht => ?_, fun i _ _ => rfl⟩
  rcases ht with rfl | rfl <;> exact ⟨fun i _ => rfl, rfl, rfl⟩

theorem test_witness_ExclusiveClipKeepsTilesOffTheBorder :
    tinyPicture.cfg.tileClipExclusive = true ∧
      nextIs (exec (refreshInstr .left) tinyPicture) tinyPictureShown = true ∧
      2 + 1 = tinyPicture.cfg.screenW ∧ 0 < tinyPicture.cfg.screenH :=
  ⟨by decide, test_refreshLeft, by decide, by decide⟩

-- C6: scrollX 512 with 8 by 8 cells is just past the extent.
theorem test_witness_ScrollPastTheExtentDrawsNothing :
    ((64 * cellSize defaultConfig (storePut [] 2 0x20000000) : Nat) : Int) ≤
        scrollY defaultConfig (storePut [] 2 0x20000000) ∧
      ((64 * cellSize defaultConfig (storePut [] 2 0x00002000) : Nat) : Int) ≤
        scrollX defaultConfig (storePut [] 2 0x00002000) := by decide +kernel

theorem test_witness_UniformTilemapTilesTheSurface :
    cellSize tiny [] = 8 ∧ scrollX tiny [] = 0 ∧ scrollY tiny [] = 0 ∧
      (∀ i, i < 4096 → storeWord [] i = 0) ∧
      (match drawMap (initState tiny) 3 clearedFrame with
        | .ok _    => true
        | .error _ => false) = true ∧
      tileInside tiny 1 1 = true ∧ tileInside tiny 2 1 = false :=
  ⟨by decide +kernel, by decide +kernel, by decide +kernel, fun i _ => storeWord_nil i,
    by decide +kernel, by decide +kernel, by decide +kernel⟩

/-- The left screen showing pen `p` everywhere. -/
def showing (p : Pen) : State :=
  { State.reset with fbLeft := { base := .pen p, rows := [] } }

theorem test_witness_PaletteWriteShowsAtOnce :
    frameAt ((showing 0x800).fb .left) 0 0 = .pen ((0x800#12).setWidth 16) ∧
      frameAt ((showing 0x7FF).fb .left) 0 0 = .pen ((0x7FF#12).setWidth 16) ∧
      nextIs (exec (.palWr 0x800 0xFF 0xF) (showing 0x800)) (fun _ => true) = true := by
  decide +kernel

-- UNDEF, BLACK, a pen past the palette, and the last and first pens of the two banks.
theorem test_witness_DisplayedColourFollowsThePalette :
    frameAt (State.reset.fb .left) 0 0 = .undef ∧
      frameAt ((State.reset.setFb .left clearedFrame).fb .left) 0 0 = .black ∧
      frameAt ((showing 0x1000).fb .left) 0 0 = .pen 0x1000 ∧
      frameAt ((showing 0xFFF).fb .left) 0 0 = .pen 0xFFF := by decide +kernel

theorem test_witness_ContrastScaleIsExact :
    defaultConfig.contrastScale = .floor16 ∧ defaultConfig.contrastScale = annexConfig.contrastScale := by
  decide

theorem test_witness_FirstPictureIsBlack :
    nextIs (exec (refreshInstr .left) (initState tiny)) (fun _ => true) = true ∧
      0 < tiny.screenW ∧ 0 < tiny.screenH := by decide +kernel

theorem test_witness_AbsentBlitterDoesNothing : State.reset.cfg.blitterPresent = false := by decide

theorem test_witness_BlitDoneDeliversOnePendingCompletion :
    (initState annexConfig).cfg.blitterPresent = true ∧
      ((initState annexConfig).setPending true).bltPending = true ∧
      (initState annexConfig).bltPending = false := by decide

theorem test_witness_BlitterRegisterWriteMergesLanes :
    (initState annexConfig).cfg.blitterPresent = true ∧
      (4#3 : BitVec 3) ≠ (initState annexConfig).cfg.bltRegLayout.start := by decide

-- The last word of the bank and the first past it; both polarities and both values of the flag.
theorem test_witness_HalfWriteChangesOneHalf :
    nextIs (exec (.bltFill 2 0xAABB) (midBlit (annexRom []) 127 0x7F80))
      (fun t => decide (storeWord (quad t.tile 0) 0x7FFF = 0xAABB0000)) = true ∧
    halfLanes annexConfig true = 0b0011 ∧
    halfLanes { annexConfig with bltHalfPolarity := .upperOn1 } true = 0b1100 ∧
    halfLanes { annexConfig with bltHalfPolarity := .upperOn1 } false = 0b0011 := by decide +kernel

theorem test_witness_CursorCommandsComplete :
    (midBlit annexConfig 0 0).cursor.isSome = true ∧ (initState annexConfig).cursor = none := by
  decide

-- An even byte count whose payload ends where the ROM does, on the last line of the bank.
theorem test_witness_CopyWritesItsPayload :
    (annexRom [0x00, 0x02, 0xAA, 0xBB]).bltAmountUnit = .bytes ∧ (2 : Byte).toNat = 2 * 1 ∧
      0 + 2 + 2 * 1 ≤ (annexRom [0x00, 0x02, 0xAA, 0xBB]).blitRom.length ∧ 0x7F80 + 127 < 0x8000 := by
  decide

-- With the half-word unit a count past 128 comes back over the line.
theorem test_witness_FillWritesItsValue :
    ({ annexConfig with bltAmountUnit := .halfwords } : Config).bltAmountUnit = .halfwords ∧
      (255 : Byte).toNat = 255 ∧ 0x7F80 + 127 < 0x8000 := by decide

theorem test_witness_OddAmountIsRefused :
    (midBlit annexConfig 0 0).cursor.isSome = true ∧ annexConfig.bltAmountUnit = .bytes ∧
      (255 : Byte).toNat % 2 = 1 := by decide

/-- A stream of all five commands: FILL 2, UNKNOWN, NEXTLINE, COPY 2, END. -/
def wholeBlit : State :=
  initState (annexRom [0x02, 0x02, 0x12, 0x34, 0x7F, 0x03, 0x00, 0x02, 0xAA, 0xBB, 0x00, 0x00])

-- By hand from R132, R135 to R139: the FILL writes word 0, the COPY word 128 of the next line.
theorem test_whole_stream_runs :
    nextIs (exec (.bltregWr 5 0 0xF) wholeBlit) (fun t => decide
      (storeWord (quad t.tile 0) 0 = 0x12340000 ∧ storeWord (quad t.tile 0) 128 = 0xAABB0000 ∧
        t.bltPending = true)) = true := by decide +kernel

-- The commands of a start run to their END, two of them and five.
theorem test_witness_BlitWritesOnlyItsBank :
    blitExample.cfg.blitterPresent = true ∧ blitExample.cfg.bltRegLayout.start = 5 ∧
      nextIs (exec (.bltregWr 5 0 0xF) blitExample) (fun _ => true) = true ∧
      (afterCommands 2 { blitExample with
        cursor := some (startCursor blitExample.cfg []) }).any (fun t => t.cursor.isNone) = true ∧
      (afterCommands 5 { wholeBlit with
        cursor := some (startCursor wholeBlit.cfg []) }).any (fun t => t.cursor.isNone) = true := by
  decide +kernel

/-- A blit at COL 127 of LINE 255 of bank 3, lower half, its stream at SRC 1. -/
def blitAtTheEnd : State :=
  { initState (annexRom [0x00, 0x00, 0x02, 0xAA, 0xBB, 0x00, 0x00]) with
    bltReg := storePut (storePut (storePut (storePut (storePut [] 0 1) 1 127) 2 255) 3 3) 4 1 }

-- The example's own registers, and the last word of the last bank.
theorem test_witness_SourceBlitExample :
    (blitExample.cfg.blitterPresent = true ∧ blitExample.cfg.bltRegLayout = defaultBltRegLayout ∧
      blitExample.cfg.bltAmountUnit = .bytes ∧ blitExample.cfg.bltHalfPolarity = .upperOn0 ∧
      blitExample.cfg.blitRom.drop (storeWord blitExample.bltReg 0).toNat =
        [0x00, 0x02, 0xAA, 0xBB, 0x00, 0x00] ++ [] ∧
      (∀ i, i < 5 → storeWord blitExample.bltReg i = 0) ∧
      storeWord (quad blitExample.tile 0) 0 = 0x11223344) ∧
    (blitAtTheEnd.cfg.blitRom.drop (storeWord blitAtTheEnd.bltReg 0).toNat =
        [0x00, 0x02, 0xAA, 0xBB, 0x00, 0x00] ++ [] ∧
      nextIs (exec (.bltregWr 5 0 0xF) blitAtTheEnd)
        (fun t => decide (storeWord (quad t.tile 3) 0x7FFF = 0x0000AABB)) = true) := by decide +kernel

end Sys2Proof.Tests
end

section
/-! PROOFS. Every step keeps the state sound (00_scope.md R9; 10_state.md R19, R34;
48_blitter_optional.md R128). Soundness is taken apart once (`State.sound_iff`), each update of State
keeps the parts, and every instruction the decoder can give keeps them. -/

namespace Sys2Proof.Machine

/-! ## Sound arrays and bitmaps -/

/-- A word array of `n` words: canonical, and no lane past its last word. -/
structure StoreSound (n : Nat) (m : Store) : Prop where
  wf    : m.wf = true
  below : storeBelow n m = true

theorem StoreSound.nil (n : Nat) : StoreSound n [] := ⟨rfl, rfl⟩

theorem StoreSound.noCells (n : Nat) (b : BitVec 2) :
    StoreSound n (quad #v[[], [], [], []] b) := by
  have hb : quad (#v[[], [], [], []] : Vector Store 4) b = [] := by decide +revert
  rw [hb]
  exact .nil n

theorem StoreSound.put {n i : Nat} {m : Store} (h : StoreSound n m) (w : Word) (hi : i < n) :
    StoreSound n (storePut m i w) :=
  ⟨storePut_wf i w h.wf, storePut_below w h.below hi⟩

theorem StoreSound.merge {n i : Nat} {m : Store} (h : StoreSound n m) (data : Word) (be : Lanes)
    (hi : i < n) : StoreSound n (storeMerge m i data be) :=
  h.put _ hi

theorem halfStable_sound : HalfStable (StoreSound tileBankWords) :=
  fun _ _ data be hi h => h.merge data be hi

/-- Replacing one bank of four by a sound one keeps every bank sound. -/
theorem StoreSound.setQuad {n : Nat} {v : Vector Store 4} (h : ∀ b, StoreSound n (quad v b))
    (b : BitVec 2) {m : Store} (hm : StoreSound n m) (b' : BitVec 2) :
    StoreSound n (quad (setQuad v b m) b') := by
  by_cases e : b' = b
  · rw [e, quad_setQuad_self]; exact hm
  · rw [quad_setQuad_ne v m e]; exact h b'

theorem frameSound_blank (c : Config) : frameSound c blankFrame = true := rfl

/-- A bitmap between two plots of a refresh: sound, and cleared to black. -/
structure FrameDrawn (c : Config) (f : Frame) : Prop where
  wf     : f.wf = true
  within : frameWithin c.screenW c.screenH f = true
  black  : f.base = .black

theorem FrameDrawn.cleared (c : Config) : FrameDrawn c clearedFrame := ⟨rfl, rfl, rfl⟩

theorem FrameDrawn.sound {c : Config} {f : Frame} (h : FrameDrawn c f) : frameSound c f = true := by
  simp [frameSound, h.wf, h.within, h.black]

theorem plotStable_drawn (c : Config) : PlotStable c (FrameDrawn c) :=
  fun _ x y _ hx hy h => ⟨plot_wf x y _ h.wf, plot_within _ h.within hx hy, h.black⟩

/-- A refresh leaves its bitmap sound, whether it completes or stops. -/
theorem renderFrame_sound (s : State) (scr : Screen) :
    frameSound s.cfg (leftBy (renderFrame s scr)) = true :=
  (renderFrame_keeps (plotStable_drawn s.cfg) (FrameDrawn.cleared s.cfg) scr).sound

/-! ## The parts of soundness -/

/-- What `State.sound` says, array by array and screen by screen. -/
structure SoundParts (s : State) : Prop where
  tile   : ∀ b, StoreSound tileBankWords (quad s.tile b)
  sprite : StoreSound spriteWords s.sprite
  treg   : ∀ t, StoreSound tregWords (quad s.treg t)
  sreg   : StoreSound s.cfg.sregWords s.sreg
  brt    : StoreSound 2 s.brt
  pal    : StoreSound paletteEntries s.pal
  bltReg : StoreSound bltregWords s.bltReg
  fb     : ∀ scr, frameSound s.cfg (s.fb scr) = true
  idle   : s.cursor = none

theorem storesWf_iff (s : State) : storesWf s = true ↔
    (∀ b, (quad s.tile b).wf = true) ∧ s.sprite.wf = true ∧ (∀ t, (quad s.treg t).wf = true) ∧
      s.sreg.wf = true ∧ s.brt.wf = true ∧ s.pal.wf = true ∧ s.bltReg.wf = true := by
  simp only [storesWf, Bool.and_eq_true, all_quad, and_assoc]

theorem storesBounded_iff (s : State) : storesBounded s = true ↔
    (∀ b, storeBelow tileBankWords (quad s.tile b) = true) ∧ storeBelow spriteWords s.sprite = true ∧
      (∀ t, storeBelow tregWords (quad s.treg t) = true) ∧
      storeBelow s.cfg.sregWords s.sreg = true ∧ storeBelow 2 s.brt = true ∧
      storeBelow paletteEntries s.pal = true ∧ storeBelow bltregWords s.bltReg = true := by
  simp only [storesBounded, Bool.and_eq_true, all_quad, and_assoc]

theorem State.sound_iff (s : State) : s.sound = true ↔ SoundParts s := by
  simp only [State.sound, Bool.and_eq_true, storesWf_iff, storesBounded_iff, Option.isNone_iff_eq_none]
  constructor
  · rintro ⟨⟨⟨⟨⟨wTile, wSprite, wTreg, wSreg, wBrt, wPal, wBlt⟩,
      bTile, bSprite, bTreg, bSreg, bBrt, bPal, bBlt⟩, hLeft⟩, hRight⟩, hIdle⟩
    exact ⟨fun b => ⟨wTile b, bTile b⟩, ⟨wSprite, bSprite⟩, fun t => ⟨wTreg t, bTreg t⟩,
      ⟨wSreg, bSreg⟩, ⟨wBrt, bBrt⟩, ⟨wPal, bPal⟩, ⟨wBlt, bBlt⟩,
      fun scr => by cases scr <;> assumption, hIdle⟩
  · intro h
    exact ⟨⟨⟨⟨⟨fun b => (h.tile b).wf, h.sprite.wf, fun t => (h.treg t).wf, h.sreg.wf, h.brt.wf,
      h.pal.wf, h.bltReg.wf⟩, fun b => (h.tile b).below, h.sprite.below, fun t => (h.treg t).below,
      h.sreg.below, h.brt.below, h.pal.below, h.bltReg.below⟩, h.fb .left⟩, h.fb .right⟩, h.idle⟩

/-! ## Updates that keep the parts -/

namespace SoundParts

variable {s : State}

theorem setInbox (h : SoundParts s) (rest : List Input) : SoundParts (s.setInbox rest) := { h with }

theorem reply (h : SoundParts s) (o : Option Output) : SoundParts (s.reply o) := { h with }

theorem replyFree (h : SoundParts s) : SoundParts s.replyFree := { h with }

theorem setPending (h : SoundParts s) (b : Bool) : SoundParts (s.setPending b) := { h with }

theorem setTile (h : SoundParts s) (b : BitVec 2) {m : Store} (hm : StoreSound tileBankWords m) :
    SoundParts (s.setTile b m) :=
  { h with tile := StoreSound.setQuad h.tile b hm }

theorem setSprite (h : SoundParts s) {m : Store} (hm : StoreSound spriteWords m) :
    SoundParts (s.setSprite m) :=
  { h with sprite := hm }

theorem setTreg (h : SoundParts s) (t : BitVec 2) {m : Store} (hm : StoreSound tregWords m) :
    SoundParts (s.setTreg t m) :=
  { h with treg := StoreSound.setQuad h.treg t hm }

theorem setSreg (h : SoundParts s) {m : Store} (hm : StoreSound s.cfg.sregWords m) :
    SoundParts (s.setSreg m) :=
  { h with sreg := hm }

theorem setBrt (h : SoundParts s) {m : Store} (hm : StoreSound 2 m) : SoundParts (s.setBrt m) :=
  { h with brt := hm }

theorem setPal (h : SoundParts s) {m : Store} (hm : StoreSound paletteEntries m) :
    SoundParts (s.setPal m) :=
  { h with pal := hm }

theorem setBltReg (h : SoundParts s) {m : Store} (hm : StoreSound bltregWords m) :
    SoundParts (s.setBltReg m) :=
  { h with bltReg := hm }

theorem setFb (h : SoundParts s) (scr : Screen) {f : Frame} (hf : frameSound s.cfg f = true) :
    SoundParts (s.setFb scr f) := by
  cases scr with
  | left => exact { h with fb := fun | .left => hf | .right => h.fb .right }
  | right => exact { h with fb := fun | .left => h.fb .left | .right => hf }

theorem applyBrightness (h : SoundParts s) (v : Word) : SoundParts (applyBrightness v s) := by
  rw [applyBrightness_only]
  exact { h with }

/-- A state that differs only in what a blit can change is sound, if its tile banks are and no blit is
running. -/
theorem of_blitFields {t : State} (h : SoundParts s) (hf : BlitFields s t)
    (htile : ∀ b, StoreSound tileBankWords (quad t.tile b)) (hidle : t.cursor = none) :
    SoundParts t := by
  unfold BlitFields at hf
  rw [hf]
  exact { h with tile := htile, idle := hidle }

/-- The values of R38 are sound, under any configuration. -/
theorem initState (c : Config) : SoundParts (initState c) where
  tile   := .noCells _
  sprite := .nil _
  treg   := .noCells _
  sreg   := .nil _
  brt    := .nil _
  pal    := .nil _
  bltReg := .nil _
  fb     := fun | .left => frameSound_blank c | .right => frameSound_blank c
  idle   := rfl

end SoundParts

/-! ## Runs that complete -/

/-- A blit that completes leaves a sound state sound: its bank is changed by masked writes inside it, and
no blit is running after (R132, R136). -/
theorem startBlit_sound {s t : State} (h : SoundParts s) (ht : startBlit s = .ok t) :
    SoundParts t := by
  obtain ⟨hleft, hdone⟩ := runBlit_cases halfStable_sound (s.cfg.blitRom.length + 1)
    (s := s.setCursor (some (startCursor s.cfg s.bltReg))) rfl
  change runBlit _ _ = _ at ht
  rw [ht] at hleft
  obtain ⟨hfields, m, htile, hm⟩ := hleft
  change t.tile = setQuad s.tile (startCursor s.cfg s.bltReg).tm m at htile
  refine h.of_blitFields hfields ?_ (hdone t ht).1
  rw [htile]
  exact StoreSound.setQuad h.tile _ (hm (h.tile _))

theorem bltregWrRun_sound {s t : State} (h : SoundParts s) (off : BitVec 3) (data : Word) (be : Lanes)
    (ht : bltregWrRun off data be s = .ok t) : SoundParts t := by
  have hwritten := (h.setBltReg (h.bltReg.merge data be off.isLt)).reply none
  unfold bltregWrRun at ht
  split at ht
  · simp only at ht
    split at ht
    · exact startBlit_sound hwritten ht
    · cases ht; exact hwritten
  · cases ht; exact h.reply none

theorem refreshRun_sound {s t : State} (h : SoundParts s) (scr : Screen)
    (ht : refreshRun s scr = .ok t) : SoundParts t := by
  obtain ⟨f, hf, rfl⟩ := refreshRun_ok ht
  have hsound := renderFrame_sound s scr
  rw [hf] at hsound
  exact (h.setFb scr hsound).reply none

/-- With no blit running a command leaves a sound state sound (log 14). -/
theorem runCmd_sound {s t : State} (h : SoundParts s) (cmd : BltCmd) (ht : runCmd cmd s = .ok t) :
    SoundParts t := by
  rw [runCmd_idle cmd h.idle] at ht
  cases ht
  exact h.reply none

/-! ## Instructions -/

/-- A write addresses a word of its array. The offset of any other window cannot be past its array. -/
def writesInside (c : Config) : Instr → Prop
  | .sprWr off _ _    => off.toNat < spriteWords
  | .tregWr _ off _ _ => off.toNat < tregWords
  | .sregWr off _ _   => off.toNat < c.sregWords
  | _                 => True

theorem regionInstr_writesInside (c : Config) (q : BusReq) {r : Region} {idx : Nat}
    (hi : idx < regionWords c r) : writesInside c (regionInstr r idx q) := by
  have hmod : ∀ n, (BitVec.ofNat n idx).toNat < regionWords c r := fun n =>
    Nat.lt_of_le_of_lt (Nat.mod_le _ _) hi
  obtain ⟨w, addr, be, data⟩ := q
  cases w with
  | false => cases r <;> trivial
  | true =>
    cases r with
    | sprite => exact hmod 14
    | treg t => exact hmod 5
    | sreg => exact hmod 4
    | _ => trivial

/-- Whatever the host sends decodes to no write past its array, whether or not the map is sound. -/
theorem decodeInput_writesInside (c : Config) (i : Input) : writesInside c (decodeInput c i) := by
  cases i with
  | evt code =>
    change writesInside c (decodeEvt code)
    unfold decodeEvt
    split <;> trivial
  | bus q =>
    change writesInside c (decodeBus c q)
    unfold decodeBus
    split
    · next w hw =>
      obtain ⟨-, hholds⟩ := windowAt_some hw
      simp only [windowHolds, Bool.and_eq_true, decide_eq_true_eq] at hholds
      exact regionInstr_writesInside c q hholds.2
    · unfold unmappedInstr
      split <;> trivial

/-- Every instruction whose write is inside its array leaves a sound state sound when it completes. -/
theorem exec_sound {s t : State} {i : Instr} (h : SoundParts s) (hi : writesInside s.cfg i)
    (ht : exec i s = .next t) : SoundParts t := by
  cases i with
  | tileRd b off => cases ht; exact h.reply _
  | sprRd off => cases ht; exact h.reply _
  | palRd idx => cases ht; exact h.reply _
  | tregRd b off => cases ht; exact h.replyFree
  | sregRd off => cases ht; exact h.replyFree
  | brtRd p => cases ht; exact h.replyFree
  | bltregRd off => cases ht; exact h.replyFree
  | unmappedRd wa => cases ht; exact h.replyFree
  | unmappedWr wa data be => cases ht; exact h.reply _
  | tileWr b off data be =>
    cases ht
    exact (h.setTile b ((h.tile b).merge data be (Nat.lt_trans off.isLt (by decide)))).reply _
  | sprWr off data be => cases ht; exact (h.setSprite (h.sprite.merge data be hi)).reply _
  | palWr idx data be => cases ht; exact (h.setPal (h.pal.merge data be idx.isLt)).reply _
  | tregWr b off data be => cases ht; exact (h.setTreg b ((h.treg b).merge data be hi)).reply _
  | sregWr off data be => cases ht; exact (h.setSreg (h.sreg.merge data be hi)).reply _
  | brtWr p data be =>
    cases ht
    exact ((h.setBrt (h.brt.put _ p.isLt)).applyBrightness _).reply _
  | bltregWr off data be => exact bltregWrRun_sound h off data be (finish_next_iff.1 ht)
  | refreshLeft => exact refreshRun_sound h .left (finish_next_iff.1 ht)
  | refreshRight => exact refreshRun_sound h .right (finish_next_iff.1 ht)
  | blitDone =>
    change execBlitDone s = _ at ht
    unfold execBlitDone at ht
    split at ht
    · cases ht; exact (h.setPending false).reply _
    · cases ht; exact h.reply none
  | reset => cases ht; exact { SoundParts.initState s.cfg with }
  | bltEnd => exact runCmd_sound h .endList (finish_next_iff.1 ht)
  | bltCopy amt => exact runCmd_sound h (.copy amt) (finish_next_iff.1 ht)
  | bltFill amt v => exact runCmd_sound h (.fill amt v) (finish_next_iff.1 ht)
  | bltNextline => exact runCmd_sound h .nextline (finish_next_iff.1 ht)
  | bltUnknown c0 => exact runCmd_sound h (.unknown c0) (finish_next_iff.1 ht)

/-! ## The step -/

/-- All a step that goes on can do with no blit running: nothing, or run the first input of the inbox. -/
theorem step_next_idle {s t : State} (hc : s.cursor = none) (ht : step s = .next t) :
    t = s ∨ ∃ i rest, s.inbox = i :: rest ∧
      exec (decodeInput s.cfg i) (s.setInbox rest) = .next t := by
  unfold step fetch at ht
  cases hm : markedStop s.marks with
  | some e => rw [hm] at ht; exact absurd ht (stopOutcome_ne_next e t)
  | none =>
    rw [hm, hc] at ht
    cases hin : s.inbox with
    | nil => rw [hin] at ht; cases ht; exact .inl rfl
    | cons i rest => rw [hin] at ht; exact .inr ⟨i, rest, rfl, ht⟩

theorem step_sound {s t : State} (h : SoundParts s) (ht : step s = .next t) : SoundParts t := by
  rcases step_next_idle h.idle ht with rfl | ⟨i, rest, -, hexec⟩
  · exact h
  · exact exec_sound (h.setInbox rest) (decodeInput_writesInside s.cfg i) hexec

/-- Settles O18: soundness is an invariant of the step, by the instruction it runs. -/
theorem stateStaysSound : Obligations.StateStaysSound := by
  intro s t hs ht
  exact (State.sound_iff t).2 (step_sound ((State.sound_iff s).1 hs) ht)

end Sys2Proof.Machine
end

section
/-! PROOFS. What a step that goes on keeps of the configuration, the bitmaps and the contrast
(10_state.md R20, R31, R34), and that an absent blitter stays without a trace (10_state.md R23;
48_blitter_optional.md R126). What an instruction that completes can do to the display is said once
(`exec_next_cases`), and the statements are read off it. -/

namespace Sys2Proof.Machine

/-! ## The display under an instruction -/

/-- What every instruction but a refresh and RESET keeps: the configuration, both bitmaps, and each bank's
contrast, unless it sets that to less than full. -/
structure DisplayKept (s t : State) : Prop where
  cfg      : t.cfg = s.cfg
  fb       : ∀ scr, t.fb scr = s.fb scr
  contrast : ∀ k, pair t.contrast k = pair s.contrast k ∨ pair t.contrast k ≠ 16

namespace DisplayKept

variable {s t : State}

theorem of_fields (hcfg : t.cfg = s.cfg) (hleft : t.fbLeft = s.fbLeft) (hright : t.fbRight = s.fbRight)
    (hcontrast : t.contrast = s.contrast) : DisplayKept s t where
  cfg := hcfg
  fb  := fun | .left => hleft | .right => hright
  contrast k := .inl (by rw [hcontrast])

theorem of_blitFields (h : BlitFields s t) : DisplayKept s t :=
  of_fields (by rw [h]) (by rw [h]) (by rw [h]) (by rw [h])

theorem of_runCmd (cmd : BltCmd) (h : runCmd cmd s = .ok t) : DisplayKept s t := by
  have hleft := runCmd_leaves cmd s
  rw [h] at hleft
  exact of_blitFields hleft

theorem of_bltregWrRun {off : BitVec 3} {data : Word} {be : Lanes}
    (h : bltregWrRun off data be s = .ok t) : DisplayKept s t := by
  obtain ⟨m, hleft⟩ := bltregWrRun_leaves off data be s
  rw [h] at hleft
  exact { of_blitFields hleft with }

/-- A written level is never full contrast (43_palette_output.md R119). -/
theorem applyBrightness (v : Word) (s : State) : DisplayKept s (applyBrightness v s) := by
  rcases applyBrightness_cases v s with ⟨-, h⟩ | ⟨-, h⟩
  · rw [h]
    refine ⟨rfl, fun | .left => rfl | .right => rfl, fun k => ?_⟩
    rw [State.setBrtCache_contrast, State.setContrast_contrast]
    by_cases hk : k = brtBank v
    · rw [hk, pair_setPair_self]
      exact .inr (Fin.ne_of_lt (levelNumerator_lt _))
    · exact .inl (pair_setPair_ne _ _ hk)
  · rw [h]
    exact of_fields rfl rfl rfl rfl

end DisplayKept

theorem State.setFb_fb_ne (s : State) {scr scr' : Screen} (f : Frame) (h : scr' ≠ scr) :
    (s.setFb scr' f).fb scr = s.fb scr := by
  cases scr' with
  | left => cases scr with
    | left => exact absurd rfl h
    | right => rfl
  | right => cases scr with
    | left => rfl
    | right => exact absurd rfl h

/-- All an instruction that completes can do to the display: RESET starts it anew (R160), a refresh
replaces its screen's bitmap (R112), and everything else keeps it but for a brightness level. -/
theorem exec_next_cases {i : Instr} {s t : State} (ht : exec i s = .next t) :
    (i = .reset ∧
      t = { initState s.cfg with marks := s.marks, inbox := s.inbox, draws := s.draws }) ∨
    (∃ scr f, i = refreshInstr scr ∧ t = (s.setFb scr f).reply none) ∨
    DisplayKept s t := by
  cases i with
  | reset => cases ht; exact .inl ⟨rfl, rfl⟩
  | refreshLeft =>
    obtain ⟨f, -, rfl⟩ := refreshRun_ok (finish_next_iff.1 ht)
    exact .inr (.inl ⟨.left, f, rfl, rfl⟩)
  | refreshRight =>
    obtain ⟨f, -, rfl⟩ := refreshRun_ok (finish_next_iff.1 ht)
    exact .inr (.inl ⟨.right, f, rfl, rfl⟩)
  | brtWr p data be =>
    cases ht
    exact .inr (.inr { DisplayKept.applyBrightness _ _ with })
  | blitDone =>
    change execBlitDone s = _ at ht
    unfold execBlitDone at ht
    split at ht <;> cases ht <;> exact .inr (.inr (.of_fields rfl rfl rfl rfl))
  | bltregWr off data be => exact .inr (.inr (.of_bltregWrRun (finish_next_iff.1 ht)))
  | bltEnd => exact .inr (.inr (.of_runCmd .endList (finish_next_iff.1 ht)))
  | bltCopy amt => exact .inr (.inr (.of_runCmd (.copy amt) (finish_next_iff.1 ht)))
  | bltFill amt v => exact .inr (.inr (.of_runCmd (.fill amt v) (finish_next_iff.1 ht)))
  | bltNextline => exact .inr (.inr (.of_runCmd .nextline (finish_next_iff.1 ht)))
  | bltUnknown c0 => exact .inr (.inr (.of_runCmd (.unknown c0) (finish_next_iff.1 ht)))
  | _ => cases ht; exact .inr (.inr (.of_fields rfl rfl rfl rfl))

theorem exec_cfg {i : Instr} {s t : State} (ht : exec i s = .next t) : t.cfg = s.cfg := by
  rcases exec_next_cases ht with ⟨-, rfl⟩ | ⟨scr, f, -, rfl⟩ | h
  · rfl
  · simp
  · exact h.cfg

/-! ## The step -/

/-- What `fetch` gives to run, it gives with the state as it is, but for the inputs still to come. -/
theorem fetch_some {s u : State} {i : Instr} (h : fetch s = .ok (some (i, u))) :
    ∃ rest, u = s.setInbox rest := by
  unfold fetch at h
  cases hm : markedStop s.marks with
  | some e => rw [hm] at h; cases h
  | none =>
    rw [hm] at h
    cases hc : s.cursor with
    | some cur =>
      rw [hc] at h
      simp only at h
      cases hcmd : fetchCmd s.cfg cur.src with
      | error e => rw [hcmd] at h; cases h
      | ok cmd => rw [hcmd] at h; cases h; exact ⟨s.inbox, rfl⟩
    | none =>
      rw [hc] at h
      cases hin : s.inbox with
      | nil => rw [hin] at h; cases h
      | cons i' rest => rw [hin] at h; cases h; exact ⟨rest, rfl⟩

/-- All a step that goes on can do: nothing, or complete the fetched instruction. -/
theorem step_next_cases {s t : State} (ht : step s = .next t) :
    t = s ∨ ∃ i rest, fetch s = .ok (some (i, s.setInbox rest)) ∧
      exec i (s.setInbox rest) = .next t := by
  unfold step at ht
  cases hf : fetch s with
  | error e => rw [hf] at ht; exact absurd ht (stopOutcome_ne_next e t)
  | ok r =>
    rw [hf] at ht
    cases r with
    | none => cases ht; exact .inl rfl
    | some q =>
      obtain ⟨i, u⟩ := q
      obtain ⟨rest, rfl⟩ := fetch_some hf
      exact .inr ⟨i, rest, rfl, ht⟩

theorem step_cfg {s t : State} (ht : step s = .next t) : t.cfg = s.cfg := by
  rcases step_next_cases ht with rfl | ⟨i, rest, -, hexec⟩
  · rfl
  · exact (exec_cfg hexec).trans (State.setInbox_cfg s rest)

/-- Settles O23: every instruction that completes keeps the configuration. -/
theorem noInputChangesTheConfiguration : Obligations.NoInputChangesTheConfiguration :=
  fun _ _ ht => step_cfg ht

/-- Settles O27, by what an instruction can do to the display. -/
theorem onlyItsRefreshChangesABitmap : Obligations.OnlyItsRefreshChangesABitmap := by
  intro i s t scr ht hne
  rcases exec_next_cases ht with ⟨hi, -⟩ | ⟨scr', f, hi, rfl⟩ | h
  · exact .inr hi
  · by_cases hscr : scr' = scr
    · exact .inl (hscr ▸ hi)
    · rw [State.reply_fb, State.setFb_fb_ne s f hscr] at hne
      exact absurd rfl hne
  · exact absurd (h.fb scr) hne

/-- Settles O21: outside RESET a bank's contrast stays or becomes less than full. -/
theorem fullContrastComesOnlyFromReset : Obligations.FullContrastComesOnlyFromReset := by
  intro s t k ht hfull
  rcases step_next_cases ht with rfl | ⟨i, rest, hfetch, hexec⟩
  · exact .inl hfull
  rcases exec_next_cases hexec with ⟨rfl, -⟩ | ⟨scr, f, -, rfl⟩ | h
  · exact .inr ⟨_, hfetch⟩
  · simp only [State.reply_contrast, State.setFb_contrast, State.setInbox_contrast] at hfull
    exact .inl hfull
  · rcases h.contrast k with hsame | hdim
    · exact .inl (hsame.symm.trans hfull)
    · exact absurd hfull hdim

/-! ## The absent blitter -/

/-- What `blitterInert` says, part by part. -/
structure InertParts (s : State) : Prop where
  regs    : s.bltReg = []
  pending : s.bltPending = false
  idle    : s.cursor = none
  upper   : s.tile.all (storeBelow tileWindowWords) = true

theorem blitterInert_iff (s : State) : blitterInert s = true ↔ InertParts s := by
  simp only [blitterInert, Bool.and_eq_true, decide_eq_true_eq, Bool.not_eq_true',
    Option.isNone_iff_eq_none]
  exact ⟨fun ⟨⟨⟨hregs, hpending⟩, hidle⟩, hupper⟩ => ⟨hregs, hpending, hidle, hupper⟩,
    fun h => ⟨⟨⟨h.regs, h.pending⟩, h.idle⟩, h.upper⟩⟩

namespace InertParts

variable {s : State}

theorem initState (c : Config) : InertParts (initState c) :=
  ⟨rfl, rfl, rfl, (all_quad _ _).2 fun b => (StoreSound.noCells _ b).below⟩

theorem setInbox (h : InertParts s) (rest : List Input) : InertParts (s.setInbox rest) := { h with }

theorem reply (h : InertParts s) (o : Option Output) : InertParts (s.reply o) := { h with }

/-- A bus write reaches the bank's window alone (20_memory.md R45). -/
theorem setTile (h : InertParts s) (b : BitVec 2) (off : BitVec 14) (data : Word) (be : Lanes) :
    InertParts (s.setTile b (storeMerge (quad s.tile b) off.toNat data be)) :=
  { h with
    upper := all_setQuad h.upper (storeMerge_below _ _ ((all_quad _ _).1 h.upper b) off.isLt) }

theorem setBrt (h : InertParts s) (m : Store) : InertParts (s.setBrt m) := { h with }

theorem setFb (h : InertParts s) (scr : Screen) (f : Frame) : InertParts (s.setFb scr f) := by
  cases scr <;> exact { h with }

theorem applyBrightness (h : InertParts s) (v : Word) : InertParts (applyBrightness v s) := by
  rw [applyBrightness_only]
  exact { h with }

theorem refreshRun {t : State} (h : InertParts s) {scr : Screen} (ht : refreshRun s scr = .ok t) :
    InertParts t := by
  obtain ⟨f, -, rfl⟩ := refreshRun_ok ht
  exact (h.setFb scr f).reply none

/-- With no blit running a command leaves no trace (log 14). -/
theorem runCmd {t : State} (h : InertParts s) (cmd : BltCmd) (ht : runCmd cmd s = .ok t) :
    InertParts t := by
  rw [runCmd_idle cmd h.idle] at ht
  cases ht
  exact h.reply none

theorem word_zero (h : InertParts s) (b : BitVec 2) {i : Nat} (hi : tileWindowWords ≤ i) :
    storeWord (quad s.tile b) i = 0 :=
  storeWord_of_below ((all_quad _ _).1 h.upper b) hi

end InertParts

/-- Without the annex the register window is unmapped (48_blitter_optional.md R126). -/
theorem bltregWrRun_absent {s : State} (hp : s.cfg.blitterPresent = false) (off : BitVec 3)
    (data : Word) (be : Lanes) : bltregWrRun off data be s = .ok (s.reply none) := by
  simp [bltregWrRun, hp]

/-- Without the annex BLIT_DONE does nothing (48_blitter_optional.md R126). -/
theorem execBlitDone_absent {s : State} (hp : s.cfg.blitterPresent = false) :
    execBlitDone s = .next (s.reply none) := by
  simp [execBlitDone, hp]

/-- Without the annex every instruction that completes leaves the blitter without a trace. -/
theorem exec_inert {i : Instr} {s t : State} (hp : s.cfg.blitterPresent = false) (h : InertParts s)
    (ht : exec i s = .next t) : InertParts t := by
  cases i with
  | tileWr b off data be => cases ht; exact (h.setTile b off data be).reply none
  | brtWr p data be =>
    cases ht
    exact ((h.setBrt _).applyBrightness _).reply none
  | bltregWr off data be =>
    change finish (bltregWrRun off data be s) = _ at ht
    rw [bltregWrRun_absent hp] at ht
    cases ht
    exact h.reply none
  | refreshLeft => exact h.refreshRun (finish_next_iff.1 ht)
  | refreshRight => exact h.refreshRun (finish_next_iff.1 ht)
  | blitDone =>
    change execBlitDone s = _ at ht
    rw [execBlitDone_absent hp] at ht
    cases ht
    exact h.reply none
  | reset => cases ht; exact { InertParts.initState s.cfg with }
  | bltEnd => exact h.runCmd .endList (finish_next_iff.1 ht)
  | bltCopy amt => exact h.runCmd (.copy amt) (finish_next_iff.1 ht)
  | bltFill amt v => exact h.runCmd (.fill amt v) (finish_next_iff.1 ht)
  | bltNextline => exact h.runCmd .nextline (finish_next_iff.1 ht)
  | bltUnknown c0 => exact h.runCmd (.unknown c0) (finish_next_iff.1 ht)
  | _ => cases ht; exact { h with }

theorem step_inert {s t : State} (hp : s.cfg.blitterPresent = false) (h : InertParts s)
    (ht : step s = .next t) : InertParts t := by
  rcases step_next_cases ht with rfl | ⟨i, rest, -, hexec⟩
  · exact h
  · exact exec_inert (s := s.setInbox rest) hp (h.setInbox rest) hexec

/-- Settles O22: the absent blitter's parts are an invariant of the step, by the instruction it runs. -/
theorem upperTileWordsStayZero : Obligations.UpperTileWordsStayZero := by
  intro s t hp hs ht
  have hinert := step_inert hp ((blitterInert_iff s).1 hs) ht
  exact ⟨by rw [step_cfg ht, hp], (blitterInert_iff t).2 hinert, fun b i hi => hinert.word_zero b hi⟩

/-! ## The initial state -/

/-- Both banks start at full contrast with the cache's reset value (R38; 43_palette_output.md R121). -/
theorem brightnessAgrees_initState (c : Config) (k : BitVec 1) :
    brightnessAgrees (initState c) k = true := by
  have hboth : ∀ {α : Type} (x : α), pair #v[x, x] k = x := by
    intro α x
    obtain rfl | rfl : k = 0 ∨ k = 1 := by decide +revert
    · rfl
    · rfl
  simp [brightnessAgrees, initState, hboth]

/-- Settles O19, invariant by invariant. -/
theorem initialStateMeetsTheInvariants : Obligations.InitialStateMeetsTheInvariants :=
  fun c => ⟨(State.sound_iff _).2 (SoundParts.initState c),
    (blitterInert_iff _).2 (InertParts.initState c), brightnessAgrees_initState c⟩

end Sys2Proof.Machine
end

section
/-! PROOFS. A refresh reads nothing but what it renders (10_state.md R27, R28; 42_compositor.md R104,
R107): the rendered frame is the same for two states that agree on it, stops included. -/

namespace Sys2Proof.Machine

/-- A tilemap draw reads the 64 by 64 grid and register words 0 and 2 (R104). -/
theorem drawTilemap_congr (c : Config) {bank bank' treg treg' : Store}
    (hgrid : ∀ i, i < gridSize * gridSize → storeWord bank i = storeWord bank' i)
    (h0 : storeWord treg 0 = storeWord treg' 0) (h2 : storeWord treg 2 = storeWord treg' 2) (f : Frame) :
    drawTilemap c bank treg f = drawTilemap c bank' treg' f := by
  refine raster_congr (fun f col row hcol hrow => ?_) f
  have hcell : row * gridSize + col < gridSize * gridSize := by
    unfold gridSize at *
    omega
  simp only [drawGridCell, cellSize, scrollX, scrollY, h0, h2, hgrid _ hcell]

/-- The walk from slot `k` down reads the words of slots 1 to `k` (R107). -/
theorem walkSprites_congr (c : Config) {mem mem' : Store} (xoff : Int) {k : Nat}
    (hmem : ∀ i, 2 ≤ i → i ≤ 2 * k + 1 → storeWord mem i = storeWord mem' i) (f : Frame) :
    walkSprites c mem xoff k f = walkSprites c mem' xoff k f := by
  induction k generalizing f with
  | zero => rfl
  | succ k ih =>
    unfold walkSprites
    rw [hmem (2 * (k + 1)) (by omega) (by omega), hmem (2 * (k + 1) + 1) (by omega) (by omega)]
    simp only [ih fun i hi hk => hmem i hi (by omega)]

theorem renderFrame_congr {s s' : State} {scr : Screen} (h : sameRenderInputs s s' scr) :
    renderFrame s scr = renderFrame s' scr := by
  obtain ⟨hcfg, hmaps, hsprite⟩ := h
  have hmap : ∀ t, t = backMap scr ∨ t = frontMap scr → drawMap s t = drawMap s' t := by
    intro t ht
    obtain ⟨hgrid, h0, h2⟩ := hmaps t ht
    funext f
    unfold drawMap
    rw [hcfg]
    exact drawTilemap_congr _ hgrid h0 h2 f
  have hsprites : drawSprites s.cfg s.sprite (spriteXoff scr) =
      drawSprites s'.cfg s'.sprite (spriteXoff scr) := by
    funext f
    rw [hcfg]
    exact walkSprites_congr _ _
      (fun i hi hk => hsprite i hi (Nat.lt_of_le_of_lt hk (by decide))) f
  unfold renderFrame
  rw [hmap _ (.inl rfl), hmap _ (.inr rfl), hsprites]

theorem exec_refresh (scr : Screen) (s : State) :
    exec (refreshInstr scr) s = finish (refreshRun s scr) := by
  cases scr <;> rfl

/-- A refresh of two states with one rendered frame ends alike: with that frame as the screen's bitmap, or
in its stop. -/
theorem exec_refresh_cases {s s' : State} {scr : Screen} (h : renderFrame s scr = renderFrame s' scr) :
    (∃ f, exec (refreshInstr scr) s = .next ((s.setFb scr f).reply none) ∧
      exec (refreshInstr scr) s' = .next ((s'.setFb scr f).reply none)) ∨
    ∃ e, exec (refreshInstr scr) s = stopOutcome e ∧ exec (refreshInstr scr) s' = stopOutcome e := by
  simp only [exec_refresh, refreshRun, h]
  cases renderFrame s' scr with
  | ok f => exact .inl ⟨f, rfl, rfl⟩
  | error e => exact .inr ⟨e.stop, rfl, rfl⟩

/-- Settles O38: states that agree on what is rendered render one frame. -/
theorem refreshReadsOnlyWhatItRenders : Obligations.RefreshReadsOnlyWhatItRenders := by
  intro s s' scr hsame
  rcases exec_refresh_cases (renderFrame_congr hsame) with ⟨f, hs, hs'⟩ | ⟨e, hs, hs'⟩
  · rw [hs, hs']
    refine ⟨fun t ht => ⟨_, rfl, ?_⟩, fun f hf => (by cases hf), fun r hr => (by cases hr)⟩
    cases ht
    simp
  · rw [hs, hs']
    exact ⟨fun t ht => absurd ht (stopOutcome_ne_next e t), fun _ h => h, fun _ h => h⟩

end Sys2Proof.Machine
end

section
/-! PROOFS. What a step runs (20_memory.md R49): the next input, the next command of a running blit,
nothing, or the stop of a mark again. -/

namespace Sys2Proof.Machine

theorem unmarked_iff {s : State} : unmarked s = true ↔ markedStop s.marks = none := by
  unfold unmarked markedStop
  cases s.marks.fault <;> cases s.marks.refusal <;> simp

/-- The first input of the inbox runs (R49). -/
theorem step_input {s : State} {i : Input} {rest : List Input} (hu : unmarked s = true)
    (hc : s.cursor = none) (hin : s.inbox = i :: rest) :
    step s = exec (decodeInput s.cfg i) (s.setInbox rest) := by
  simp [step, fetch, unmarked_iff.1 hu, hc, hin]

/-- The command at the cursor of a running blit runs (48_blitter_optional.md R132). -/
theorem step_command {s : State} {cur : BltCursor} {cmd : BltCmd} (hu : unmarked s = true)
    (hc : s.cursor = some cur) (hcmd : decodeCmd (s.cfg.blitRom.drop cur.src) = .ok cmd) :
    step s = exec cmd.instr s := by
  simp [step, fetch, unmarked_iff.1 hu, hc, fetchCmd, hcmd, Except.map]

/-- With nothing to run the state stays (log 2). -/
theorem step_idle {s : State} (hu : unmarked s = true) (hc : s.cursor = none) (hin : s.inbox = []) :
    step s = .next s := by
  simp [step, fetch, unmarked_iff.1 hu, hc, hin]

/-- A marked state stops again (log 6). -/
theorem step_marked {s : State} {e : Stop} (hm : markedStop s.marks = some e) :
    step s = stopOutcome e := by
  simp [step, fetch, hm]

/-- Settles O8: each clause is what `fetch` gives that state. -/
theorem stepRunsTheDecodedInstruction : Obligations.StepRunsTheDecodedInstruction :=
  ⟨fun _ _ _ hu hc hin => step_input hu hc hin,
    fun _ _ _ hu hc hcmd => step_command hu hc hcmd,
    fun _ hu hc hin => step_idle hu hc hin,
    fun _ f hf => step_marked (e := .fault f) (by simp [markedStop, hf]),
    fun _ r hf hr => step_marked (e := .refusal r) (by simp [markedStop, hf, hr])⟩

end Sys2Proof.Machine
end

section
/-! PROOFS. How the address of a request is read (20_memory.md R43, R45): bits 1:0 do not count. -/

namespace Sys2Proof

theorem mapSound_base_dvd {c : Config} (hc : mapSound c = true) {w : Window} (hw : w ∈ c.addrMap) :
    4 ∣ w.base := by
  obtain ⟨-, hbase, -, -⟩ := mapSound_iff.1 hc
  exact (hbase w hw).1

theorem wordIndex_same_word {w : Window} (h4 : 4 ∣ w.base) {a b : Nat} (hab : a / 4 = b / 4) :
    wordIndex w a = wordIndex w b := by
  unfold wordIndex
  omega

/-- Two byte addresses of one word lie in the same windows, at the same index (R43). -/
theorem windowHolds_same_word (c : Config) {w : Window} (h4 : 4 ∣ w.base) {a b : Nat}
    (hab : a / 4 = b / 4) : windowHolds c a w = windowHolds c b w := by
  have hle : w.base ≤ a ↔ w.base ≤ b := by omega
  simp only [windowHolds, hle, wordIndex_same_word h4 hab]

theorem windowAt_same_word {c : Config} (hc : mapSound c = true) {a b : Nat} (hab : a / 4 = b / 4) :
    windowAt c a = windowAt c b :=
  List.find?_congr fun _ hw => windowHolds_same_word c (mapSound_base_dvd hc hw) hab

/-- The row of a window reads no address: only the word index and what the request carries. -/
theorem regionInstr_addr (r : Region) (idx : Nat) (q : BusReq) (a : BitVec 20) :
    regionInstr r idx { q with addr := a } = regionInstr r idx q := rfl

/-- Settles O5: bits 1:0 change neither the window found nor the word index in it. -/
theorem addressLowBitsAreIgnored : Obligations.AddressLowBitsAreIgnored := by
  intro c q a hc ha
  have hword : a.toNat / 4 = q.addr.toNat / 4 := by
    have := congrArg BitVec.toNat ha
    simp only [BitVec.extractLsb'_toNat, Nat.shiftRight_eq_div_pow] at this
    omega
  unfold decodeBus
  rw [windowAt_same_word hc hword]
  cases hw : windowAt c q.addr.toNat with
  | none => simp only [unmappedInstr, ha]
  | some w =>
    have hidx := wordIndex_same_word (mapSound_base_dvd hc (windowAt_some hw).1) hword
    simp only [hidx, regionInstr_addr]

end Sys2Proof
end

section
/-! PROOFS. The default address map (20_memory.md R45) and the decode table of 30_encoding.md R56 give one
decoder. The table's first fourteen rows are two a kind of window; a request a row takes is in a window of
its kind, and a request in a window is taken by a row, so no row has to be told from another. -/

namespace Sys2Proof

/-! ## The windows of R56's rows -/

/-- What the read row and the write row R56 gives one kind of window share: the address bits from `low`
up have the value `high`, and `width` offset bits stand above bits 1:0. Where there are several windows of
the kind, the address says which. -/
structure RowKind where
  low    : Nat
  high   : Nat
  width  : Nat
  region : BusReq → Region

/-- The kind of a window: rows 1 to 14 of R56 are two a kind. -/
def rowKind : Region → RowKind
  | .tile _  => ⟨18, 0, 14, fun q => .tile (addrField 16 2 q)⟩
  | .sprite  => ⟨16, 4, 14, fun _ => .sprite⟩
  | .palette => ⟨14, 0x14, 12, fun _ => .palette⟩
  | .treg _  => ⟨9, 0x300, 5, fun q => .treg (addrField 7 2 q)⟩
  | .sreg    => ⟨6, 0x1808, 4, fun _ => .sreg⟩
  | .brt _   => ⟨3, 0xC060, 0, fun q => .brt (addrField 2 1 q)⟩
  | .bltreg  => ⟨5, 0x3020, 3, fun _ => .bltreg⟩

/-- The seven kinds in the order of their rows. -/
def rowKinds : List RowKind :=
  [rowKind (.tile 0), rowKind .sprite, rowKind .palette, rowKind (.treg 0), rowKind .sreg,
    rowKind (.brt 0), rowKind .bltreg]

theorem rowKind_mem (r : Region) : rowKind r ∈ rowKinds := by
  cases r <;> simp [rowKinds, rowKind]

/-- The offset of a request in a window of this kind. -/
def RowKind.offset (k : RowKind) (q : BusReq) : Nat :=
  (addrField 2 k.width q).toNat

/-- R56's *valid if*, said once for every row: the window exists and holds the offset. -/
def RowKind.valid (c : Config) (k : RowKind) (q : BusReq) : Prop :=
  regionPresent c (k.region q) = true ∧ k.offset q < regionWords c (k.region q)

/-- The window of this kind a request's address points into. -/
def RowKind.window (k : RowKind) (q : BusReq) : Window :=
  ⟨k.region q, 2 ^ (k.width + 2) * (q.addr.toNat / 2 ^ (k.width + 2))⟩

/-- Row `r` is the row of kind `k` for requests with `W = w`. -/
structure RowOf (c : Config) (r : BusRow) (k : RowKind) (w : Bool) : Prop where
  mask  : r.mask = BitVec.allOnes 21 <<< k.low
  pat   : r.pat = BitVec.ofBool w ++ BitVec.ofNat 20 (2 ^ k.low * k.high)
  valid : ∀ q, r.valid q = true ↔ k.valid c q
  instr : ∀ q, q.w = w → r.instr q = regionInstr (k.region q) (k.offset q) q

theorem addrField_toNat (lo n : Nat) (q : BusReq) :
    (addrField lo n q).toNat = q.addr.toNat / 2 ^ lo % 2 ^ n := by
  simp [addrField, Nat.shiftRight_eq_div_pow]

/-- The first fourteen rows of R56 are a read row and a write row for each kind. -/
theorem windowRows_rowOf {c : Config} (hs : c.sregWords = 9) :
    List.Forall₂ (fun r e => RowOf c r e.1 e.2) ((busTable c).take 14)
      (rowKinds.flatMap fun k => [(k, false), (k, true)]) := by
  simp only [busTable, rowKinds, rowKind, List.take, List.flatMap_cons, List.flatMap_nil,
    List.cons_append, List.nil_append, List.forall₂_cons, List.Forall₂.nil, and_true]
  and_intros
  all_goals
    refine ⟨rfl, rfl, fun q => ?valid, fun q hw => ?instr⟩
    case instr => simp only [regionInstr, hw, RowKind.offset, BitVec.ofNat_toNat, BitVec.setWidth_eq]
    case valid =>
      simp [RowKind.valid, RowKind.offset, regionPresent, regionWords, hs, tileWindowWords, spriteWords,
        paletteEntries, tregWords, bltregWords, addrField_toNat, Nat.mod_lt, Nat.mod_one]

/-- Masking the key with ones from bit `n` up clears the bits below. -/
theorem and_highMask_toNat (x : BitVec 21) (n : Nat) :
    (x &&& BitVec.allOnes 21 <<< n).toNat = 2 ^ n * (x.toNat / 2 ^ n) := by
  have hle : 2 ^ n * (x.toNat / 2 ^ n) < 2 ^ 21 := Nat.lt_of_le_of_lt (Nat.mul_div_le _ _) x.isLt
  rw [← BitVec.shiftLeft_ushiftRight, BitVec.toNat_shiftLeft, BitVec.toNat_ushiftRight,
    Nat.shiftRight_eq_div_pow, Nat.shiftLeft_eq, Nat.mul_comm, Nat.mod_eq_of_lt hle]

theorem busKey_toNat (q : BusReq) : (busKey q).toNat = q.w.toNat * 2 ^ 20 + q.addr.toNat := by
  rw [busKey, BitVec.toNat_append, ← Nat.shiftLeft_add_eq_or_of_lt q.addr.isLt, Nat.shiftLeft_eq,
    BitVec.toNat_ofBool]

/-- A key matches where the mask keeps the bits from `n` up and the pattern gives `W` and the address bits
there. -/
theorem key_matches_iff {n high : Nat} (hn : n ≤ 20) (hhigh : high < 2 ^ (20 - n)) (q : BusReq)
    (w : Bool) :
    busKey q &&& BitVec.allOnes 21 <<< n = BitVec.ofBool w ++ BitVec.ofNat 20 (2 ^ n * high) ↔
      q.w = w ∧ q.addr.toNat / 2 ^ n = high := by
  generalize hm : 20 - n = m at hhigh
  have hsplit : 2 ^ 20 = 2 ^ n * 2 ^ m := by rw [← Nat.pow_add, ← hm, Nat.add_sub_cancel' hn]
  have haddr : q.addr.toNat / 2 ^ n < 2 ^ m := Nat.div_lt_of_lt_mul (hsplit ▸ q.addr.isLt)
  have hpat := busKey_toNat ⟨w, BitVec.ofNat 20 (2 ^ n * high), 0, 0⟩
  have hlt : 2 ^ n * high < 2 ^ 20 := hsplit ▸ Nat.mul_lt_mul_of_pos_left hhigh (Nat.two_pow_pos n)
  simp only [busKey, BitVec.toNat_ofNat, Nat.mod_eq_of_lt hlt] at hpat
  have hkey : (q.w.toNat * 2 ^ 20 + q.addr.toNat) / 2 ^ n = q.w.toNat * 2 ^ m + q.addr.toNat / 2 ^ n := by
    rw [hsplit, Nat.mul_left_comm, Nat.mul_add_div (Nat.two_pow_pos n)]
  rw [← BitVec.toNat_inj, and_highMask_toNat, busKey_toNat, hpat, hkey, hsplit, Nat.mul_left_comm,
    ← Nat.mul_add, Nat.mul_right_inj (Nat.two_pow_pos n).ne']
  generalize q.addr.toNat / 2 ^ n = bits at haddr ⊢
  cases q.w <;> cases w <;> simp <;> omega

theorem rowKinds_fit : ∀ k ∈ rowKinds, k.low ≤ 20 ∧ k.high < 2 ^ (20 - k.low) := by
  decide

/-- Which requests a row of R56 takes. -/
theorem RowOf.takes_iff {c : Config} {r : BusRow} {k : RowKind} {w : Bool} (h : RowOf c r k w)
    (hk : k ∈ rowKinds) (q : BusReq) : rowTakes q r = true ↔
      q.w = w ∧ q.addr.toNat / 2 ^ k.low = k.high ∧ k.valid c q := by
  obtain ⟨hlow, hhigh⟩ := rowKinds_fit k hk
  rw [rowTakes, Bool.and_eq_true, decide_eq_true_eq, h.mask, h.pat, h.valid,
    key_matches_iff hlow hhigh, and_assoc]

/-! ## The default map -/

/-- The default address map with the nine sprite control registers. -/
structure DefaultMap (c : Config) : Prop where
  map  : c.addrMap = defaultAddrMap
  sreg : c.sregWords = 9

theorem DefaultMap.sound {c : Config} (h : DefaultMap c) : mapSound c = true := by
  have hwords : regionWords c = regionWords defaultConfig := by
    funext r
    cases r with
    | sreg => exact h.sreg
    | _ => rfl
  have hdef : mapSound defaultConfig = true := by decide +kernel
  rw [← hdef]
  simp only [mapSound, windowsApart, windowEnd, hwords, h.map, h.sreg]
  rfl

/-- Where the address has the bits of a kind, the window it points into is in the map. -/
theorem window_mem {k : RowKind} (hk : k ∈ rowKinds) {q : BusReq}
    (ha : q.addr.toNat / 2 ^ k.low = k.high) : k.window q ∈ defaultAddrMap := by
  have htile : ∀ b : BitVec 2, ⟨.tile b, 2 ^ 16 * b.toNat⟩ ∈ defaultAddrMap := by decide
  have htreg : ∀ t : BitVec 2, ⟨.treg t, 0x60000 + 2 ^ 7 * t.toNat⟩ ∈ defaultAddrMap := by decide
  have hbrt : ∀ p : BitVec 1, ⟨.brt p, 0x60300 + 2 ^ 2 * p.toNat⟩ ∈ defaultAddrMap := by decide
  simp only [rowKinds, rowKind, List.mem_cons, List.not_mem_nil, or_false] at hk
  rcases hk with rfl | rfl | rfl | rfl | rfl | rfl | rfl <;> simp only [RowKind.window] at ha ⊢
  · convert htile (addrField 16 2 q) using 2
    rw [addrField_toNat]
    omega
  · convert (by decide : ⟨.sprite, 0x40000⟩ ∈ defaultAddrMap) using 2
    omega
  · convert (by decide : ⟨.palette, 0x50000⟩ ∈ defaultAddrMap) using 2
    omega
  · convert htreg (addrField 7 2 q) using 2
    rw [addrField_toNat]
    omega
  · convert (by decide : ⟨.sreg, 0x60200⟩ ∈ defaultAddrMap) using 2
    omega
  · convert hbrt (addrField 2 1 q) using 2
    rw [addrField_toNat]
    omega
  · convert (by decide : ⟨.bltreg, 0x60400⟩ ∈ defaultAddrMap) using 2
    omega

/-- The word index in that window is the offset the address carries. -/
theorem wordIndex_window (k : RowKind) (q : BusReq) :
    wordIndex (k.window q) q.addr.toNat = k.offset q := by
  have hmod : q.addr.toNat - 2 ^ (k.width + 2) * (q.addr.toNat / 2 ^ (k.width + 2)) =
      q.addr.toNat % 2 ^ (k.width + 2) := by
    have := Nat.div_add_mod q.addr.toNat (2 ^ (k.width + 2))
    omega
  rw [wordIndex, RowKind.offset, RowKind.window, addrField_toNat, hmod, Nat.pow_add, Nat.mul_comm,
    Nat.mod_mul_right_div_self]

/-- A request a row takes is decoded through the map to that row's instruction. -/
theorem decodeBus_of_kind {c : Config} (h : DefaultMap c) {k : RowKind} (hk : k ∈ rowKinds)
    {q : BusReq} (ha : q.addr.toNat / 2 ^ k.low = k.high) (hv : k.valid c q) :
    decodeBus c q = regionInstr (k.region q) (k.offset q) q := by
  obtain ⟨hp, hoff⟩ := hv
  have hholds : windowHolds c q.addr.toNat (k.window q) = true := by
    simp only [windowHolds, wordIndex_window, Bool.and_eq_true, decide_eq_true_eq]
    exact ⟨⟨hp, Nat.mul_div_le _ _⟩, hoff⟩
  rw [decodeBus, windowAt_eq_some h.sound (h.map ▸ window_mem hk ha) hholds]
  simp only [wordIndex_window]
  rfl

/-- An address in a window of the default map is one of a kind R56 has rows for. -/
theorem exists_kind_of_window {c : Config} (h : DefaultMap c) {q : BusReq} {w : Window}
    (hw : windowAt c q.addr.toNat = some w) :
    ∃ k ∈ rowKinds, q.addr.toNat / 2 ^ k.low = k.high ∧ k.valid c q := by
  obtain ⟨hmem, hholds⟩ := windowAt_some hw
  simp only [windowHolds, Bool.and_eq_true, decide_eq_true_eq] at hholds
  obtain ⟨⟨hp, hlow⟩, hidx⟩ := hholds
  simp only [h.map, defaultAddrMap, List.mem_cons, List.not_mem_nil, or_false] at hmem
  refine ⟨rowKind w.region, rowKind_mem _, ?_⟩
  rcases hmem with rfl | rfl | rfl | rfl | rfl | rfl | rfl | rfl | rfl | rfl | rfl | rfl | rfl | rfl
  all_goals
    refine ⟨?_, hp, ?_⟩ <;>
    · simp only [rowKind, RowKind.offset, addrField_toNat, wordIndex, regionWords, h.sreg,
        tileWindowWords, spriteWords, paletteEntries, tregWords, bltregWords] at hlow hidx ⊢
      omega

theorem forall₂_mem_left {α β : Type} {R : α → β → Prop} {l : List α} {m : List β}
    (h : List.Forall₂ R l m) : ∀ a ∈ l, ∃ b ∈ m, R a b := by
  induction h with
  | nil => simp
  | cons hab _ ih =>
    rintro a (_ | ⟨_, ha⟩)
    · exact ⟨_, .head _, hab⟩
    · obtain ⟨b, hb, hR⟩ := ih a ha
      exact ⟨b, .tail _ hb, hR⟩

theorem windowRow_kind {c : Config} (h : DefaultMap c) {r : BusRow} (hr : r ∈ (busTable c).take 14) :
    ∃ k ∈ rowKinds, ∃ w, RowOf c r k w := by
  obtain ⟨⟨k, w⟩, he, hrow⟩ := forall₂_mem_left (windowRows_rowOf h.sreg) r hr
  obtain ⟨k', hk', hkw⟩ := List.mem_flatMap.1 he
  have hkk : k = k' := by
    rcases List.mem_pair.1 hkw with h | h <;> exact congrArg Prod.fst h
  exact ⟨k, hkk ▸ hk', w, hrow⟩

theorem kind_windowRow {c : Config} (h : DefaultMap c) {k : RowKind} (hk : k ∈ rowKinds) (w : Bool) :
    ∃ r ∈ (busTable c).take 14, RowOf c r k w := by
  refine forall₂_mem_left (windowRows_rowOf h.sreg).flip (k, w) ?_
  rw [List.mem_flatMap]
  exact ⟨k, hk, by cases w <;> simp⟩

/-- The last two rows of R56 take every request, each those of its `W`. -/
theorem unmappedRows_find (c : Config) (q : BusReq) :
    ∃ r, ((busTable c).drop 14).find? (rowTakes q) = some r ∧ r.instr q = unmappedInstr q := by
  have htakes (w : Bool) := key_matches_iff (n := 20) (high := 0) Nat.le.refl Nat.one_pos q w
  have h15 : busKey q &&& 0x100000#21 = 0x000000#21 ↔ q.w = false := by
    simpa [q.addr.isLt] using htakes false
  have h16 : busKey q &&& 0x100000#21 = 0x100000#21 ↔ q.w = true := by
    simpa [q.addr.isLt] using htakes true
  cases hw : q.w <;> simp [busTable, rowTakes, h15, h16, hw, unmappedInstr, addrField]

/-- Settles O2: where one of the first fourteen rows takes the request, the map has its window; where none
does, the address is in no window. -/
theorem addressMapAgreesWithRequestTable : Obligations.AddressMapAgreesWithRequestTable := by
  intro c q hmap hs
  have h : DefaultMap c := ⟨hmap, hs⟩
  unfold decodeByTable
  rw [← List.take_append_drop 14 (busTable c), List.find?_append]
  cases hf : ((busTable c).take 14).find? (rowTakes q) with
  | some r =>
    obtain ⟨k, hk, w, hrow⟩ := windowRow_kind h (List.mem_of_find?_eq_some hf)
    obtain ⟨hw, ha, hv⟩ := (hrow.takes_iff hk q).1 (List.find?_some hf)
    exact (decodeBus_of_kind h hk ha hv).trans (hrow.instr q hw).symm
  | none =>
    have hun : windowAt c q.addr.toNat = none := by
      by_contra hsome
      obtain ⟨w, hw⟩ := Option.ne_none_iff_exists'.1 hsome
      obtain ⟨k, hk, ha, hv⟩ := exists_kind_of_window h hw
      obtain ⟨r, hr, hrow⟩ := kind_windowRow h hk q.w
      exact List.find?_eq_none.1 hf r hr ((hrow.takes_iff hk q).2 ⟨rfl, ha, hv⟩)
    obtain ⟨r, hr, hinstr⟩ := unmappedRows_find c q
    simp only [decodeBus, hun, hr, Option.none_or, hinstr]

end Sys2Proof
end

section
/-! PROOFS. A bus write run again changes nothing (20_memory.md R44): a masked write of the same word, and a
brightness word its bank's cache already holds. The one exception is the blitter's START. -/

namespace Sys2Proof.Machine

theorem storePut_storePut {m : Store} (hm : m.wf = true) (i : Nat) (w : Word) :
    storePut (storePut m i w) i w = storePut m i w := by
  have hput := storePut_wf i w hm
  refine store_ext (storePut_wf i w hput) hput fun j => ?_
  by_cases hj : j = i
  · subst hj; simp
  · exact storeWord_put_ne _ w hj

theorem storeMerge_storeMerge {m : Store} (hm : m.wf = true) (i : Nat) (data : Word) (be : Lanes) :
    storeMerge (storeMerge m i data be) i data be = storeMerge m i data be := by
  rw [storeMerge, storeWord_merge_self, merge_merge]
  exact storePut_storePut hm i _

theorem setQuad_setQuad {α : Type} (v : Vector α 4) (b : BitVec 2) (x y : α) :
    setQuad (setQuad v b x) b y = setQuad v b y := by
  simp [setQuad]

theorem brightnessApplies_level (v : Word) : brightnessApplies v (brtLevel v) = false := by
  simp [brightnessApplies]

/-- The cache holds the level once a brightness word has been applied (R86). -/
theorem applyBrightness_twice (v : Word) (s : State) :
    applyBrightness v (applyBrightness v s) = applyBrightness v s := by
  rcases applyBrightness_cases v s with ⟨-, h⟩ | ⟨-, h⟩
  · rw [h]
    simp [applyBrightness, brightnessApplies_level]
  · rw [h, h]

theorem applyBrightness_reply (v : Word) (s : State) (o : Option Output) :
    applyBrightness v (s.reply o) = (applyBrightness v s).reply o := by
  unfold applyBrightness
  rw [State.reply_brtCache]
  split <;> rfl

theorem applyBrightness_brt (v : Word) (s : State) : (applyBrightness v s).brt = s.brt := by
  rw [applyBrightness_only]

/-- A bus write that starts no blit. -/
def quietWrite (c : Config) : Instr → Prop
  | .tileWr _ _ _ _ | .sprWr _ _ _ | .palWr _ _ _ | .tregWr _ _ _ _ | .sregWr _ _ _ | .brtWr _ _ _
  | .unmappedWr _ _ _ => True
  | .bltregWr off _ _ => off ≠ c.bltRegLayout.start
  | _ => False

theorem decodeBus_quietWrite {c : Config} {q : BusReq} (hq : q.w = true)
    (hstart : ∀ data be, decodeBus c q ≠ .bltregWr c.bltRegLayout.start data be) :
    quietWrite c (decodeBus c q) := by
  unfold decodeBus at hstart ⊢
  cases hw : windowAt c q.addr.toNat with
  | none => simp only [unmappedInstr, hq]; trivial
  | some w =>
    rw [hw] at hstart
    simp only [regionInstr, hq] at hstart ⊢
    cases hr : w.region with
    | bltreg =>
      simp only [hr] at hstart
      exact fun h => hstart q.data q.be (by rw [h])
    | _ => trivial

theorem bltregWrRun_quiet {s : State} {off : BitVec 3} (hp : s.cfg.blitterPresent = true)
    (hoff : off ≠ s.cfg.bltRegLayout.start) (data : Word) (be : Lanes) :
    bltregWrRun off data be s =
      .ok ((s.setBltReg (storeMerge s.bltReg off.toNat data be)).reply none) := by
  simp [bltregWrRun, hp, hoff]

/-- A brightness write of a word the port holds and the bank's cache answers to changes nothing. -/
theorem execBrtWr_of_stored {t : State} {p : BitVec 1} {data v : Word} {be : Lanes}
    (hword : merge (storeWord t.brt p.toNat) data be = v) (hport : storePut t.brt p.toNat v = t.brt)
    (hbank : applyBrightness v t = t) : execBrtWr p data be t = .next (t.reply none) := by
  unfold execBrtWr
  simp only [hword, hport, returnNothing_eq]
  rw [show t.setBrt t.brt = t from rfl, hbank]

/-- A bus write that starts no blit, run again, finds in place all it would write. -/
theorem exec_quietWrite_twice {s t : State} {i : Instr} (hwf : storesWf s = true)
    (hi : quietWrite s.cfg i) (ht : exec i s = .next t) : exec i t = .next t := by
  obtain ⟨hTile, hSprite, hTreg, hSreg, hBrt, hPal, hBlt⟩ := (storesWf_iff s).1 hwf
  cases i with
  | unmappedWr wa data be => cases ht; rfl
  | tileWr b off data be =>
    cases ht
    simp [exec, execTileWr, State.setTile, State.reply, setQuad_setQuad, storeMerge_storeMerge (hTile b)]
  | tregWr b off data be =>
    cases ht
    simp [exec, execTregWr, State.setTreg, State.reply, setQuad_setQuad, storeMerge_storeMerge (hTreg b)]
  | sprWr off data be =>
    cases ht
    simp [exec, execSprWr, State.setSprite, State.reply, storeMerge_storeMerge hSprite]
  | palWr idx data be =>
    cases ht
    simp [exec, execPalWr, State.setPal, State.reply, storeMerge_storeMerge hPal]
  | sregWr off data be =>
    cases ht
    simp [exec, execSregWr, State.setSreg, State.reply, storeMerge_storeMerge hSreg]
  | brtWr p data be =>
    cases ht
    exact execBrtWr_of_stored
      (by rw [State.reply_brt, applyBrightness_brt, State.setBrt_brt, storeWord_put_self, merge_merge])
      (by rw [State.reply_brt, applyBrightness_brt, State.setBrt_brt, storePut_storePut hBrt])
      (by rw [applyBrightness_reply, applyBrightness_twice])
  | bltregWr off data be =>
    have hrun := finish_next_iff.1 ht
    refine finish_next_iff.2 ?_
    cases hp : s.cfg.blitterPresent with
    | false =>
      rw [bltregWrRun_absent hp] at hrun
      cases hrun
      exact bltregWrRun_absent hp off data be
    | true =>
      rw [bltregWrRun_quiet hp hi] at hrun
      cases hrun
      have hagain := bltregWrRun_quiet
        (s := (s.setBltReg (storeMerge s.bltReg off.toNat data be)).reply none) hp hi data be
      rw [State.reply_bltReg, State.setBltReg_bltReg, storeMerge_storeMerge hBlt] at hagain
      exact hagain
  | _ => exact hi.elim

/-- Settles O14: every bus write that starts no blit leaves the state a fixed point of itself. -/
theorem repeatedWriteChangesNothing : Obligations.RepeatedWriteChangesNothing :=
  fun _ _ _ hwf hq hstart ht => exec_quietWrite_twice hwf (decodeBus_quietWrite hq hstart) ht

end Sys2Proof.Machine
end

section
/-! PROOFS. The lanes of a byte-addressed host (20_memory.md R40, R42). -/

namespace Sys2Proof.Machine

/-- The byte a host reads is the word's lane of the address. -/
theorem hostByteOf_eq_lane (c : Config) (addr : BitVec 20) (w : Word) :
    hostByteOf c addr w = laneOfWord w (laneOfAddr c addr).toNat := rfl

theorem laneOfAddr_little {c : Config} (h : c.hostLaneOrder = .little) (addr : BitVec 20) :
    (laneOfAddr c addr).toNat = addr.toNat % 4 := by
  simp [laneOfAddr, laneOf, h]

theorem laneOfAddr_big {c : Config} (h : c.hostLaneOrder = .big) (addr : BitVec 20) :
    (laneOfAddr c addr).toNat = 3 - addr.toNat % 4 := by
  have h3 : (3 : BitVec 2).toNat = 3 := rfl
  simp only [laneOfAddr, laneOf, h, BitVec.toNat_sub, BitVec.extractLsb'_toNat, Nat.shiftRight_zero, h3]
  omega

/-- Under either order two offsets of a word have two lanes (R40). -/
theorem laneOfAddr_ne {c : Config} {a addr : BitVec 20}
    (h : a.extractLsb' 0 2 ≠ addr.extractLsb' 0 2) : laneOfAddr c a ≠ laneOfAddr c addr := by
  unfold laneOfAddr laneOf
  cases c.hostLaneOrder with
  | little => exact h
  | big => simpa using h

theorem laneOfWord_shifted_byte (b : Byte) {k : Nat} (hk : k < 4) :
    laneOfWord (b.setWidth 32 <<< (8 * k)) k = b := by
  apply BitVec.eq_of_getLsbD_eq
  intro i hi
  have : 8 * k + i < 32 := by omega
  simp [laneOfWord, hi, this]

theorem getLsbD_oneLane {k : Nat} (hk : k < 4) (j : Nat) :
    (1#4 <<< k).getLsbD j = decide (j = k) := by
  rw [Bool.eq_iff_iff]
  simp only [BitVec.getLsbD_shiftLeft, BitVec.getLsbD_one, Bool.and_eq_true, Bool.not_eq_true',
    decide_eq_true_eq, decide_eq_false_iff_not]
  omega

/-- Merging the one enabled lane of a byte write: that lane holds the byte, the others stay (R42). -/
theorem laneOfWord_merge_oneLane (old : Word) (b : Byte) {k j : Nat} (hk : k < 4) (hj : j < 4) :
    laneOfWord (merge old (b.setWidth 32 <<< (8 * k)) (1#4 <<< k)) j =
      if j = k then b else laneOfWord old j := by
  rw [laneOfWord_merge _ _ _ _ hj, getLsbD_oneLane hk]
  by_cases h : j = k
  · subst h; simp [laneOfWord_shifted_byte b hj]
  · simp [h]

/-- Settles O17: the host reads a lane, and the write merges that one lane. -/
theorem hostByteWriteChangesOneByte : Obligations.HostByteWriteChangesOneByte := by
  intro c addr b old lane
  have hlane : (laneOfAddr c addr).toNat = lane := by
    cases h : c.hostLaneOrder with
    | big => simp only [lane, h]; exact laneOfAddr_big h addr
    | little => simp only [lane, h]; exact laneOfAddr_little h addr
  have hlt : (laneOfAddr c addr).toNat < 4 := (laneOfAddr c addr).isLt
  refine ⟨by rw [← hlane]; rfl, _, rfl, rfl, rfl, by rw [← hlane], ?_, fun a ha => ?_⟩
  · rw [hostByteOf_eq_lane, laneOfWord_merge_oneLane _ _ hlt hlt, if_pos rfl]
  · have hne : (laneOfAddr c a).toNat ≠ (laneOfAddr c addr).toNat :=
      fun e => laneOfAddr_ne ha (BitVec.eq_of_toNat_eq e)
    rw [hostByteOf_eq_lane, laneOfWord_merge_oneLane _ _ hlt (laneOfAddr c a).isLt, if_neg hne,
      hostByteOf_eq_lane]

end Sys2Proof.Machine
end

section
/-! PROOFS. Decoding the words of an instruction gives it back (30_encoding.md R54 to R56;
48_blitter_optional.md R133), and every input decodes to a well-formed instruction (R57). -/

namespace Sys2Proof

/-! ## The words of an instruction -/

/-- A request for a word of a present window decodes to the instruction of that window's row. -/
theorem decode_regionReq {c : Config} (hc : mapSound c = true) {r : Region} {idx : Nat}
    (hp : regionPresent c r = true) (hi : idx < regionWords c r) {w : Bool} {data : Word} {be : Lanes}
    {i : Instr} (hrow : regionInstr r idx (regionReq c r idx w data be) = i) :
    decode c (.input (.bus (regionReq c r idx w data be))) = .ok i :=
  congrArg Except.ok ((decodeBus_regionReq hc hp hi w data be).trans hrow)

theorem unmappedReq_addr_toNat (wa : BitVec 18) (w : Bool) (data : Word) (be : Lanes) :
    (unmappedReq wa w data be).addr.toNat = 4 * wa.toNat := by
  change (wa ++ 0#2).toNat = 4 * wa.toNat
  rw [BitVec.toNat_append, BitVec.toNat_ofNat, Nat.zero_mod, Nat.or_zero, Nat.shiftLeft_eq, Nat.mul_comm]

theorem unmappedReq_wordAddress (wa : BitVec 18) (w : Bool) (data : Word) (be : Lanes) :
    (unmappedReq wa w data be).addr.extractLsb' 2 18 = wa :=
  BitVec.extractLsb'_append_eq_left

/-- A request for a word address in no window is unmapped (R56 rows 15 and 16). -/
theorem decode_unmappedReq {c : Config} {wa : BitVec 18} (h : (windowAt c (4 * wa.toNat)).isNone = true)
    (w : Bool) (data : Word) (be : Lanes) :
    decode c (.input (.bus (unmappedReq wa w data be))) =
      .ok (unmappedInstr (unmappedReq wa w data be)) := by
  simp only [decode, decodeInput, decodeBus, unmappedReq_addr_toNat, Option.isNone_iff_eq_none.1 h]

/-- The two bytes of a FILL's value, the high one first (R133), make the value again. -/
theorem halfBytes_append (v : Half) : v.extractLsb' 8 8 ++ v.extractLsb' 0 8 = v :=
  (BitVec.extractLsb'_append_extractLsb'_eq_extractLsb' rfl).trans BitVec.extractLsb'_eq_self

theorem decodeCmd_copy {amt : Byte} (h : amt ≠ 0) : decodeCmd [0x00, amt] = .ok (.copy amt) :=
  congrArg Except.ok (if_neg h)

theorem decodeCmd_fill (amt : Byte) (v : Half) :
    decodeCmd [0x02, amt, v.extractLsb' 8 8, v.extractLsb' 0 8] = .ok (.fill amt v) :=
  congrArg (fun v => Except.ok (BltCmd.fill amt v)) (halfBytes_append v)

theorem decodeCmd_unknown {c0 : Byte} (h : c0 ≠ 0 ∧ c0 ≠ 2 ∧ c0 ≠ 3) :
    decodeCmd [c0] = .ok (.unknown c0) := by
  obtain ⟨h0, h2, h3⟩ := h
  rw [decodeCmd, if_neg h0, if_neg h2, if_neg h3]

/-- A command decodes to its instruction. -/
theorem decode_cmd (c : Config) {bs : List Byte} {cmd : BltCmd} (h : decodeCmd bs = .ok cmd) :
    decode c (.cmd bs) = .ok cmd.instr := by
  rw [decode, h]
  rfl

/-- Settles O1: a request for a word of a window is found in that window at that word, a request of no
window is unmapped, and a command's bytes give it back. -/
theorem decodeUndoesEncode : Obligations.DecodeUndoesEncode := by
  intro c i hc hwf
  cases i with
  | tileRd b off => exact decode_regionReq hc rfl off.isLt (by simp [regionInstr, regionReq])
  | tileWr b off data be => exact decode_regionReq hc rfl off.isLt (by simp [regionInstr, regionReq])
  | sprRd off =>
    exact decode_regionReq hc (r := .sprite) rfl (of_decide_eq_true hwf)
      (by simp [regionInstr, regionReq])
  | sprWr off data be =>
    exact decode_regionReq hc (r := .sprite) rfl (of_decide_eq_true hwf)
      (by simp [regionInstr, regionReq])
  | palRd idx => exact decode_regionReq hc rfl idx.isLt (by simp [regionInstr, regionReq])
  | palWr idx data be => exact decode_regionReq hc rfl idx.isLt (by simp [regionInstr, regionReq])
  | tregRd t off =>
    exact decode_regionReq hc (r := .treg t) rfl (of_decide_eq_true hwf)
      (by simp [regionInstr, regionReq])
  | tregWr t off data be =>
    exact decode_regionReq hc (r := .treg t) rfl (of_decide_eq_true hwf)
      (by simp [regionInstr, regionReq])
  | sregRd off =>
    exact decode_regionReq hc (r := .sreg) rfl (of_decide_eq_true hwf)
      (by simp [regionInstr, regionReq])
  | sregWr off data be =>
    exact decode_regionReq hc (r := .sreg) rfl (of_decide_eq_true hwf)
      (by simp [regionInstr, regionReq])
  | brtRd p => exact decode_regionReq hc rfl Nat.one_pos rfl
  | brtWr p data be => exact decode_regionReq hc rfl Nat.one_pos rfl
  | bltregRd off =>
    exact decode_regionReq hc (r := .bltreg) hwf off.isLt (by simp [regionInstr, regionReq])
  | bltregWr off data be =>
    exact decode_regionReq hc (r := .bltreg) hwf off.isLt (by simp [regionInstr, regionReq])
  | unmappedRd wa =>
    rw [encode, decode_unmappedReq hwf, unmappedInstr, unmappedReq_wordAddress]
    rfl
  | unmappedWr wa data be =>
    rw [encode, decode_unmappedReq hwf, unmappedInstr, unmappedReq_wordAddress]
    rfl
  | refreshLeft => rfl
  | refreshRight => rfl
  | blitDone => rfl
  | reset => rfl
  | bltEnd => rfl
  | bltCopy amt =>
    obtain ⟨-, hamt⟩ := Bool.and_eq_true_iff.1 hwf
    exact decode_cmd c (decodeCmd_copy (of_decide_eq_true hamt))
  | bltFill amt v => exact decode_cmd c (decodeCmd_fill amt v)
  | bltNextline => rfl
  | bltUnknown c0 =>
    obtain ⟨-, hc0⟩ := Bool.and_eq_true_iff.1 hwf
    exact decode_cmd c (decodeCmd_unknown (of_decide_eq_true hc0))

/-! ## Decoded inputs -/

/-- A word of a present window is a well-formed instruction: its offset field holds at most `idx`. -/
theorem regionInstr_wf {c : Config} {r : Region} {idx : Nat} (hp : regionPresent c r = true)
    (hi : idx < regionWords c r) (q : BusReq) : (regionInstr r idx q).wf c = true := by
  have hfield (n : Nat) : (BitVec.ofNat n idx).toNat < regionWords c r :=
    Nat.lt_of_le_of_lt (Nat.mod_le _ _) hi
  obtain ⟨w, addr, be, data⟩ := q
  cases r with
  | tile b => cases w <;> rfl
  | sprite => cases w <;> exact decide_eq_true (hfield 14)
  | palette => cases w <;> rfl
  | treg t => cases w <;> exact decide_eq_true (hfield 5)
  | sreg => cases w <;> exact decide_eq_true (hfield 4)
  | brt p => cases w <;> rfl
  | bltreg => cases w <;> exact hp

/-- A request in no window is well-formed as unmapped: its word address is in no window either (R43). -/
theorem unmappedInstr_wf {c : Config} (hc : mapSound c = true) {q : BusReq}
    (h : windowAt c q.addr.toNat = none) : (unmappedInstr q).wf c = true := by
  have hword : windowAt c (4 * (q.addr.extractLsb' 2 18).toNat) = none := by
    rw [← h]
    apply windowAt_same_word hc
    simp only [BitVec.extractLsb'_toNat, Nat.shiftRight_eq_div_pow]
    omega
  unfold unmappedInstr
  split <;> exact Option.isNone_iff_eq_none.2 hword

theorem decodeEvt_wf (c : Config) (code : BitVec 2) : (decodeEvt code).wf c = true := by
  unfold decodeEvt
  split <;> rfl

/-- Settles O4: a request in a window is for a word inside it, and one in no window is unmapped. -/
theorem decodedInputsAreWellFormed : Obligations.DecodedInputsAreWellFormed := by
  intro c i hc
  cases i with
  | evt code => exact decodeEvt_wf c code
  | bus q =>
    simp only [decodeInput, decodeBus]
    cases hw : windowAt c q.addr.toNat with
    | none => exact unmappedInstr_wf hc hw
    | some w =>
      obtain ⟨-, hholds⟩ := windowAt_some hw
      simp only [windowHolds, Bool.and_eq_true, decide_eq_true_eq] at hholds
      obtain ⟨⟨hp, -⟩, hi⟩ := hholds
      exact regionInstr_wf hp hi q

end Sys2Proof
end

section
/-! PROOFS. The rows of R56 (30_encoding.md R56, R57), and words written out from the spec. -/

namespace Sys2Proof

/-- Settles O7: the decoders are run on the words. -/
theorem sampleWordsDecode : Obligations.SampleWordsDecode := by
  unfold Obligations.SampleWordsDecode
  decide

theorem key_of_rowTakes {q : BusReq} {r : BusRow} (h : rowTakes q r = true) :
    busKey q &&& r.mask = r.pat := by
  rw [rowTakes, Bool.and_eq_true, decide_eq_true_eq] at h
  exact h.1

/-- Two matches of one key agree where both masks look. -/
theorem matches_agree {n : Nat} {key m m' p p' : BitVec n} (h : key &&& m = p) (h' : key &&& m' = p') :
    p &&& m' = p' &&& m := by
  rw [← h, ← h', BitVec.and_assoc, BitVec.and_assoc, BitVec.and_comm m]

/-- Two different window rows differ in a bit that both masks keep: no *valid if* is needed to tell them
apart. Of the configuration the rows read only whether the annex is present. -/
theorem windowRows_apart (c : Config) : ∀ r ∈ busTable c, ∀ r' ∈ busTable c,
    r.number < 15 → r'.number < 15 → r.pat &&& r'.mask = r'.pat &&& r.mask → r.number = r'.number := by
  have htable : busTable c = busTable { defaultConfig with blitterPresent := c.blitterPresent } := rfl
  rw [htable]
  generalize c.blitterPresent = present
  revert present
  decide

/-- Settles O3: one key cannot match two window rows, and the last two rows take every request. -/
theorem requestRowsAreDisjointAndTotal : Obligations.RequestRowsAreDisjointAndTotal := by
  intro c q
  constructor
  · intro r hr r' hr' ht ht' hn hn'
    exact windowRows_apart c r hr r' hr' hn hn' (matches_agree (key_of_rowTakes ht) (key_of_rowTakes ht'))
  · obtain ⟨r, hr, -⟩ := unmappedRows_find c q
    exact ⟨r, List.mem_of_mem_drop (List.mem_of_find?_eq_some hr), List.find?_some hr⟩

end Sys2Proof
end

section
/-! PROOFS. An opcode-table word is run where it is placed (log 13). -/

namespace Sys2Proof.Machine

theorem regionWords_sregWords {c d : Config} (h : c.sregWords = d.sregWords) :
    regionWords c = regionWords d := by
  funext r
  cases r with
  | sreg => exact h
  | _ => rfl

theorem annexConfig_defaultMap : DefaultMap annexConfig := ⟨rfl, rfl⟩

theorem annexConfig_regionPresent (r : Region) : regionPresent annexConfig r = true := by
  cases r <;> rfl

/-- The window the table's map gives an address is found in every machine with that map that has the
window. -/
theorem windowAt_defaultMap {c : Config} (h : DefaultMap c) {a : Nat}
    (hp : ∀ w, windowAt annexConfig a = some w → regionPresent c w.region = true) :
    windowAt c a = windowAt annexConfig a := by
  have hwords : regionWords c = regionWords annexConfig := regionWords_sregWords h.sreg
  cases hw : windowAt annexConfig a with
  | none =>
    have hnone := List.find?_eq_none.1 hw
    refine List.find?_eq_none.2 fun w hmem => ?_
    rw [h.map] at hmem
    have hout := hnone w hmem
    simp only [windowHolds, annexConfig_regionPresent, hwords, Bool.and_eq_true, decide_eq_true_eq,
      true_and] at hout ⊢
    exact fun ⟨⟨_, hlow⟩, hidx⟩ => hout ⟨hlow, hidx⟩
  | some w =>
    obtain ⟨hmem, hholds⟩ := windowAt_some hw
    refine windowAt_eq_some h.sound (h.map ▸ hmem) ?_
    simpa only [windowHolds, hp w hw, annexConfig_regionPresent, hwords] using hholds

/-- A window whose instructions are not of the annex is there without it (48_blitter_optional.md R126). -/
theorem regionPresent_of_annexOnly {c : Config} {r : Region} {idx : Nat} {q : BusReq}
    (h : annexOnly (regionInstr r idx q) = true → c.blitterPresent = true) :
    regionPresent c r = true := by
  cases r with
  | bltreg => exact h (by unfold regionInstr; cases q.w <;> rfl)
  | _ => rfl

/-- A machine with the table's map decodes an input as the table does, if it has the annex where the input
is of the annex. -/
theorem decodeInput_defaultMap {c : Config} (h : DefaultMap c) (i : Input)
    (hp : annexOnly (decodeInput annexConfig i) = true → c.blitterPresent = true) :
    decodeInput c i = decodeInput annexConfig i := by
  cases i with
  | evt code => rfl
  | bus q =>
    simp only [decodeInput, decodeBus] at hp ⊢
    rw [windowAt_defaultMap h]
    intro w hw
    rw [hw] at hp
    exact regionPresent_of_annexOnly hp

theorem fetch_placeInput (s : State) (i : Input) :
    ∃ t, fetch (placeInput s i) = .ok (some (decodeInput annexConfig i, t)) := by
  refine ⟨(placeInput s i).setInbox s.inbox, ?_⟩
  have hdec : decodeInput (placeInput s i).cfg i = decodeInput annexConfig i :=
    decodeInput_defaultMap ⟨rfl, rfl⟩ i fun h => by simp [placeInput, h]
  rw [← hdec]
  rfl

theorem fetch_placeCmd (s : State) {bs : List Byte} {cmd : BltCmd} (h : decodeCmd bs = .ok cmd) :
    fetch (placeCmd s bs) = .ok (some (cmd.instr, placeCmd s bs)) := by
  simp [fetch, placeCmd, markedStop, fetchCmd, h, Except.map]

theorem step_of_fetch {s t : State} {i : Instr} (h : fetch s = .ok (some (i, t))) :
    step s = exec i t := by
  simp [step, h]

theorem fetch_withFetchWord (s : State) {nbits w : Nat} {i : Instr}
    (h : decodeTableWord nbits w = some i) :
    ∃ t, fetch (s.withFetchWord nbits w) = .ok (some (i, t)) := by
  unfold decodeTableWord at h
  unfold State.withFetchWord placeWord
  cases hw : tableWords nbits w with
  | none => simp [hw] at h
  | some ws =>
    rw [hw] at h
    cases ws with
    | input j =>
      obtain rfl : decodeInput annexConfig j = i := Option.some.inj h
      exact fetch_placeInput s j
    | cmd bs =>
      cases hcmd : decodeCmd bs with
      | error e => simp [decode, hcmd, Except.map, Except.toOption] at h
      | ok cmd =>
        obtain rfl : cmd.instr = i := by simpa [decode, hcmd, Except.map, Except.toOption] using h
        exact ⟨_, fetch_placeCmd s hcmd⟩

/-- Settles O9: the placed input or command is fetched, and a step runs what is fetched. -/
theorem tableWordIsTheOneRun : Obligations.TableWordIsTheOneRun := by
  intro s nbits w i h
  obtain ⟨t, ht⟩ := fetch_withFetchWord s h
  exact ⟨t, ht, step_of_fetch ht⟩

end Sys2Proof.Machine
end

section
/-! PROOFS. The pixel formula of 41_tile_decoder.md R93 and R94, and the fields the decoder assembles
(30_encoding.md R65 to R67). -/

namespace Sys2Proof.Machine

/-! ## Fields -/

theorem decodeTile_default {c : Config} (h : c.tileDesc = defaultTileDesc) (d : Word) :
    decodeTile c d = ⟨(d.extractLsb' 0 20).toNat * 32, d.extractLsb' 20 8, d.getLsbD 28⟩ := by
  rw [decodeTile, h]
  rfl

/-- A field of 12 bits at bit 0, read as signed: bit 11 is its sign. -/
theorem field_twelve_toInt (w : Word) : (field w 0 12).toInt =
    if w.getLsbD 11 then ((w.extractLsb' 0 12).toNat : Int) - 0x1000
    else (w.extractLsb' 0 12).toNat := by
  rw [field, BitVec.toInt_eq_msb_cond, BitVec.msb_eq_getLsbD_last]
  simp

/-- Settles O31: each field stands where the default layout puts it. -/
theorem dataWordsAssemble : Obligations.DataWordsAssemble := by
  refine ⟨fun c d hl => ?_, fun c t hl => ?_, fun c w0 w1 hl => ?_⟩
  · rw [decodeTile_default hl]
    exact ⟨rfl, rfl, rfl⟩
  · rw [cellSize, scrollX, scrollY, hl]
    exact ⟨rfl, rfl, rfl⟩
  · rw [decodeSprite, hl]
    exact ⟨field_twelve_toInt w0, rfl, rfl, rfl, rfl, rfl⟩

/-! ## Tile pixels -/

/-- At shift 8 the bank is the pen's high byte (30_encoding.md R68). -/
theorem bankedPen_eight (pixel bank : Byte) : bankedPen pixel bank 8 = bank ++ pixel := by
  apply BitVec.eq_of_toNat_eq
  rw [BitVec.toNat_append, ← Nat.shiftLeft_add_eq_or_of_lt pixel.isLt, bankedPen, BitVec.toNat_add,
    BitVec.toNat_shiftLeft, BitVec.toNat_setWidth, BitVec.toNat_setWidth, Nat.shiftLeft_eq,
    Nat.shiftLeft_eq]
  omega

theorem romByte_of_getElem? {c : Config} {rom : Rom} {a : Nat} {b : Byte}
    (h : (romBytes c rom)[a]? = some b) : romByte c rom a = .ok b := by
  rw [romByte, h]

/-- The pen of a nibble where it has one (R94). -/
theorem nibblePen_eq {c : Config} (h : tile4Unset c = false) (nib : BitVec 4) (bank : Byte) :
    nibblePen c nib bank = if c.tile4ColourBank then
        nib.setWidth 16 + (bank.setWidth 16 <<< c.tile4BankShift.getD 0)
      else nib.setWidth 16 := by
  unfold tile4Unset at h
  unfold nibblePen
  cases hb : c.tile4ColourBank with
  | false => rfl
  | true =>
    cases hs : c.tile4BankShift with
    | none => simp [hb, hs] at h
    | some n => simp [bankedPen]

theorem tilePixel4_unset {c : Config} (h : tile4Unset c = true) (t : TileDesc) (k : Nat) :
    tilePixel4 c t k = .error (.refusal .tile4BankShiftUnset) := by
  rw [tilePixel4, if_pos h]

theorem tilePixel4_past {c : Config} (h : tile4Unset c = false) {t : TileDesc} {k : Nat}
    (ha : c.tileRom.length ≤ t.romBase + k / 2) :
    tilePixel4 c t k = .error (.fault (.romOutOfRange .tile (t.romBase + k / 2))) := by
  rw [tilePixel4, h, romByte_past c .tile ha]
  rfl

theorem tilePixel4_byte {c : Config} (h : tile4Unset c = false) {t : TileDesc} {k : Nat} {b : Byte}
    (hb : c.tileRom[t.romBase + k / 2]? = some b) :
    tilePixel4 c t k = .ok (if nibble b (k % 2 = 0) = 15 then none
      else some (nibblePen c (nibble b (k % 2 = 0)) t.colorBank)) := by
  rw [tilePixel4, h, romByte_of_getElem? (rom := .tile) hb]
  rfl

theorem tilePixel8_past {c : Config} {t : TileDesc} {k : Nat}
    (ha : c.tileRom.length ≤ t.romBase + k) :
    tilePixel8 c t k = .error (.fault (.romOutOfRange .tile (t.romBase + k))) := by
  rw [tilePixel8, romByte_past c .tile ha]

theorem tilePixel8_byte {c : Config} {t : TileDesc} {k : Nat} {b : Byte}
    (hb : c.tileRom[t.romBase + k]? = some b) :
    tilePixel8 c t k = .ok (if b = 255 then none else some (t.colorBank ++ b)) := by
  rw [tilePixel8, romByte_of_getElem? (rom := .tile) hb, ← bankedPen_eight]
  rfl

theorem tilePixel_default {c : Config} (h : c.tileDesc = defaultTileDesc) (d : Word)
    (size px py : Nat) :
    tilePixel c d size px py =
      if d.getLsbD 28 then tilePixel8 c (decodeTile c d) (py * size + px)
      else tilePixel4 c (decodeTile c d) (py * size + px) := by
  rw [tilePixel, decodeTile_default h]

/-- Settles O29: bit 28 of the descriptor tells the two depths, and each pixel is refused, past the
ROM's end or of a byte. -/
theorem tilePixelFollowsItsFormula : Obligations.TilePixelFollowsItsFormula := by
  intro c d size px py hl k romBase bank
  rw [tilePixel_default hl, decodeTile_default hl]
  refine ⟨fun hd hb hs => ?_, fun hd hset => ?_, fun hd => ?_⟩
  · rw [hd]
    exact tilePixel4_unset (by simp [tile4Unset, hb, hs]) _ _
  · have hset : tile4Unset c = false := by
      rcases hset with hb | ⟨n, hn⟩
      · simp [tile4Unset, hb]
      · simp [tile4Unset, hn]
    rw [hd]
    refine ⟨fun hpast => tilePixel4_past hset hpast, fun b hbyte => ?_⟩
    intro nib pen
    have hnib : nibble b (k % 2 = 0) = nib := by simp [nibble, nib]
    refine (tilePixel4_byte hset hbyte).trans ?_
    rw [hnib, nibblePen_eq hset]
  · rw [hd]
    exact ⟨fun hpast => tilePixel8_past hpast, fun b hbyte => tilePixel8_byte hbyte⟩

end Sys2Proof.Machine
end

section
/-! PROOFS. The bus family (40_bus_access.md): what a read returns, which lanes a masked write merges, what
a brightness write does to the contrast of its bank, and that every request without the annex completes. -/

namespace Sys2Proof.Machine

/-! ## Reads -/

/-- Settles O10: each read is a reply with the word of its store. -/
theorem readsReturnTheStoredWord : Obligations.ReadsReturnTheStoredWord :=
  fun s => ⟨fun _ _ => returnWord_eq s _, fun _ => returnWord_eq s _, fun _ => returnWord_eq s _⟩

/-- Settles O11: each of the five reads is `returnFree`. -/
theorem writeOnlyReadsReturnAFreeWord : Obligations.WriteOnlyReadsReturnAFreeWord := by
  rintro s i (⟨t, off, rfl⟩ | ⟨off, rfl⟩ | ⟨p, rfl⟩ | ⟨off, rfl⟩ | ⟨wa, rfl⟩)
  all_goals exact returnFree_eq s

/-- Settles O15: an unmapped write is a reply with nothing. -/
theorem unmappedWriteChangesNothing : Obligations.UnmappedWriteChangesNothing :=
  fun s _ _ _ => returnNothing_eq s

/-! ## Masked writes -/

/-- A masked write merges the enabled lanes of its word alone (R89). -/
theorem lanesMerged_storeMerge (m : Store) (i : Nat) (data : Word) (be : Lanes) :
    lanesMerged m (storeMerge m i data be) i data be := by
  intro j k hk
  rw [storeMerge, storeLane_put _ _ _ _ _ hk]
  by_cases hj : j = i
  · rw [if_pos hj, laneOfWord_merge _ _ _ _ hk, laneOfWord_storeWord _ _ _ hk, hj]
    simp [laneOfWord]
  · rw [if_neg hj, if_neg fun h => hj h.1]

theorem applyBrightness_setBrt (v : Word) (s : State) (m : Store) :
    applyBrightness v (s.setBrt m) = (applyBrightness v s).setBrt m := by
  unfold applyBrightness
  rw [State.setBrt_brtCache]
  split <;> rfl

/-- A brightness write is a masked write of its port, and what the merged word does to the contrast (R86). -/
theorem exec_brtWr (p : BitVec 1) (data : Word) (be : Lanes) (s : State) :
    exec (.brtWr p data be) s =
      .next (((applyBrightness (merge (storeWord s.brt p.toNat) data be) s).setBrt
        (storeMerge s.brt p.toNat data be)).reply none) :=
  congrArg (fun t : State => Host.Outcome.next (t.reply none)) (applyBrightness_setBrt _ s _)

/-- A brightness write changes its port, the cache and the contrast. -/
theorem brightnessWrite_only (v : Word) (s : State) (m : Store) :
    ((applyBrightness v s).setBrt m).reply none =
      { s with brt := m, brtCache := (applyBrightness v s).brtCache,
               contrast := (applyBrightness v s).contrast, out := none } := by
  rw [applyBrightness_only]
  rfl

/-- Settles O12: each of the six writes stores its word merged under the lane enables. -/
theorem maskedWritesMergeLanes : Obligations.MaskedWritesMergeLanes := by
  intro s data be
  exact ⟨fun b off => ⟨_, lanesMerged_storeMerge _ _ _ _, rfl⟩,
    fun off => ⟨_, lanesMerged_storeMerge _ _ _ _, rfl⟩,
    fun idx => ⟨_, lanesMerged_storeMerge _ _ _ _, rfl⟩,
    fun t off => ⟨_, lanesMerged_storeMerge _ _ _ _, rfl⟩,
    fun off => ⟨_, lanesMerged_storeMerge _ _ _ _, rfl⟩,
    fun p => ⟨_, _, _, lanesMerged_storeMerge _ _ _ _, by
      rw [exec_brtWr, brightnessWrite_only]⟩⟩

/-- Settles O45: the entry's colour is read from the merged word, every other entry's from a word that
stays. -/
theorem paletteWriteSetsOneColour : Obligations.PaletteWriteSetsOneColour := by
  intro s idx data be
  have hself := storeWord_merge_self s.pal idx.toNat data be
  refine ⟨_, rfl, hself, congrArg unpackBGR hself, fun i hi => ?_, rfl, rfl, rfl⟩
  have hother := storeWord_merge_ne s.pal data be hi
  exact ⟨hother, congrArg unpackBGR hother⟩

/-! ## Brightness -/

/-- A brightness word that applies sets the cache and the contrast of its bank and leaves the other bank's
(R86). -/
theorem applyBrightness_applies {v : Word} {s : State}
    (h : brightnessApplies v (pair s.brtCache (brtBank v)) = true) :
    pair (applyBrightness v s).brtCache (brtBank v) = brtLevel v ∧
      pair (applyBrightness v s).contrast (brtBank v) = levelNumerator (brtLevel v) ∧
      ∀ k, k ≠ brtBank v → pair (applyBrightness v s).brtCache k = pair s.brtCache k ∧
        pair (applyBrightness v s).contrast k = pair s.contrast k := by
  have happly : applyBrightness v s = _ := if_pos h
  rw [happly]
  exact ⟨pair_setPair_self _ _ _, pair_setPair_self _ _ _,
    fun k hk => ⟨pair_setPair_ne _ _ hk, pair_setPair_ne _ _ hk⟩⟩

/-- A brightness word that does not apply changes nothing (R86). -/
theorem applyBrightness_idle {v : Word} {s : State}
    (h : ¬ brightnessApplies v (pair s.brtCache (brtBank v)) = true) : applyBrightness v s = s :=
  if_neg h

/-- Settles O13: the merged word is stored, and it applies to the bank of its bit 26 or not at all. -/
theorem brightnessWriteSetsOneBank : Obligations.BrightnessWriteSetsOneBank := by
  intro s p data be v level bank
  refine ⟨_, exec_brtWr p data be s, storeWord_merge_self _ _ _ _, fun happly => ?_, fun hidle => ?_,
    brightnessWrite_only v s _⟩
  · obtain ⟨hcache, hcontrast, hother⟩ := applyBrightness_applies (brightnessApplies_iff.2 happly)
    exact ⟨hcache, congrArg Fin.val hcontrast, hother⟩
  · have hsame : applyBrightness v s = s := applyBrightness_idle (mt brightnessApplies_iff.1 hidle)
    exact ⟨(congrArg State.brtCache hsame :), (congrArg State.contrast hsame :)⟩

/-! ## The agreement of cache and contrast -/

/-- The agreement of a bank is about its contrast, its cache and the configuration. -/
theorem brightnessAgrees_congr {s t : State} {k : BitVec 1} (hcfg : t.cfg = s.cfg)
    (hcontrast : pair t.contrast k = pair s.contrast k) (hcache : pair t.brtCache k = pair s.brtCache k) :
    brightnessAgrees t k = brightnessAgrees s k := by
  rw [brightnessAgrees, brightnessAgrees, hcfg, hcontrast, hcache]

/-- No blit touches the contrast or the cache. -/
theorem BlitFields.brightnessAgrees {s t : State} (h : BlitFields s t) (k : BitVec 1) :
    brightnessAgrees t k = brightnessAgrees s k := by
  rw [h]
  rfl

/-- A bank a brightness word sets agrees, whatever it held; the other bank is as it was (R86). -/
theorem brightnessAgrees_applyBrightness {s : State} {k : BitVec 1} (h : brightnessAgrees s k = true)
    (v : Word) : brightnessAgrees (applyBrightness v s) k = true := by
  by_cases happly : brightnessApplies v (pair s.brtCache (brtBank v)) = true
  · obtain ⟨hcache, hcontrast, hother⟩ := applyBrightness_applies happly
    by_cases hk : k = brtBank v
    · rw [brightnessAgrees, hk, hcache, hcontrast]
      simp [levelNumerator]
    · obtain ⟨hcacheKept, hcontrastKept⟩ := hother k hk
      have hcfg : (applyBrightness v s).cfg = s.cfg := by rw [applyBrightness_only]
      rwa [brightnessAgrees_congr hcfg hcontrastKept hcacheKept]
  · rwa [applyBrightness_idle happly]

theorem runCmd_brightnessAgrees {s t : State} {cmd : BltCmd} (ht : runCmd cmd s = .ok t)
    (k : BitVec 1) : brightnessAgrees t k = brightnessAgrees s k := by
  have hleft := runCmd_leaves cmd s
  rw [ht] at hleft
  exact hleft.brightnessAgrees k

theorem bltregWrRun_brightnessAgrees {s t : State} {off : BitVec 3} {data : Word} {be : Lanes}
    (ht : bltregWrRun off data be s = .ok t) (k : BitVec 1) :
    brightnessAgrees t k = brightnessAgrees s k := by
  obtain ⟨m, hleft⟩ := bltregWrRun_leaves off data be s
  rw [ht] at hleft
  exact hleft.brightnessAgrees k

theorem refreshRun_brightnessAgrees {s t : State} {scr : Screen} (ht : refreshRun s scr = .ok t)
    (k : BitVec 1) : brightnessAgrees t k = brightnessAgrees s k := by
  obtain ⟨f, -, rfl⟩ := refreshRun_ok ht
  cases scr <;> rfl

/-- Every instruction that completes keeps the agreement: RESET starts it anew (R38), a brightness write
keeps it, and nothing else touches the contrast or the cache. -/
theorem exec_brightnessAgrees {i : Instr} {s t : State} {k : BitVec 1}
    (h : brightnessAgrees s k = true) (ht : exec i s = .next t) : brightnessAgrees t k = true := by
  cases i with
  | reset => cases ht; exact brightnessAgrees_initState s.cfg k
  | brtWr p data be =>
    rw [exec_brtWr] at ht
    cases ht
    exact brightnessAgrees_applyBrightness h _
  | refreshLeft => rwa [refreshRun_brightnessAgrees (finish_next_iff.1 ht)]
  | refreshRight => rwa [refreshRun_brightnessAgrees (finish_next_iff.1 ht)]
  | blitDone =>
    change execBlitDone s = _ at ht
    unfold execBlitDone at ht
    split at ht <;> cases ht <;> exact h
  | bltregWr off data be => rwa [bltregWrRun_brightnessAgrees (finish_next_iff.1 ht)]
  | bltEnd => rwa [runCmd_brightnessAgrees (cmd := .endList) (finish_next_iff.1 ht)]
  | bltCopy amt => rwa [runCmd_brightnessAgrees (cmd := .copy amt) (finish_next_iff.1 ht)]
  | bltFill amt v => rwa [runCmd_brightnessAgrees (cmd := .fill amt v) (finish_next_iff.1 ht)]
  | bltNextline => rwa [runCmd_brightnessAgrees (cmd := .nextline) (finish_next_iff.1 ht)]
  | bltUnknown c0 => rwa [runCmd_brightnessAgrees (cmd := .unknown c0) (finish_next_iff.1 ht)]
  | _ => cases ht; exact h

/-- Settles O20: the agreement of each bank is an invariant of the step, by the instruction it runs. -/
theorem brightnessCacheStaysInAgreement : Obligations.BrightnessCacheStaysInAgreement := by
  intro s t hs ht k
  rcases step_next_cases ht with rfl | ⟨i, rest, -, hexec⟩
  · exact hs k
  · exact exec_brightnessAgrees (s := s.setInbox rest) (hs k) hexec

/-! ## Requests without the annex -/

/-- The fields a bus write without the annex can change, and that it returns nothing (R73). -/
def BusWritten (s t : State) : Prop :=
  t = { s with tile := t.tile, sprite := t.sprite, treg := t.treg, sreg := t.sreg, brt := t.brt,
               brtCache := t.brtCache, contrast := t.contrast, pal := t.pal, out := none }

/-- A read request is for a stored word or a free one; it changes the reply and the draws (R73). -/
theorem exec_decodeBus_read {q : BusReq} (hq : q.w = false) (s : State) :
    ∃ w n, exec (decodeBus s.cfg q) s = .next { s with out := some (.word w), draws := n } := by
  unfold decodeBus
  split
  · next v _ =>
    simp only [regionInstr, hq]
    cases v.region <;> exact ⟨_, _, rfl⟩
  · rw [unmappedInstr, hq]
    exact ⟨_, _, rfl⟩

/-- A write request without the annex completes; one to the register window is ignored (R126). -/
theorem exec_decodeBus_write {s : State} {q : BusReq} (hp : s.cfg.blitterPresent = false)
    (hq : q.w = true) : ∃ t, exec (decodeBus s.cfg q) s = .next t ∧ BusWritten s t := by
  unfold decodeBus
  split
  · next v _ =>
    simp only [regionInstr, hq]
    cases v.region with
    | brt p =>
      simp only [exec_brtWr, brightnessWrite_only]
      exact ⟨_, rfl, rfl⟩
    | bltreg => exact ⟨_, congrArg finish (bltregWrRun_absent hp _ q.data q.be), rfl⟩
    | _ => exact ⟨_, rfl, rfl⟩
  · rw [unmappedInstr, hq]
    exact ⟨_, rfl, rfl⟩

/-- Settles O16: reads and writes apart. -/
theorem coreBusRequestsComplete : Obligations.CoreBusRequestsComplete := by
  intro s q hp
  cases hq : q.w with
  | false =>
    obtain ⟨w, n, hexec⟩ := exec_decodeBus_read hq s
    exact ⟨_, hexec, fun _ => ⟨w, rfl⟩, fun h => by cases h⟩
  | true =>
    obtain ⟨t, hexec, hwritten⟩ := exec_decodeBus_write hp hq
    exact ⟨t, hexec, fun h => (by cases h), fun _ => hwritten⟩

end Sys2Proof.Machine
end

section
/-! PROOFS. What the decoder answers (41_tile_decoder.md R93 to R98): the pens of a tile, the sprite a
tile index resolves to, and the byte a sprite pixel reads. -/

namespace Sys2Proof.Machine

/-! ## Pens of tiles -/

theorem tilePixel_eight {c : Config} {d : Word} (h : (decodeTile c d).depth = true)
    (size px py : Nat) :
    tilePixel c d size px py = tilePixel8 c (decodeTile c d) (py * size + px) := by
  simp only [tilePixel, h, if_true]

theorem tilePixel_four {c : Config} {d : Word} (h : (decodeTile c d).depth = false)
    (size px py : Nat) :
    tilePixel c d size px py = tilePixel4 c (decodeTile c d) (py * size + px) := by
  simp only [tilePixel, h, Bool.false_eq_true, if_false]

/-- An 8bpp pixel with a pen read a byte of the ROM that is not transparent (R93). -/
theorem tilePixel8_pen {c : Config} {t : TileDesc} {k : Nat} {p : Pen}
    (h : tilePixel8 c t k = .ok (some p)) :
    ∃ b : Byte, b ≠ 255 ∧ b ∈ c.tileRom ∧ p = t.colorBank ++ b := by
  cases hb : c.tileRom[t.romBase + k]? with
  | none =>
    rw [tilePixel8_past (List.getElem?_eq_none_iff.1 hb)] at h
    cases h
  | some b =>
    rw [tilePixel8_byte hb] at h
    by_cases hclear : b = 255
    · rw [if_pos hclear] at h
      cases h
    · rw [if_neg hclear] at h
      cases h
      exact ⟨b, hclear, List.mem_of_getElem? hb, rfl⟩

/-- A 4bpp pixel with a pen read a nibble that is not transparent (R93, R94). -/
theorem tilePixel4_pen {c : Config} {t : TileDesc} {k : Nat} {p : Pen} (hset : tile4Unset c = false)
    (h : tilePixel4 c t k = .ok (some p)) :
    ∃ nib : BitVec 4, nib ≠ 15 ∧ p = nibblePen c nib t.colorBank := by
  cases hb : c.tileRom[t.romBase + k / 2]? with
  | none =>
    rw [tilePixel4_past hset (List.getElem?_eq_none_iff.1 hb)] at h
    cases h
  | some b =>
    rw [tilePixel4_byte hset hb] at h
    by_cases hclear : nibble b (k % 2 = 0) = 15
    · rw [if_pos hclear] at h
      cases h
    · rw [if_neg hclear] at h
      cases h
      exact ⟨_, hclear, rfl⟩

/-- A byte with a bank above it, as a number (30_encoding.md R68). -/
theorem append_byte_toNat (bank b : Byte) : (bank ++ b).toNat = b.toNat + 256 * bank.toNat := by
  rw [BitVec.toNat_append, ← Nat.shiftLeft_add_eq_or_of_lt b.isLt, Nat.shiftLeft_eq]
  omega

/-- Settles O30: a pen is an opaque nibble or an opaque byte under its bank, by the depth of the tile. -/
theorem tilePensStayInRange : Obligations.TilePensStayInRange := by
  intro c d size px py p h
  refine ⟨fun hdepth hbank => ?_, fun hdepth => ?_⟩
  · have hset : tile4Unset c = false := by simp [tile4Unset, hbank]
    rw [tilePixel_four hdepth] at h
    obtain ⟨nib, hnib, rfl⟩ := tilePixel4_pen hset h
    have hne : nib.toNat ≠ 15 := fun e => hnib (BitVec.eq_of_toNat_eq e)
    rw [nibblePen_eq hset, hbank, if_neg Bool.false_ne_true, BitVec.toNat_setWidth]
    omega
  · rw [tilePixel_eight hdepth] at h
    obtain ⟨b, hb, hmem, rfl⟩ := tilePixel8_pen h
    exact ⟨b, hb, hmem, append_byte_toNat _ b⟩

/-! ## Sprite tile indices -/

theorem spriteTileCount_default {c : Config} (h : c.spriteTileCount = none) :
    spriteTileCount c = c.spriteRom.length / 256 := by
  rw [spriteTileCount, h, Option.getD_none]

theorem spriteTileCount_given {c : Config} {n : Nat} (h : c.spriteTileCount = some n) :
    spriteTileCount c = n := by
  rw [spriteTileCount, h, Option.getD_some]

theorem resolveSpriteTile_noTiles {c : Config} (h : spriteTileCount c = 0) (tile : Nat) :
    resolveSpriteTile c tile = .error (.fault (.spriteIndexOutOfRange tile)) := by
  rw [resolveSpriteTile, if_pos h]

theorem resolveSpriteTile_wrap {c : Config} (h : 0 < spriteTileCount c)
    (hp : c.spriteIndexPolicy = .wrap) (tile : Nat) :
    resolveSpriteTile c tile = .ok (tile % spriteTileCount c) := by
  rw [resolveSpriteTile, if_neg h.ne', hp]

theorem resolveSpriteTile_past {c : Config} (h : 0 < spriteTileCount c)
    (hp : c.spriteIndexPolicy = .fault) {tile : Nat} (ht : spriteTileCount c ≤ tile) :
    resolveSpriteTile c tile = .error (.fault (.spriteIndexOutOfRange tile)) := by
  simp only [resolveSpriteTile, if_neg h.ne', hp, if_pos ht]

theorem resolveSpriteTile_inside {c : Config} (hp : c.spriteIndexPolicy = .fault) {tile : Nat}
    (ht : tile < spriteTileCount c) : resolveSpriteTile c tile = .ok tile := by
  simp only [resolveSpriteTile, if_neg (Nat.zero_lt_of_lt ht).ne', hp, if_neg ht.not_ge]

/-- Settles O32, one lemma a clause. -/
theorem spriteIndexResolves : Obligations.SpriteIndexResolves :=
  fun _ tile => ⟨spriteTileCount_default, fun _ => spriteTileCount_given,
    fun h => resolveSpriteTile_noTiles h tile, fun h hp => resolveSpriteTile_wrap h hp tile,
    fun h hp => resolveSpriteTile_past h hp, fun hp => resolveSpriteTile_inside hp⟩

/-- All an index can resolve to: a tile of the sprite ROM, or the fault with its cause (R97). -/
theorem resolveSpriteTile_cases (c : Config) (tile : Nat) :
    (∃ t, t < spriteTileCount c ∧ resolveSpriteTile c tile = .ok t) ∨
    ((spriteTileCount c = 0 ∨ c.spriteIndexPolicy = .fault ∧ spriteTileCount c ≤ tile) ∧
      resolveSpriteTile c tile = .error (.fault (.spriteIndexOutOfRange tile))) := by
  rcases Nat.eq_zero_or_pos (spriteTileCount c) with h0 | hpos
  · exact .inr ⟨.inl h0, resolveSpriteTile_noTiles h0 tile⟩
  · cases hp : c.spriteIndexPolicy with
    | wrap => exact .inl ⟨_, Nat.mod_lt _ hpos, resolveSpriteTile_wrap hpos hp tile⟩
    | fault =>
      rcases Nat.lt_or_ge tile (spriteTileCount c) with hlt | hle
      · exact .inl ⟨tile, hlt, resolveSpriteTile_inside hp hlt⟩
      · exact .inr ⟨.inr ⟨rfl, hle⟩, resolveSpriteTile_past hpos hp hle⟩

theorem resolveSpriteTile_lt {c : Config} {tile t : Nat} (h : resolveSpriteTile c tile = .ok t) :
    t < spriteTileCount c := by
  rcases resolveSpriteTile_cases c tile with ⟨u, hu, hok⟩ | ⟨-, herr⟩
  · rw [hok] at h
    cases h
    exact hu
  · rw [herr] at h
    cases h

/-! ## Sprite pixels -/

/-- The address of the byte of resolved tile `t` that pixel `(dx, dy)` of a sprite reads (R98). -/
def spriteByteAddr (sp : SpriteDesc) (t dx dy : Nat) : Nat :=
  t * 256 + (if sp.flipY then 15 - dy else dy) * 16 + (if sp.flipXeff then 15 - dx else dx)

theorem spritePixel_unresolved {c : Config} {sp : SpriteDesc} {e : Stop}
    (h : resolveSpriteTile c sp.tile = .error e) (dx dy : Nat) :
    spritePixel c sp dx dy = .error e := by
  simp only [spritePixel, h]

theorem spritePixel_past {c : Config} {sp : SpriteDesc} {t dx dy : Nat}
    (h : resolveSpriteTile c sp.tile = .ok t) (ha : c.spriteRom.length ≤ spriteByteAddr sp t dx dy) :
    spritePixel c sp dx dy =
      .error (.fault (.romOutOfRange .sprite (spriteByteAddr sp t dx dy))) := by
  have hbyte := romByte_past c .sprite ha
  rw [spriteByteAddr] at hbyte ⊢
  simp only [spritePixel, h, hbyte]

theorem spritePixel_byte {c : Config} {sp : SpriteDesc} {t dx dy : Nat} {b : Byte}
    (h : resolveSpriteTile c sp.tile = .ok t)
    (hb : c.spriteRom[spriteByteAddr sp t dx dy]? = some b) :
    spritePixel c sp dx dy = .ok (if b = 255 then none else some (sp.colour ++ b)) := by
  have hbyte := romByte_of_getElem? (rom := .sprite) hb
  rw [spriteByteAddr] at hbyte
  rw [← bankedPen_eight]
  simp only [spritePixel, h, hbyte]
  rfl

/-- A pixel of the square reads one of the 256 bytes of its tile (R98). -/
theorem spriteByteAddr_lt (sp : SpriteDesc) (t : Nat) {dx dy : Nat} (hx : dx < 16) (hy : dy < 16) :
    spriteByteAddr sp t dx dy < (t + 1) * 256 := by
  rw [spriteByteAddr]
  split <;> split <;> omega

/-- Under the default number of tiles a resolved tile is whole in the ROM (R97). -/
theorem spriteByteAddr_lt_rom {c : Config} (hc : c.spriteTileCount = none) {sp : SpriteDesc} {t : Nat}
    (ht : resolveSpriteTile c sp.tile = .ok t) {dx dy : Nat} (hx : dx < 16) (hy : dy < 16) :
    spriteByteAddr sp t dx dy < c.spriteRom.length := by
  have hlt := resolveSpriteTile_lt ht
  rw [spriteTileCount_default hc] at hlt
  have haddr := spriteByteAddr_lt sp t hx hy
  omega

/-- Settles O33: the index stops the pixel, or the pixel reads its byte. -/
theorem spritePixelFollowsItsFormula : Obligations.SpritePixelFollowsItsFormula :=
  fun _ _ dx dy hx hy => ⟨fun _ h => spritePixel_unresolved h dx dy, fun _ ht =>
    ⟨fun hc => spriteByteAddr_lt_rom hc ht hx hy, spritePixel_past ht, fun _ => spritePixel_byte ht⟩⟩

end Sys2Proof.Machine
end

section
/-! PROOFS. Why a step stops (60_exceptions.md R144, R145): the stops of a refresh are those of the pixels
it decodes, the stops of a blit those of its commands and of the reading of its stream. -/

namespace Sys2Proof.Machine

theorem romByte_error {c : Config} {rom : Rom} {a : Nat} {e : Stop} (h : romByte c rom a = .error e) :
    e = .fault (.romOutOfRange rom a) ∧ (romBytes c rom).length ≤ a := by
  cases hb : (romBytes c rom)[a]? with
  | none =>
    have ha := List.getElem?_eq_none_iff.1 hb
    rw [romByte_past c rom ha] at h
    cases h
    exact ⟨rfl, ha⟩
  | some b =>
    rw [romByte_of_getElem? hb] at h
    cases h

/-! ## The stops of a refresh -/

/-- A stop of a decoded pixel, with its cause (41_tile_decoder.md R94, R97; 60_exceptions.md R144, R145). -/
inductive PixelStop (c : Config) : Stop → Prop where
  | tileRom {a : Nat} (h : c.tileRom.length ≤ a) : PixelStop c (.fault (.romOutOfRange .tile a))
  | spriteRom {a : Nat} (h : c.spriteRom.length ≤ a) : PixelStop c (.fault (.romOutOfRange .sprite a))
  | spriteIndex {n : Nat}
      (h : spriteTileCount c = 0 ∨ c.spriteIndexPolicy = .fault ∧ spriteTileCount c ≤ n) :
      PixelStop c (.fault (.spriteIndexOutOfRange n))
  | shiftUnset (hb : c.tile4ColourBank = true) (hs : c.tile4BankShift = none) :
      PixelStop c (.refusal .tile4BankShiftUnset)

theorem tile4Unset_iff (c : Config) :
    tile4Unset c = true ↔ c.tile4ColourBank = true ∧ c.tile4BankShift = none := by
  rw [tile4Unset, Bool.and_eq_true, Option.isNone_iff_eq_none]

theorem tilePixel4_stop {c : Config} {t : TileDesc} {k : Nat} {e : Stop}
    (h : tilePixel4 c t k = .error e) : PixelStop c e := by
  cases hset : tile4Unset c with
  | true =>
    rw [tilePixel4_unset hset] at h
    cases h
    obtain ⟨hb, hs⟩ := (tile4Unset_iff c).1 hset
    exact .shiftUnset hb hs
  | false =>
    cases hb : c.tileRom[t.romBase + k / 2]? with
    | none =>
      have ha := List.getElem?_eq_none_iff.1 hb
      rw [tilePixel4_past hset ha] at h
      cases h
      exact .tileRom ha
    | some b =>
      rw [tilePixel4_byte hset hb] at h
      cases h

theorem tilePixel8_stop {c : Config} {t : TileDesc} {k : Nat} {e : Stop}
    (h : tilePixel8 c t k = .error e) : PixelStop c e := by
  cases hb : c.tileRom[t.romBase + k]? with
  | none =>
    have ha := List.getElem?_eq_none_iff.1 hb
    rw [tilePixel8_past ha] at h
    cases h
    exact .tileRom ha
  | some b =>
    rw [tilePixel8_byte hb] at h
    cases h

theorem tilePixel_stop {c : Config} {d : Word} {size px py : Nat} {e : Stop}
    (h : tilePixel c d size px py = .error e) : PixelStop c e := by
  cases hd : (decodeTile c d).depth with
  | true =>
    rw [tilePixel_eight hd] at h
    exact tilePixel8_stop h
  | false =>
    rw [tilePixel_four hd] at h
    exact tilePixel4_stop h

theorem spritePixel_stop {c : Config} {sp : SpriteDesc} {dx dy : Nat} {e : Stop}
    (h : spritePixel c sp dx dy = .error e) : PixelStop c e := by
  rcases resolveSpriteTile_cases c sp.tile with ⟨t, -, ht⟩ | ⟨hcause, ht⟩
  · cases hb : c.spriteRom[spriteByteAddr sp t dx dy]? with
    | none =>
      have ha := List.getElem?_eq_none_iff.1 hb
      rw [spritePixel_past ht ha] at h
      cases h
      exact .spriteRom ha
    | some b =>
      rw [spritePixel_byte ht hb] at h
      cases h
  · rw [spritePixel_unresolved ht] at h
    cases h
    exact .spriteIndex hcause

theorem tileSample_stop {s : State} {t : BitVec 2} {x y : Nat} {e : Stop}
    (h : tileSample s t x y = .error e) : PixelStop s.cfg e := by
  unfold tileSample at h
  simp only at h
  split at h
  · exact tilePixel_stop h
  · cases h

theorem spriteSample_stop {s : State} {scr : Screen} {k x y : Nat} {e : Stop}
    (h : spriteSample s scr k x y = .error e) : PixelStop s.cfg e := by
  unfold spriteSample at h
  simp only at h
  split at h
  · exact spritePixel_stop h
  · cases h

/-- A refresh that stops met a pixel it could not decode: of its back tilemap, of a sprite, or of its
front tilemap (60_exceptions.md R148). -/
theorem refreshRun_stop {s : State} {scr : Screen} {h : Halt State}
    (hr : refreshRun s scr = .error h) : PixelStop s.cfg h.stop := by
  obtain ⟨f, hf, -⟩ := refreshRun_error hr
  rcases (renderFrame_error hf).2 with ⟨p, ⟨hback, -⟩, -⟩ | ⟨-, k, -, p, ⟨hslot, -⟩, -⟩ |
    ⟨-, -, p, ⟨hfront, -⟩, -⟩
  · exact tileSample_stop hback
  · exact spriteSample_stop hslot
  · exact tileSample_stop hfront

/-! ## The stops of a command -/

/-- A fault of the blitter, with its cause (48_blitter_optional.md R132, R134, R135). -/
inductive BlitFault (c : Config) : Stop → Prop where
  | rom {a : Nat} (h : c.blitRom.length ≤ a) : BlitFault c (.fault (.romOutOfRange .blit a))
  | dest {b : BitVec 2} {idx : Nat} (h : tileBankWords ≤ idx) :
      BlitFault c (.fault (.bltDestOutOfRange b idx))

/-- The refusal of an amount that counts an odd number of bytes (48_blitter_optional.md R135, R137). -/
structure OddAmount (c : Config) (amt : Byte) (e : Stop) : Prop where
  stop : e = .refusal .bltOddAmount
  unit : c.bltAmountUnit = .bytes
  odd  : amt.toNat % 2 = 1

/-- A command that writes half-words, with its amount. -/
def WritesHalves (cmd : BltCmd) (amt : Byte) : Prop :=
  cmd = .copy amt ∨ ∃ v, cmd = .fill amt v

theorem writeHalf_stop {c : Config} {v : Half} {bank : Store} {cur : BltCursor}
    {h : Halt (Store × BltCursor)} (hw : writeHalf c v bank cur = .error h) :
    BlitFault c h.stop := by
  rcases writeHalf_cases c v bank cur with ⟨-, hok⟩ | ⟨hle, herr⟩
  · rw [hok] at hw
    cases hw
  · rw [herr] at hw
    cases hw
    exact .dest hle

theorem romByte_blit_stop {c : Config} {a : Nat} {e : Stop} (h : romByte c .blit a = .error e) :
    BlitFault c e := by
  obtain ⟨rfl, ha⟩ := romByte_error h
  exact .rom ha

theorem copyHalves_stop {c : Config} {n p : Nat} {bank : Store} {cur : BltCursor}
    {h : Halt (Store × BltCursor)} (hr : copyHalves c n p bank cur = .error h) :
    BlitFault c h.stop := by
  induction n generalizing p bank cur with
  | zero => cases hr
  | succ n ih =>
    unfold copyHalves at hr
    cases hhi : romByte c .blit p with
    | error e =>
      rw [hhi] at hr
      cases hr
      exact romByte_blit_stop hhi
    | ok hi =>
      cases hlo : romByte c .blit (p + 1) with
      | error e =>
        rw [hhi, hlo] at hr
        cases hr
        exact romByte_blit_stop hlo
      | ok lo =>
        cases hw : writeHalf c (hi ++ lo) bank cur with
        | error h' =>
          simp only [hhi, hlo, hw] at hr
          cases hr
          exact writeHalf_stop hw
        | ok r =>
          simp only [hhi, hlo, hw] at hr
          exact ih hr

theorem fillHalves_stop {c : Config} {v : Half} {n : Nat} {bank : Store} {cur : BltCursor}
    {h : Halt (Store × BltCursor)} (hr : fillHalves c v n bank cur = .error h) :
    BlitFault c h.stop := by
  induction n generalizing bank cur with
  | zero => cases hr
  | succ n ih =>
    unfold fillHalves at hr
    cases hw : writeHalf c v bank cur with
    | error h' =>
      rw [hw] at hr
      cases hr
      exact writeHalf_stop hw
    | ok r =>
      rw [hw] at hr
      exact ih hr

theorem halfCount_stop {c : Config} {amt : Byte} {e : Stop} (h : halfCount c amt = .error e) :
    OddAmount c amt e := by
  unfold halfCount at h
  cases hu : c.bltAmountUnit with
  | halfwords =>
    rw [hu] at h
    cases h
  | bytes =>
    simp only [hu] at h
    split at h
    · next hodd =>
      cases h
      exact ⟨rfl, hu, hodd⟩
    · cases h

/-- A writing command stops for its amount, or as its loop does. -/
theorem writeCommand_stop {s : State} {amt : Byte} {loop : Nat → BltCursor → Run (Store × BltCursor)}
    {src : Nat → BltCursor → Nat} {h : Halt State}
    (hl : ∀ n cur h, loop n cur = .error h → BlitFault s.cfg h.stop)
    (hr : writeCommand s amt loop src = .error h) :
    BlitFault s.cfg h.stop ∨ OddAmount s.cfg amt h.stop := by
  unfold writeCommand writeBack at hr
  cases hc : s.cursor with
  | none =>
    rw [atCursor_none _ hc] at hr
    cases hr
  | some cur =>
    rw [atCursor_some _ hc] at hr
    cases hn : halfCount s.cfg amt with
    | error e =>
      rw [hn] at hr
      cases hr
      exact .inr (halfCount_stop hn)
    | ok n =>
      simp only [hn] at hr
      cases hloop : loop n cur with
      | error h' =>
        rw [hloop] at hr
        cases hr
        exact .inl (hl n cur h' hloop)
      | ok r =>
        rw [hloop] at hr
        cases hr

theorem atCursor_ok (s : State) (f : BltCursor → State) :
    ∃ t, atCursor s (fun cur => .ok (f cur)) = .ok t := by
  cases hc : s.cursor with
  | none => exact ⟨_, atCursor_none _ hc⟩
  | some cur => exact ⟨_, atCursor_some _ hc⟩

/-- Only a COPY and a FILL stop, by a fault of the blitter or for an odd amount
(48_blitter_optional.md R134 to R139). -/
theorem runCmd_stop {cmd : BltCmd} {s : State} {h : Halt State} (hr : runCmd cmd s = .error h) :
    ∃ amt, WritesHalves cmd amt ∧ (BlitFault s.cfg h.stop ∨ OddAmount s.cfg amt h.stop) := by
  have hok : ∀ f : BltCursor → State, atCursor s (fun cur => .ok (f cur)) ≠ .error h := by
    intro f hf
    obtain ⟨t, ht⟩ := atCursor_ok s f
    rw [ht] at hf
    cases hf
  cases cmd with
  | endList => exact absurd hr (hok _)
  | copy amt => exact ⟨amt, .inl rfl, writeCommand_stop (fun _ _ _ => copyHalves_stop) hr⟩
  | fill amt v => exact ⟨amt, .inr ⟨v, rfl⟩, writeCommand_stop (fun _ _ _ => fillHalves_stop) hr⟩
  | nextline => exact absurd hr (hok _)
  | unknown c0 => exact absurd hr (hok _)

/-! ## The stops of a start -/

/-- A command that cannot be read needs more bytes than the stream has (48_blitter_optional.md R133). -/
theorem decodeCmd_short {bs : List Byte} {k : Nat} (h : decodeCmd bs = .error (.streamShort k)) :
    bs.length ≤ k := by
  unfold decodeCmd at h
  split at h
  · cases h
    exact Nat.le_refl _
  · split at h
    · split at h <;> cases h
      exact Nat.le_refl _
    · split at h
      · split at h <;> cases h <;> exact Nat.le_refl _
      · split at h <;> cases h

/-- The commands of a blit keep the configuration (10_state.md R20). -/
theorem afterCommands_cfg {n : Nat} {s t : State} (h : afterCommands n s = some t) :
    t.cfg = s.cfg := by
  induction n generalizing s with
  | zero =>
    cases h
    rfl
  | succ n ih =>
    unfold afterCommands at h
    split at h
    · cases h
    · split at h
      · cases h
      · next cmd _ =>
        cases hx : exec cmd.instr s with
        | next u =>
          rw [hx] at h
          exact (ih h).trans (exec_cfg hx)
        | fault f =>
          rw [hx] at h
          cases h
        | refused r =>
          rw [hx] at h
          cases h

/-- A writing command with an odd amount stands in the stream of a blit. -/
def OddInStream (c : Config) (e : Stop) : Prop :=
  ∃ src cmd amt, decodeCmd (c.blitRom.drop src) = .ok cmd ∧ WritesHalves cmd amt ∧ OddAmount c amt e

/-- Only a start of the blitter stops, as the reading of its stream or one of its commands does
(48_blitter_optional.md R131, R132). -/
theorem bltregWrRun_stop {s : State} {off : BitVec 3} {data : Word} {be : Lanes} {h : Halt State}
    (hr : bltregWrRun off data be s = .error h) :
    off = s.cfg.bltRegLayout.start ∧ s.cfg.blitterPresent = true ∧
      (BlitFault s.cfg h.stop ∨ OddInStream s.cfg h.stop) := by
  cases hp : s.cfg.blitterPresent with
  | false =>
    rw [bltregWrRun_absent hp] at hr
    cases hr
  | true =>
    by_cases hoff : off = s.cfg.bltRegLayout.start
    · subst hoff
      refine ⟨rfl, rfl, ?_⟩
      rw [bltregWrRun_start hp] at hr
      obtain ⟨⟨m, u, cur, hu, -, hstop⟩, -⟩ := runBlit_error rfl (by simp only; omega) hr
      have hcfg : u.cfg = s.cfg := (afterCommands_cfg hu).trans rfl
      rcases hstop with ⟨k, hshort, rfl⟩ | ⟨cmd, hcmd, hrun⟩
      · refine .inl (.rom ?_)
        have hlen := decodeCmd_short hshort
        rw [List.length_drop] at hlen
        exact Nat.sub_le_iff_le_add'.1 hlen
      · obtain ⟨amt, hwrites, hcause⟩ := runCmd_stop hrun
        rw [hcfg] at hcause
        exact hcause.imp_right fun hodd => ⟨cur.src, cmd, amt, hcmd, hwrites, hodd⟩
    · simp only [bltregWrRun, hp, if_true, if_neg hoff] at hr
      cases hr

/-! ## The stops of an instruction -/

theorem stopOutcome_injective {σ : Type} : Function.Injective (stopOutcome (σ := σ))
  | .fault _, .fault _, rfl => rfl
  | .refusal _, .refusal _, rfl => rfl

theorem finish_stop_iff {σ : Type} {r : Run σ} {e : Stop} :
    finish r = stopOutcome e ↔ ∃ h, r = .error h ∧ h.stop = e := by
  cases r with
  | ok t => simp [(stopOutcome_ne_next e t).symm]
  | error h => simp [stopOutcome_injective.eq_iff]

/-- Why an instruction stops: a pixel of a refresh, a fault of the blitter, or the odd amount of a
command, run by itself or read from the stream by a start (60_exceptions.md R144, R145). -/
inductive NamedStop (i : Instr) (s : State) (e : Stop) : Prop where
  | pixel (scr : Screen) (hi : i = refreshInstr scr) (h : PixelStop s.cfg e)
  | blit (hi : runsCommands i s) (h : BlitFault s.cfg e)
  | oddCommand {cmd : BltCmd} {amt : Byte} (hi : i = cmd.instr) (hw : WritesHalves cmd amt)
      (h : OddAmount s.cfg amt e)
  | oddStart {data : Word} {be : Lanes} (hi : i = .bltregWr s.cfg.bltRegLayout.start data be)
      (hp : s.cfg.blitterPresent = true) (h : OddInStream s.cfg e)

theorem WritesHalves.runsCommands {cmd : BltCmd} {amt : Byte} (h : WritesHalves cmd amt) (s : State) :
    runsCommands cmd.instr s := by
  rcases h with rfl | ⟨v, rfl⟩
  · exact .inl ⟨amt, rfl⟩
  · exact .inr (.inl ⟨amt, v, rfl⟩)

theorem exec_refresh_stop {scr : Screen} {s : State} {e : Stop}
    (h : exec (refreshInstr scr) s = stopOutcome e) : NamedStop (refreshInstr scr) s e := by
  rw [exec_refresh] at h
  obtain ⟨halt, hr, rfl⟩ := finish_stop_iff.1 h
  exact .pixel scr rfl (refreshRun_stop hr)

theorem exec_cmd_stop {cmd : BltCmd} {s : State} {e : Stop}
    (h : exec cmd.instr s = stopOutcome e) : NamedStop cmd.instr s e := by
  rw [exec_cmd] at h
  obtain ⟨halt, hr, rfl⟩ := finish_stop_iff.1 h
  obtain ⟨amt, hw, hfault | hodd⟩ := runCmd_stop hr
  · exact .blit (hw.runsCommands s) hfault
  · exact .oddCommand rfl hw hodd

theorem exec_bltregWr_stop {off : BitVec 3} {data : Word} {be : Lanes} {s : State} {e : Stop}
    (h : exec (.bltregWr off data be) s = stopOutcome e) : NamedStop (.bltregWr off data be) s e := by
  change finish (bltregWrRun off data be s) = _ at h
  obtain ⟨halt, hr, rfl⟩ := finish_stop_iff.1 h
  obtain ⟨rfl, hp, hfault | hodd⟩ := bltregWrRun_stop hr
  · exact .blit (.inr (.inr ⟨data, be, rfl, hp⟩)) hfault
  · exact .oddStart rfl hp hodd

/-- All an instruction that stops can stop for: the events of the compositor and the blitter's
instructions have their stops, and the others complete (60_exceptions.md R143). -/
theorem exec_stop {i : Instr} {s : State} {e : Stop} (h : exec i s = stopOutcome e) :
    NamedStop i s e := by
  cases i with
  | refreshLeft => exact exec_refresh_stop (scr := .left) h
  | refreshRight => exact exec_refresh_stop (scr := .right) h
  | bltregWr off data be => exact exec_bltregWr_stop h
  | bltEnd => exact exec_cmd_stop (cmd := .endList) h
  | bltCopy amt => exact exec_cmd_stop (cmd := .copy amt) h
  | bltFill amt v => exact exec_cmd_stop (cmd := .fill amt v) h
  | bltNextline => exact exec_cmd_stop (cmd := .nextline) h
  | bltUnknown c0 => exact exec_cmd_stop (cmd := .unknown c0) h
  | blitDone =>
    change execBlitDone s = _ at h
    unfold execBlitDone at h
    split at h <;> exact absurd h.symm (stopOutcome_ne_next e _)
  | _ => exact absurd h.symm (stopOutcome_ne_next e _)

/-- Settles O26: a stop of each of the four sorts, read as a fault or as a refusal. -/
theorem onlyTheNamedStopsHappen : Obligations.OnlyTheNamedStopsHappen := by
  refine fun i s => ⟨fun f hf => ?_, fun r hr => ?_⟩
  · cases exec_stop (e := .fault f) hf with
    | pixel scr hi h =>
      refine .inl ⟨⟨scr, hi⟩, ?_⟩
      cases h with
      | tileRom ha => exact .inl ⟨_, rfl, ha⟩
      | spriteRom ha => exact .inr (.inl ⟨_, rfl, ha⟩)
      | spriteIndex hn => exact .inr (.inr ⟨_, rfl, hn⟩)
    | blit hi h =>
      refine .inr ⟨hi, ?_⟩
      cases h with
      | rom ha => exact .inl ⟨_, rfl, ha⟩
      | dest hidx => exact .inr ⟨_, _, rfl, hidx⟩
    | oddCommand _ _ h => cases h.stop
    | oddStart _ _ h =>
      obtain ⟨_, _, _, _, _, hodd⟩ := h
      cases hodd.stop
  · cases exec_stop (e := .refusal r) hr with
    | pixel scr hi h =>
      cases h with
      | shiftUnset hb hs => exact .inl ⟨⟨scr, hi⟩, rfl, hb, hs⟩
    | blit _ h => cases h
    | oddCommand hi hw h =>
      obtain ⟨hstop, hunit, hodd⟩ := h
      cases hstop
      refine .inr ⟨rfl, hunit, _, hodd, ?_⟩
      rcases hw with rfl | ⟨v, rfl⟩
      · exact .inl hi
      · exact .inr (.inl ⟨v, hi⟩)
    | oddStart hi hp h =>
      obtain ⟨src, cmd, amt, hcmd, hw, hstop, hunit, hodd⟩ := h
      cases hstop
      refine .inr ⟨rfl, hunit, amt, hodd, .inr (.inr ⟨_, _, src, hi, hp, ?_⟩)⟩
      rcases hw with rfl | ⟨v, rfl⟩
      · exact .inl hcmd
      · exact .inr ⟨v, hcmd⟩

end Sys2Proof.Machine
end

section
/-! PROOFS. What a refresh shows (42_compositor.md R99 to R115): it completes just where its three layers
do, and its bitmap is the Z-order picture; skipped cells, skipped sprites and a tilemap out of sight draw
nothing; a uniform tilemap repeats its one cell. -/

namespace Sys2Proof.Machine

/-! ## A whole refresh -/

/-- A frame is rendered just where the back tilemap, the sprites and the front tilemap are drawn one over
the other on the cleared bitmap (R110, R111). -/
theorem renderFrame_ok_iff {s : State} {scr : Screen} {f : Frame} :
    renderFrame s scr = .ok f ↔
      ∃ f1 f2, drawMap s (backMap scr) clearedFrame = .ok f1 ∧
        drawSprites s.cfg s.sprite (spriteXoff scr) f1 = .ok f2 ∧
        drawMap s (frontMap scr) f2 = .ok f := by
  unfold renderFrame
  cases drawMap s (backMap scr) clearedFrame with
  | error h => simp
  | ok f1 => cases h2 : drawSprites s.cfg s.sprite (spriteXoff scr) f1 <;> simp [h2]

theorem exec_refresh_next_iff {s t : State} {scr : Screen} :
    exec (refreshInstr scr) s = .next t ↔
      ∃ f, renderFrame s scr = .ok f ∧ t = (s.setFb scr f).reply none := by
  rw [exec_refresh, finish_next_iff]
  constructor
  · exact refreshRun_ok
  · rintro ⟨f, hf, rfl⟩
    simp only [refreshRun, hf]

/-! ## The picture -/

/-- The Z-order picture is its three layers over black (R113). -/
theorem pictureAt_eq_overlay (s : State) (scr : Screen) (x y : Nat) :
    pictureAt s scr x y =
      overlay (opaquePen (tileSample s (frontMap scr) x y))
        (overlay (topSprite s scr x y)
          (overlay (opaquePen (tileSample s (backMap scr) x y)) .black)) := by
  unfold pictureAt
  cases opaquePen (tileSample s (frontMap scr) x y) with
  | some p => rfl
  | none =>
    cases topSprite s scr x y with
    | some p => rfl
    | none => cases opaquePen (tileSample s (backMap scr) x y) <;> rfl

theorem overlay_ne_undef {under : Pixel} (p : Option Pen) (h : under ≠ .undef) :
    overlay p under ≠ .undef := by
  cases p with
  | none => exact h
  | some p => exact Pixel.noConfusion

theorem pictureAt_ne_undef (s : State) (scr : Screen) (x y : Nat) :
    pictureAt s scr x y ≠ .undef := by
  rw [pictureAt_eq_overlay]
  exact overlay_ne_undef _ (overlay_ne_undef _ (overlay_ne_undef _ Pixel.noConfusion))

/-- A rendered frame is the Z-order picture: each layer lies over what was drawn before it. -/
theorem renderFrame_pixel {s : State} {scr : Screen} {f : Frame} (h : renderFrame s scr = .ok f)
    (x y : Nat) : frameAt f x y = pictureAt s scr x y := by
  obtain ⟨f1, f2, hback, hsprites, hfront⟩ := renderFrame_ok_iff.1 h
  rw [pictureAt_eq_overlay, drawMap_pixel hfront, walkSprites_pixel hsprites, drawMap_pixel hback,
    frameAt_cleared]
  rfl

theorem exec_refresh_pixel {s t : State} {scr : Screen} (h : exec (refreshInstr scr) s = .next t)
    (x y : Nat) : frameAt (t.fb scr) x y = pictureAt s scr x y := by
  obtain ⟨f, hf, rfl⟩ := exec_refresh_next_iff.1 h
  rw [State.reply_fb, State.setFb_fb_self]
  exact renderFrame_pixel hf x y

/-- Settles O34: the bitmap a completed refresh leaves is the rendered frame. -/
theorem refreshShowsTheLayeredPicture : Obligations.RefreshShowsTheLayeredPicture :=
  fun _ _ _ x y h _ _ => exec_refresh_pixel h x y

/-- Settles O39: every pixel of the picture is a pen or black. -/
theorem clearedScreenHasNoUndefPixel : Obligations.ClearedScreenHasNoUndefPixel :=
  ⟨frameAt_cleared,
    fun s _ scr x y h => by
      rw [exec_refresh_pixel h]
      exact pictureAt_ne_undef s scr x y,
    fun _ _ => rfl⟩

/-! ## Completion -/

/-- A frame is rendered where every pixel it has to decode decodes: each layer completes by itself. -/
theorem renderFrame_completes {s : State} {scr : Screen} (h : pictureDecodes s scr) :
    ∃ f, renderFrame s scr = .ok f := by
  obtain ⟨f1, hback⟩ := drawMap_completes (fun X Y hX hY => (h X Y hX hY).1) clearedFrame
  obtain ⟨f2, hsprites⟩ := walkSprites_completes (scr := scr) (n := spriteWords / 2 - 1)
    (fun k hk X Y hX hY => (h X Y hX hY).2.2 (k + 1) (mem_drawnSlots.2 ⟨Nat.succ_pos k, hk⟩)) f1
  obtain ⟨f, hfront⟩ := drawMap_completes (fun X Y hX hY => (h X Y hX hY).2.1) f2
  exact ⟨f, renderFrame_ok_iff.2 ⟨f1, f2, hback, hsprites, hfront⟩⟩

/-- Settles O35: a rendered frame is all a refresh needs to complete. -/
theorem refreshCompletesWhereAllDecodes : Obligations.RefreshCompletesWhereAllDecodes := by
  intro s scr h
  obtain ⟨f, hf⟩ := renderFrame_completes h
  exact ⟨f, exec_refresh_next_iff.2 ⟨f, hf, rfl⟩⟩

/-! ## Refreshing again -/

/-- A refresh writes nothing it reads (R112). -/
theorem sameRenderInputs_refreshed (s : State) (scr : Screen) (f : Frame) :
    sameRenderInputs ((s.setFb scr f).reply none) s scr := by
  cases scr <;> exact ⟨rfl, fun _ _ => ⟨fun _ _ => rfl, rfl, rfl⟩, fun _ _ _ => rfl⟩

theorem setFb_refreshed (s : State) (scr : Screen) (f : Frame) :
    (((s.setFb scr f).reply none).setFb scr f).reply none = (s.setFb scr f).reply none := by
  cases scr <;> rfl

/-- Settles O37: the refreshed state renders the same frame, and putting it there again changes nothing. -/
theorem refreshTwiceIsRefreshOnce : Obligations.RefreshTwiceIsRefreshOnce := by
  intro s t scr h
  obtain ⟨f, hf, rfl⟩ := exec_refresh_next_iff.1 h
  refine exec_refresh_next_iff.2 ⟨f, ?_, (setFb_refreshed s scr f).symm⟩
  rw [renderFrame_congr (sameRenderInputs_refreshed s scr f)]
  exact hf

/-! ## The border -/

/-- Where the clip test fails a tilemap has no candidate (R100). -/
theorem tileSample_clipped {s : State} {x y : Nat} (h : tileInside s.cfg x y ≠ true)
    (t : BitVec 2) : tileSample s t x y = .ok none := by
  rcases tileSample_cases s t x y with ⟨_, _, _, _, _, _, _, _, hi⟩ | ⟨_, hnone⟩
  · exact absurd hi h
  · exact hnone

/-- The exclusive clip test fails in the outermost rows and columns (R100). -/
theorem tileInside_border {c : Config} (hc : c.tileClipExclusive = true) {x y : Nat}
    (h : x = 0 ∨ x + 1 = c.screenW ∨ y = 0 ∨ y + 1 = c.screenH) : tileInside c x y ≠ true := by
  rw [tileInside, if_pos hc, Ne, insideExclusive_iff]
  omega

/-- Settles O40: on the border both tilemaps are clipped away, which leaves the sprites over black. -/
theorem exclusiveClipKeepsTilesOffTheBorder : Obligations.ExclusiveClipKeepsTilesOffTheBorder := by
  intro s t scr x y hexclusive h _ _ hborder
  have hclip := tileInside_border hexclusive hborder
  rw [exec_refresh_pixel h, pictureAt_eq_overlay, tileSample_clipped hclip, tileSample_clipped hclip]
  cases topSprite s scr x y <;> rfl

/-! ## Skipped squares -/

/-- A square wholly outside the clip rectangle draws nothing and stops nowhere: each of its pixels fails
the clip test (R102). -/
theorem raster_drawAt_outside {c : Config} {inside : Int → Int → Bool} (hin : KeepsOnScreen c inside)
    (cand : Nat → Nat → Except Stop (Option Pen)) {x y : Int} {n : Nat}
    (h : squareOutside c x y n = true) (f : Frame) : raster n (drawAt inside cand x y) f = .ok f := by
  refine raster_idle fun px py hx hy => ?_
  have hclip : ¬inside (x + px) (y + py) = true :=
    fun hi => squareOutside_offScreen h hx hy (hin _ _ hi)
  rw [drawAt, if_neg hclip]

theorem drawCell_eq_raster (c : Config) (d : Word) (x y : Int) (size : Nat) (f : Frame) :
    drawCell c d x y size f = raster size (drawTilePixel c d x y size) f := by
  unfold drawCell
  split
  · next hout =>
    rw [drawTilePixel_eq, raster_drawAt_outside (tileInside_keeps c) _ hout]
  · rfl

theorem drawSprite_eq_raster (c : Config) (w0 w1 : Word) (xoff : Int) (f : Frame) :
    drawSprite c w0 w1 xoff f =
      raster spriteSize (drawSpritePixel c (decodeSprite c w0 w1)
        ((decodeSprite c w0 w1).xs - xoff - spriteBias)
        ((decodeSprite c w0 w1).ys - spriteBias)) f := by
  unfold drawSprite
  simp only
  split
  · next hout =>
    rw [drawSpritePixel_eq, raster_drawAt_outside (spriteInside_keeps c) _ hout]
  · rfl

/-- Settles O42: the loop over a skipped square is idle. -/
theorem wholeRejectionIsUnobservable : Obligations.WholeRejectionIsUnobservable :=
  fun c f => ⟨fun d x y size => drawCell_eq_raster c d x y size f,
    fun w0 w1 xoff => drawSprite_eq_raster c w0 w1 xoff f⟩

/-! ## Scrolled out of sight -/

/-- A cell of the grid ends at or before the screen's edge once the scroll is the grid's extent (R105). -/
theorem gridCell_end_le {n i : Nat} {scroll : Int} (hi : i < gridSize)
    (h : ((64 * n : Nat) : Int) ≤ scroll) : ((i * n : Nat) : Int) - scroll + n ≤ 0 := by
  have hn : (i + 1) * n ≤ 64 * n := Nat.mul_le_mul_right n hi
  rw [Nat.succ_mul] at hn
  omega

/-- Settles O41: every cell of the grid is skipped. -/
theorem scrollPastTheExtentDrawsNothing : Obligations.ScrollPastTheExtentDrawsNothing := by
  intro c bank treg f hscroll
  refine raster_idle fun col row hcol hrow => ?_
  have hout : rejected c ((col * cellSize c treg : Nat) - scrollX c treg)
      ((row * cellSize c treg : Nat) - scrollY c treg) (cellSize c treg) = true := by
    simp only [rejected, squareOutside, Bool.or_eq_true, decide_eq_true_eq]
    rcases hscroll with hx | hy
    · have := gridCell_end_le hcol hx
      omega
    · have := gridCell_end_le hrow hy
      omega
  simp only [drawGridCell, drawCell, hout, if_true]

/-! ## A uniform tilemap -/

theorem decodes_iff {r : Except Stop (Option Pen)} : decodes r = true ↔ ∃ cand, r = .ok cand := by
  cases r <;> simp [decodes]

/-- The sample of an unscrolled bank of one descriptor in 8 by 8 cells: its cell's pixel, repeated over
the 512 by 512 surface (R104, R115). -/
theorem tileSample_uniform {s : State} {t : BitVec 2} {d : Word}
    (hsize : cellSize s.cfg (quad s.treg t) = 8) (hsx : scrollX s.cfg (quad s.treg t) = 0)
    (hsy : scrollY s.cfg (quad s.treg t) = 0)
    (hbank : ∀ i, i < 4096 → storeWord (quad s.tile t) i = d) (x y : Nat) :
    tileSample s t x y =
      if x < 512 ∧ y < 512 ∧ tileInside s.cfg x y = true then tilePixel s.cfg d 8 (x % 8) (y % 8)
      else .ok none := by
  rcases tileSample_cases s t x y with
    ⟨col, row, px, py, ⟨hcol, hrow⟩, ⟨hpx, hpy⟩, hx, hy, hi⟩ | ⟨hout, hnone⟩
  · rw [(tileSample_at hcol hrow hpx hpy hx hy hi).1, hbank _ (by unfold gridSize at *; omega), hsize]
    rw [hsize] at hpx hpy hx hy
    rw [hsx] at hx
    rw [hsy] at hy
    unfold gridSize at hcol hrow
    rw [if_pos ⟨by omega, by omega, hi⟩, show x % 8 = px by omega, show y % 8 = py by omega]
  · rw [hnone, if_neg]
    rintro ⟨hx, hy, hi⟩
    refine hout ⟨hi, mem_positions.2 ?_⟩
    simp only [hsize, hsx, hsy, gridSize]
    omega

/-- Settles O43: the sample at each position, over what was there. -/
theorem uniformTilemapTilesTheSurface : Obligations.UniformTilemapTilesTheSurface := by
  intro s t d f f' x y hsize hsx hsy hbank h
  have hsample := tileSample_uniform hsize hsx hsy hbank x y
  have hpixel := drawMap_pixel h x y
  constructor
  · intro hon
    rw [if_pos hon] at hsample
    obtain ⟨cand, hcand⟩ := decodes_iff.1 (drawMap_decodes h x y)
    refine ⟨cand, hsample.symm.trans hcand, ?_⟩
    rw [hpixel, hcand]
    cases cand <;> rfl
  · intro hoff
    rw [if_neg hoff] at hsample
    rw [hpixel, hsample]
    rfl

end Sys2Proof.Machine
end

section
/-! PROOFS. The displayed colour (43_palette_output.md): the components of a palette word, the contrast
function, and what a pixel shows, which a palette write changes at once. -/

namespace Sys2Proof.Machine

/-! ## Palette words -/

/-- Settles O44: the definition's fields, and the source's example run on them. -/
theorem paletteWordUnpacksInItsOrder : Obligations.PaletteWordUnpacksInItsOrder :=
  ⟨fun _ => rfl, by decide⟩

/-! ## The contrast function -/

theorem scaleComponent_floor16 {c : Config} (h : c.contrastScale = .floor16) (x : Byte) (n : Fin 17) :
    scaleComponent c x n = scaleFloor x n.val := by
  rw [scaleComponent, h]

theorem scaleComponent_table {c : Config} {rows : List Byte} (h : c.contrastScale = .table rows)
    (x : Byte) (n : Fin 17) :
    scaleComponent c x n = if n.val = 16 then x else rows.getD (n.val * 256 + x.toNat) 0 := by
  rw [scaleComponent, h]

/-- A numerator of at most 16 keeps the scaled component in its byte. -/
theorem scaleFloor_toNat (x : Byte) {n : Nat} (hn : n ≤ 16) :
    (scaleFloor x n).toNat = x.toNat * n / 16 := by
  have hprod : x.toNat * n ≤ x.toNat * 16 := Nat.mul_le_mul_left _ hn
  rw [scaleFloor, BitVec.toNat_ofNat, Nat.mod_eq_of_lt]
  omega

theorem scaleFloor_full (x : Byte) : scaleFloor x 16 = x := by
  apply BitVec.eq_of_toNat_eq
  rw [scaleFloor_toNat x le_rfl, Nat.mul_div_cancel _ (by decide)]

/-- Full contrast leaves a component as it is, by either form of the contrast function. -/
theorem scaleComponent_full (c : Config) (x : Byte) : scaleComponent c x 16 = x := by
  cases h : c.contrastScale with
  | floor16    => exact (scaleComponent_floor16 h x 16).trans (scaleFloor_full x)
  | table rows => exact (scaleComponent_table h x 16).trans (if_pos rfl)

/-- Settles O48: the identity at 16 by cases of the contrast function, the default by its bound. -/
theorem contrastScaleIsExact : Obligations.ContrastScaleIsExact := by
  refine ⟨scaleComponent_full, fun c c' x n hscale => ?_, fun c x n hfloor => ?_⟩
  · rw [scaleComponent, scaleComponent, hscale]
  · rw [scaleComponent_floor16 hfloor, scaleFloor_toNat x n.is_le]

/-! ## What a pixel shows -/

/-- The contrast bank of a palette entry is its half of the palette. -/
theorem paletteBank_eq_half {p : Nat} (hp : p < paletteEntries) :
    paletteBank p = if p < 0x800 then 0 else 1 := by
  unfold paletteEntries at hp
  unfold paletteBank paletteSplit
  split
  case isTrue hlow => rw [Nat.div_eq_of_lt hlow]; rfl
  case isFalse hhigh => rw [show p / 0x800 = 1 by omega]; rfl

/-- The colour shown is that of what the bitmap holds, under the state at the time (R123). -/
theorem displayColour_of_pixel {s : State} {scr : Screen} {x y : Nat} {px : Pixel}
    (h : frameAt (s.fb scr) x y = px) (k : Nat) : displayColour s scr x y k = showPixel s k px := by
  rw [displayColour, h]

/-- A pen past the palette shows a free colour (R124; log 5). -/
theorem showPixel_pen_noEntry (s : State) (k : Nat) {p : Pen} (hp : paletteEntries ≤ p.toNat) :
    showPixel s k (.pen p) = Config.freeColour k :=
  if_pos hp

/-- A pen of the palette shows its entry's colour under the contrast of its half (R122). -/
theorem showPixel_pen_entry (s : State) (k : Nat) {p : Pen} (hp : p.toNat < paletteEntries) :
    showPixel s k (.pen p) =
      scaleRgb s.cfg (colourOf s p.toNat) (pair s.contrast (if p.toNat < 0x800 then 0 else 1)) := by
  rw [← paletteBank_eq_half hp]
  exact if_neg (Nat.not_le.2 hp)

/-- Settles O47: what each kind of pixel shows, of the one the bitmap holds. -/
theorem displayedColourFollowsThePalette : Obligations.DisplayedColourFollowsThePalette :=
  fun s _ _ _ k =>
    ⟨fun h => displayColour_of_pixel h k, fun h => displayColour_of_pixel h k, fun _ h =>
      ⟨fun hp => (displayColour_of_pixel h k).trans (showPixel_pen_noEntry s k hp),
        fun hp => (displayColour_of_pixel h k).trans (showPixel_pen_entry s k hp)⟩⟩

/-- Settles O46: the write leaves the bitmap, the configuration and the contrast and makes its entry's
colour that of the merged word (O45), and the pixel shows that colour now. -/
theorem paletteWriteShowsAtOnce : Obligations.PaletteWriteShowsAtOnce := by
  intro s t idx data be scr x y k hpen ht
  obtain ⟨t', ht', -, hcolour, -, hcontrast, -, hframe⟩ := paletteWriteSetsOneColour s idx data be
  obtain rfl : t' = t := Host.Outcome.next.inj (ht'.symm.trans ht)
  have hcfg : t'.cfg = s.cfg := by rw [hframe]
  have hfb : t'.fb scr = s.fb scr := by rw [hframe]; cases scr <;> rfl
  have hidx : (idx.setWidth 16).toNat = idx.toNat := BitVec.toNat_setWidth_of_le (by decide)
  have hentry : (idx.setWidth 16).toNat < paletteEntries := hidx ▸ idx.isLt
  rw [← hfb] at hpen
  rw [displayColour_of_pixel hpen, showPixel_pen_entry t' k hentry, hidx, hcolour, hcfg, hcontrast]

end Sys2Proof.Machine
end

section
/-! PROOFS. A blitter command is read from its own bytes (48_blitter_optional.md R133). -/

namespace Sys2Proof

/-- A stream is too short at the byte after its last (R133). -/
theorem decodeCmd_missing {bs : List Byte} {k : Nat} (h : decodeCmd bs = .error (.streamShort k)) :
    k = bs.length := by
  unfold decodeCmd at h
  split at h
  case h_1 => cases h; rfl
  case h_2 c0 rest =>
    split at h
    · split at h <;> cases h
      rfl
    · split at h
      · split at h <;> cases h <;> rfl
      · split at h <;> cases h

/-- Whatever follows the bytes of a command changes nothing (R133). -/
theorem decodeCmd_append {bs : List Byte} {cmd : BltCmd} (h : decodeCmd bs = .ok cmd)
    (more : List Byte) : decodeCmd (bs ++ more) = .ok cmd := by
  cases bs with
  | nil => cases h
  | cons c0 rest =>
    rw [List.cons_append]
    unfold decodeCmd at h ⊢
    by_cases h0 : c0 = 0
    · simp only [if_pos h0] at h ⊢
      cases rest with
      | nil => cases h
      | cons amt rest => exact h
    · simp only [if_neg h0] at h ⊢
      by_cases h2 : c0 = 2
      · simp only [if_pos h2] at h ⊢
        match rest with
        | [] => cases h
        | [_] => cases h
        | [_, _] => cases h
        | _ :: _ :: _ :: _ => exact h
      · simp only [if_neg h2] at h ⊢
        exact h

/-- Settles O6: both readings of the decoder, by the opcode byte and the bytes after it. -/
theorem commandIsReadFromItsOwnBytes : Obligations.CommandIsReadFromItsOwnBytes :=
  ⟨fun _ more _ h => decodeCmd_append h more, fun _ _ h => decodeCmd_missing h⟩

end Sys2Proof
end

section
/-! PROOFS. The blitter's register window and its completion (48_blitter_optional.md R126, R131, R140). -/

namespace Sys2Proof.Machine

/-- A pending completion is delivered and no longer pending (R140). -/
theorem exec_blitDone_pending {s : State} (hp : s.cfg.blitterPresent = true)
    (hb : s.bltPending = true) :
    exec .blitDone s = .next { s with bltPending := false, out := some .irqBlit } :=
  if_pos (by rw [hp, hb]; rfl)

/-- With no completion pending BLIT_DONE delivers none (R140). -/
theorem exec_blitDone_idle {s : State} (hb : s.bltPending = false) :
    exec .blitDone s = .next { s with out := none } :=
  if_neg (by simp [hb])

/-- Settles O51: pending or not. -/
theorem blitDoneDeliversOnePendingCompletion : Obligations.BlitDoneDeliversOnePendingCompletion :=
  fun _ hp => ⟨exec_blitDone_pending hp, exec_blitDone_idle⟩

/-- Settles O50: both instructions answer with no effect where the annex is absent. -/
theorem absentBlitterDoesNothing : Obligations.AbsentBlitterDoesNothing :=
  fun _ hp => ⟨fun off data be => finish_next_iff.2 (bltregWrRun_absent hp off data be),
    execBlitDone_absent hp⟩

/-- Settles O52: the register word is a masked write, and no blit starts. -/
theorem blitterRegisterWriteMergesLanes : Obligations.BlitterRegisterWriteMergesLanes :=
  fun s off data be hp hoff => ⟨storeMerge s.bltReg off.toNat data be, lanesMerged_storeMerge _ _ _ _,
    finish_next_iff.2 (bltregWrRun_quiet hp hoff data be)⟩

end Sys2Proof.Machine
end

section
/-! PROOFS. The blitter's commands at the cursor of a running blit (48_blitter_optional.md R134 to R139):
one half-word, the loops of COPY and FILL, and the commands that write nothing. -/

namespace Sys2Proof.Machine

/-! ## One half-word -/

/-- The lanes of a word made of two halves. -/
theorem laneOfWord_halves (hi lo : Half) {k : Nat} (hk : k < 4) :
    laneOfWord (hi ++ lo) k =
      if k < 2 then lo.extractLsb' (8 * k) 8 else hi.extractLsb' (8 * k - 16) 8 := by
  split
  · exact BitVec.extractLsb'_append_eq_of_add_le (by omega)
  · exact BitVec.extractLsb'_append_eq_of_le (by omega)

/-- The two halves of a word make it again. -/
theorem wordHalves_append (w : Word) : w.extractLsb' 16 16 ++ w.extractLsb' 0 16 = w :=
  (BitVec.extractLsb'_append_extractLsb'_eq_extractLsb' rfl).trans BitVec.extractLsb'_eq_self

/-- A half-word merged into the upper two lanes replaces the upper half. -/
theorem merge_upperLanes (hi lo h : Half) : merge (hi ++ lo) (h ++ h) 0b1100 = h ++ lo := by
  refine word_ext_lanes fun k hk => ?_
  simp only [laneOfWord_merge _ _ _ _ hk, laneOfWord_halves _ _ hk]
  interval_cases k <;> rfl

/-- A half-word merged into the lower two lanes replaces the lower half. -/
theorem merge_lowerLanes (hi lo h : Half) : merge (hi ++ lo) (h ++ h) 0b0011 = hi ++ h := by
  refine word_ext_lanes fun k hk => ?_
  simp only [laneOfWord_merge _ _ _ _ hk, laneOfWord_halves _ _ hk]
  interval_cases k <;> rfl

/-- The flag selects the upper half under one polarity each way (R134). -/
theorem halfLanes_eq (c : Config) (odd : Bool) : halfLanes c odd =
    if (c.bltHalfPolarity = .upperOn0 ∧ odd = false) ∨
      (c.bltHalfPolarity = .upperOn1 ∧ odd = true) then 0b1100 else 0b0011 := by
  unfold halfLanes
  cases c.bltHalfPolarity <;> cases odd <;> rfl

/-- A half-word written into the half the flag selects keeps the other half (R134). -/
theorem merge_halfLanes (c : Config) (odd : Bool) (old : Word) (h : Half) :
    merge old (h ++ h) (halfLanes c odd) =
      if (c.bltHalfPolarity = .upperOn0 ∧ odd = false) ∨
        (c.bltHalfPolarity = .upperOn1 ∧ odd = true) then h ++ old.extractLsb' 0 16
      else old.extractLsb' 16 16 ++ h := by
  conv_lhs => rw [← wordHalves_append old, halfLanes_eq]
  split
  · exact merge_upperLanes _ _ h
  · exact merge_lowerLanes _ _ h

/-- Settles O53: one masked write of the word at the cursor, or the fault. -/
theorem halfWriteChangesOneHalf : Obligations.HalfWriteChangesOneHalf := by
  intro c h bank cur idx
  rcases writeHalf_cases c h bank cur with ⟨hin, hw⟩ | ⟨hout, hw⟩
  · refine ⟨fun hle => absurd hin (Nat.not_lt.2 hle), fun _ => ⟨_, _, hw, rfl, ?_, fun i hi => ?_, ?_⟩⟩
    · exact BitVec.toNat_add _ _
    · exact storeWord_merge_ne _ _ _ hi
    · rw [storeWord_merge_self, merge_halfLanes]
  · exact ⟨fun _ => hw, fun hlt => absurd hlt (Nat.not_lt.2 hout)⟩

/-! ## Commands that write nothing -/

/-- Settles O54: each command at its cursor, and none where no blit runs. -/
theorem cursorCommandsComplete : Obligations.CursorCommandsComplete := by
  refine ⟨fun s cur hc => ⟨?_, ?_, fun c0 => ?_⟩, fun s cmd hc => ?_⟩
  · exact finish_next_iff.2 (atCursor_some _ hc)
  · exact finish_next_iff.2 (atCursor_some _ hc)
  · exact finish_next_iff.2 (atCursor_some _ hc)
  · rw [exec_cmd]
    exact finish_next_iff.2 (runCmd_idle cmd hc)

/-! ## COPY and FILL -/

/-- The amount `amt` stands for `n` half-words, in the unit the configuration gives (R135, R137). -/
def AmountIs (c : Config) (amt : Byte) (n : Nat) : Prop :=
  c.bltAmountUnit = .bytes ∧ amt.toNat = 2 * n ∨ c.bltAmountUnit = .halfwords ∧ amt.toNat = n

theorem halfCount_amount {c : Config} {amt : Byte} {n : Nat} (h : AmountIs c amt n) :
    halfCount c amt = .ok n := by
  unfold halfCount
  rcases h with ⟨hu, hn⟩ | ⟨hu, hn⟩
  · simp [hu, hn]
  · simp [hu, hn]

theorem halfCount_odd {c : Config} {amt : Byte} (hu : c.bltAmountUnit = .bytes)
    (hodd : amt.toNat % 2 = 1) : halfCount c amt = .error (.refusal .bltOddAmount) := by
  simp [halfCount, hu, hodd]

section
variable {s : State} {cur : BltCursor} {amt : Byte}
  {loop : Nat → BltCursor → Run (Store × BltCursor)} {src : Nat → BltCursor → Nat}

/-- A writing command whose amount counts no half-words is refused before any write. -/
theorem writeCommand_refused (hc : s.cursor = some cur) {e : Stop}
    (hn : halfCount s.cfg amt = .error e) : writeCommand s amt loop src = .error ⟨e, s⟩ := by
  rw [writeCommand, atCursor_some _ hc, hn]

/-- A writing command whose loop completes leaves the loop's bank and column, and its source pointer. -/
theorem writeCommand_ok (hc : s.cursor = some cur) {n : Nat} (hn : halfCount s.cfg amt = .ok n)
    {m : Store} {cur' : BltCursor} (hl : loop n cur = .ok (m, cur')) :
    writeCommand s amt loop src =
      .ok { s with tile := setQuad s.tile cur.tm m, cursor := some { cur' with src := src n cur },
                   out := none } := by
  rw [writeCommand, atCursor_some _ hc, hn]
  simp only [hl]
  rfl

end

/-- The words of a line that ends inside the bank are inside the bank. -/
theorem lineWord_inside {cur : BltCursor} (h : cur.lineBase + 127 < 0x8000) (k : Nat) :
    lineWord cur k < tileBankWords := by
  unfold lineWord tileBankWords
  omega

/-- The writes 128 columns apart go to one word. -/
theorem lineWord_wraps (cur : BltCursor) (j q : Nat) : lineWord cur (j + 128 * q) = lineWord cur j := by
  unfold lineWord
  omega

/-- The loop of COPY completes where its payload is in the ROM and its line inside the bank (R135). -/
theorem copyHalves_ok {s : State} {cur : BltCursor} {n : Nat}
    (hrom : cur.src + 2 + 2 * n ≤ s.cfg.blitRom.length) (hline : cur.lineBase + 127 < 0x8000) :
    copyHalves s.cfg n (cur.src + 2) (quad s.tile cur.tm) cur =
      .ok (halvesAfter s.cfg cur (payloadHalf s cur) (quad s.tile cur.tm) n,
        { cur with col := cur.col + BitVec.ofNat 7 n }) := by
  rw [copyHalves_after (Nat.le_refl n) (fun k _ => lineWord_inside hline k) hrom, Nat.sub_self]
  rfl

/-- The loop of FILL completes where its line is inside the bank (R137). -/
theorem fillHalves_ok {s : State} {cur : BltCursor} (v : Half) (n : Nat)
    (hline : cur.lineBase + 127 < 0x8000) :
    fillHalves s.cfg v n (quad s.tile cur.tm) cur =
      .ok (halvesAfter s.cfg cur (fun _ => v) (quad s.tile cur.tm) n,
        { cur with col := cur.col + BitVec.ofNat 7 n }) := by
  rw [fillHalves_after (Nat.le_refl n) fun k _ => lineWord_inside hline k, Nat.sub_self]
  rfl

/-- Settles O55: the loop of COPY leaves its half-words written. -/
theorem copyWritesItsPayload : Obligations.CopyWritesItsPayload := by
  intro s cur amt n hc hn hrom hline
  obtain ⟨hkept, hwritten⟩ := halvesAfter_written s cur (payloadHalf s cur) n
  have hrun : copyRun amt s = _ :=
    writeCommand_ok hc (halfCount_amount hn) (copyHalves_ok hrom hline)
  exact ⟨_, finish_next_iff.2 hrun, hkept, hwritten⟩

/-- Settles O56: every write to a word of the line is of one value, so the last one is that of any. -/
theorem fillWritesItsValue : Obligations.FillWritesItsValue := by
  intro s cur amt v n hc hn hline
  obtain ⟨hkept, hwritten⟩ := halvesAfter_written s cur (fun _ => v) n
  have hrun : fillRun amt v s = _ :=
    writeCommand_ok hc (halfCount_amount hn) (fillHalves_ok v n hline)
  refine ⟨_, finish_next_iff.2 hrun, hkept, fun j hj => ?_⟩
  rw [← lineWord_wraps cur j ((n - 1 - j) / 128)]
  exact hwritten _ (by omega) (by omega)

/-- Settles O57: the amount is refused before the loop of either command. -/
theorem oddAmountIsRefused : Obligations.OddAmountIsRefused := by
  intro s cur amt hc hu hodd
  have hn := halfCount_odd hu hodd
  exact ⟨congrArg finish (writeCommand_refused hc hn),
    fun _ => congrArg finish (writeCommand_refused hc hn)⟩

end Sys2Proof.Machine
end

section
/-! PROOFS. A whole blit (48_blitter_optional.md R131, R132): its start is tied to its commands run one by
one, it ends within its bound, and the source's example (R142) runs. -/

namespace Sys2Proof.Machine

/-! ## The commands of a blit, one by one -/

/-- The first command of a blit whose next `n + 1` commands complete is read at its cursor, and the others
follow it (R132). -/
theorem afterCommands_succ {n : Nat} {s t : State} (h : afterCommands (n + 1) s = some t) :
    ∃ cur cmd u, s.cursor = some cur ∧ decodeCmd (s.cfg.blitRom.drop cur.src) = .ok cmd ∧
      runCmd cmd s = .ok u ∧ afterCommands n u = some t := by
  unfold afterCommands at h
  split at h
  case h_1 => cases h
  case h_2 cur hc =>
    split at h
    case h_1 => cases h
    case h_2 cmd hd =>
      split at h
      case h_1 u hx => exact ⟨cur, cmd, u, hc, hd, finish_next_iff.1 (exec_cmd cmd s ▸ hx), h⟩
      case h_2 => cases h
      case h_3 => cases h

/-- A command that completes at its cursor is followed by those after it (R132). -/
theorem afterCommands_of_exec {n : Nat} {s t : State} {cur : BltCursor} {cmd : BltCmd}
    (hc : s.cursor = some cur) (hd : decodeCmd (s.cfg.blitRom.drop cur.src) = .ok cmd)
    (hx : exec cmd.instr s = .next t) : afterCommands (n + 1) s = afterCommands n t := by
  rw [afterCommands, hc]
  simp only [hd, hx]

/-- The commands of a blit have no reply. -/
theorem afterCommands_out {n : Nat} {s t : State} (hs : s.out = none)
    (h : afterCommands n s = some t) : t.out = none := by
  induction n generalizing s with
  | zero => cases h; exact hs
  | succ n ih =>
    obtain ⟨cur, cmd, u, -, -, hr, hu⟩ := afterCommands_succ h
    exact ih (runCmd_out hr) hu

/-! ## The bound of a blit -/

/-- A command that completes leaves the blit ended or further on in the same stream (R132). -/
theorem runCmd_advances {cmd : BltCmd} {s t : State} {cur : BltCursor} (hc : s.cursor = some cur)
    (h : runCmd cmd s = .ok t) :
    t.cfg = s.cfg ∧ ∀ cur', t.cursor = some cur' → cur.src < cur'.src := by
  obtain ⟨hleaves, hmoved⟩ := runCmd_cases (P := fun _ => True) (fun _ _ _ _ _ _ => trivial) cmd hc
  rw [h] at hleaves
  have hfields : BlitFields s t := hleaves.fields
  refine ⟨by rw [hfields], fun cur' hc' => ?_⟩
  rcases hmoved t h with ⟨hended, -⟩ | ⟨-, cur'', hc'', -, hlt⟩
  · cases hended.symm.trans hc'
  · cases hc''.symm.trans hc'
    exact hlt

/-- One command more than a bound that reaches the end of the ROM changes nothing (R132; log 18). -/
theorem runBlit_succ {n : Nat} {s : State}
    (hn : ∀ cur, s.cursor = some cur → s.cfg.blitRom.length ≤ cur.src + n) :
    runBlit (n + 1) s = runBlit n s := by
  induction n generalizing s with
  | zero =>
    cases hc : s.cursor with
    | none => rw [runBlit_done hc, runBlit_done hc]
    | some cur =>
      have hread : fetchCmd s.cfg cur.src = .error (.fault (.romOutOfRange .blit cur.src)) := by
        rw [fetchCmd, List.drop_eq_nil_of_le (by simpa using hn cur hc)]
        rfl
      rw [runBlit_step hc, hread, runBlit, hc]
  | succ n ih =>
    cases hc : s.cursor with
    | none => rw [runBlit_done hc, runBlit_done hc]
    | some cur =>
      rw [runBlit_step hc, runBlit_step hc]
      cases fetchCmd s.cfg cur.src with
      | error e => rfl
      | ok cmd =>
        cases hr : runCmd cmd s with
        | error h => simp only [hr]
        | ok t =>
          obtain ⟨hcfg, hsrc⟩ := runCmd_advances hc hr
          simp only [hr]
          refine ih fun cur' hc' => ?_
          have hbound := hn cur hc
          have hlt := hsrc cur' hc'
          rw [hcfg]
          omega

/-- Settles O59: from the ROM's length on, each bound gives what the one before gives. -/
theorem blitAlwaysEnds : Obligations.BlitAlwaysEnds := by
  intro s n hn
  induction n, hn using Nat.le_induction with
  | base => rfl
  | succ n hn ih => exact (runBlit_succ fun cur _ => by omega).trans ih

/-! ## A start -/

/-- A start completes just where its commands, run one by one from the registers' cursor, end (R131,
R132). -/
theorem exec_start_next_iff {s t : State} (hp : s.cfg.blitterPresent = true) (data : Word) (be : Lanes) :
    exec (.bltregWr s.cfg.bltRegLayout.start data be) s = .next t ↔
      ∃ n, afterCommands n
        { s with bltReg := storeMerge s.bltReg s.cfg.bltRegLayout.start.toNat data be
                 cursor := some (startCursor s.cfg
                   (storeMerge s.bltReg s.cfg.bltRegLayout.start.toNat data be))
                 out    := none } = some t ∧ t.cursor = none := by
  refine finish_next_iff.trans ?_
  rw [bltregWrRun_start hp]
  exact runBlit_ok_iff fun cur _ => by simp only; omega

/-- All a blit that completes leaves: its bank, a pending completion, no cursor, and a reply (R136). -/
theorem runBlit_leaves {n : Nat} {s t : State} {cur : BltCursor} (hc : s.cursor = some cur)
    (h : runBlit n s = .ok t) :
    ∃ m, t = { s with tile := setQuad s.tile cur.tm m, bltPending := true, cursor := none,
                      out := t.out } := by
  obtain ⟨hleaves, hdone⟩ := runBlit_cases (P := fun _ => True) (fun _ _ _ _ _ _ => trivial) n hc
  rw [h] at hleaves
  obtain ⟨hfields, m, htile, -⟩ := hleaves
  change BlitFields s t at hfields
  change t.tile = setQuad s.tile cur.tm m at htile
  obtain ⟨hidle, hpending⟩ := hdone t h
  rw [BlitFields, htile, hidle, hpending] at hfields
  exact ⟨m, hfields⟩

/-- Settles O58: the commands run one by one, and all a blit that completes leaves. -/
theorem blitWritesOnlyItsBank : Obligations.BlitWritesOnlyItsBank := by
  intro s data be hp
  refine ⟨_, lanesMerged_storeMerge _ _ _ _, fun t => ⟨exec_start_next_iff hp data be, fun ht => ?_⟩⟩
  obtain ⟨n, hn, -⟩ := (exec_start_next_iff hp data be).1 ht
  have hrun := (bltregWrRun_start hp).symm.trans (finish_next_iff.1 ht)
  obtain ⟨m, hm⟩ := runBlit_leaves rfl hrun
  rw [afterCommands_out rfl hn] at hm
  exact ⟨m, hm⟩

/-! ## The source's example -/

/-- A field of one bit is that bit of the word. -/
theorem field_one_eq_one (w : Word) (i : Nat) : decide (field w i 1 = 1) = w.getLsbD i := by
  have hbit : (field w i 1).getLsbD 0 = w.getLsbD i := by simp [field]
  rw [← hbit]
  generalize field w i 1 = b
  decide +revert

/-- A write to the default START leaves every field of the registers as it is (R129). -/
theorem bltField_startWrite (m : Store) (data : Word) (be : Lanes) {f : BltField} (n : Nat)
    (hf : f.word.toNat ≠ 5) : bltField (storeMerge m 5 data be) f n = bltField m f n :=
  congrArg (field · f.lo n) (storeWord_merge_ne m data be hf)

/-- The cursor of a start under the default layout (R129, R132). -/
theorem startCursor_default {s : State} (hl : s.cfg.bltRegLayout = defaultBltRegLayout) (data : Word)
    (be : Lanes) :
    startCursor s.cfg (storeMerge s.bltReg 5 data be) =
      { src      := (storeWord s.bltReg 0).toNat
        col0     := (storeWord s.bltReg 1).extractLsb' 0 7
        col      := (storeWord s.bltReg 1).extractLsb' 0 7
        lineBase := ((storeWord s.bltReg 2).extractLsb' 0 8).toNat * 128
        tm       := (storeWord s.bltReg 3).extractLsb' 0 2
        odd      := (storeWord s.bltReg 4).getLsbD 0 } := by
  have hsrc : bltField s.bltReg ⟨0, 0⟩ 32 = storeWord s.bltReg 0 := BitVec.extractLsb'_eq_self
  have hodd : decide (bltField s.bltReg ⟨4, 0⟩ 1 = 1) = (storeWord s.bltReg 4).getLsbD 0 :=
    field_one_eq_one _ 0
  unfold startCursor
  simp (disch := decide) only [hl, defaultBltRegLayout, bltField_startWrite, hsrc, hodd]
  rfl

/-- A blit of one half-word, from a stream of a COPY and an END (R135, R136). -/
theorem afterCommands_copy_end {s : State} {cur : BltCursor} {hi lo : Byte} {rest : List Byte}
    (hc : s.cursor = some cur) (hu : s.cfg.bltAmountUnit = .bytes)
    (hrom : s.cfg.blitRom.drop cur.src = [0x00, 0x02, hi, lo, 0x00, 0x00] ++ rest)
    (hline : cur.lineBase + 127 < 0x8000) :
    ∃ m, afterCommands 2 s = some { s with tile := setQuad s.tile cur.tm m, bltPending := true,
                                           cursor := none, out := none } ∧
      halvesWritten s cur 1 (fun _ => hi ++ lo) m := by
  have hlen := congrArg List.length hrom
  simp only [List.length_drop, List.length_append, List.length_cons] at hlen
  have hbyte : ∀ k, s.cfg.blitRom.getD (cur.src + k) 0 =
      ([0x00, 0x02, hi, lo, 0x00, 0x00] ++ rest).getD k 0 := fun k => by
    rw [← hrom, List.getD_eq_getElem?_getD, List.getD_eq_getElem?_getD, List.getElem?_drop]
  have hend : s.cfg.blitRom.drop (cur.src + 4) = [0x00, 0x00] ++ rest := by
    rw [← List.drop_drop, hrom]
    rfl
  obtain ⟨m, hcopy, hkept, hwritten⟩ := copyWritesItsPayload s cur 2 1 hc (.inl ⟨hu, rfl⟩) (by omega)
    hline
  refine ⟨m, ?_, hkept, fun k hk hj => ?_⟩
  · rw [afterCommands_of_exec (cmd := .copy 2) hc (by rw [hrom]; rfl) hcopy,
      afterCommands_of_exec (cmd := .endList) rfl (by rw [hend]; rfl)
        (finish_next_iff.2 (atCursor_some _ rfl))]
    rfl
  · obtain rfl : k = 0 := by omega
    rw [hwritten 0 hk hj, hbyte 2, hbyte 3]
    rfl

/-- A start whose stream is a COPY of one half-word and an END completes (R132, R142). -/
theorem exec_start_copy_end {s : State} {start : BitVec 3} {data : Word} {be : Lanes} {cur : BltCursor}
    {hi lo : Byte} {rest : List Byte} (hp : s.cfg.blitterPresent = true)
    (hs : s.cfg.bltRegLayout.start = start)
    (hcur : startCursor s.cfg (storeMerge s.bltReg start.toNat data be) = cur)
    (hu : s.cfg.bltAmountUnit = .bytes)
    (hrom : s.cfg.blitRom.drop cur.src = [0x00, 0x02, hi, lo, 0x00, 0x00] ++ rest)
    (hline : cur.lineBase + 127 < 0x8000) :
    ∃ m, exec (.bltregWr start data be) s = .next { s with
        tile       := setQuad s.tile cur.tm m
        bltReg     := storeMerge s.bltReg start.toNat data be
        bltPending := true
        cursor     := none
        out        := none } ∧
      halvesWritten s cur 1 (fun _ => hi ++ lo) m := by
  subst hs hcur
  obtain ⟨m, hrun, hwritten⟩ := afterCommands_copy_end (s := { s with
    bltReg := storeMerge s.bltReg s.cfg.bltRegLayout.start.toNat data be
    cursor := some (startCursor s.cfg (storeMerge s.bltReg s.cfg.bltRegLayout.start.toNat data be))
    out    := none }) rfl hu hrom hline
  exact ⟨m, (exec_start_next_iff hp data be).2 ⟨2, hrun, rfl⟩, hwritten⟩

/-- One half-word written at the cursor changes the word there and no other (R134). -/
theorem halvesWritten_one {s : State} {cur : BltCursor} {h : Nat → Half} {m : Store}
    (hw : halvesWritten s cur 1 h m) :
    (∀ i, i ≠ cur.lineBase + cur.col.toNat → storeWord m i = storeWord (quad s.tile cur.tm) i) ∧
      storeWord m (cur.lineBase + cur.col.toNat) =
        merge (storeWord (quad s.tile cur.tm) (cur.lineBase + cur.col.toNat)) (h 0 ++ h 0)
          (halfLanes s.cfg cur.odd) := by
  have hfirst : lineWord cur 0 = cur.lineBase + cur.col.toNat := by
    rw [lineWord, Nat.add_zero, Nat.mod_eq_of_lt cur.col.isLt]
  obtain ⟨hkept, hwritten⟩ := hw
  rw [← hfirst]
  exact ⟨fun i hi => hkept i fun k hk => Nat.lt_one_iff.1 hk ▸ hi,
    hwritten 0 Nat.one_pos (by decide)⟩

/-- Settles O60: the start runs the COPY and the END, and the completion pending after them is the only
one BLIT_DONE delivers. -/
theorem sourceBlitExample : Obligations.SourceBlitExample := by
  intro s rest data be hp hl hu hpol hrom col line tm old
  have hstart : s.cfg.bltRegLayout.start = 5 := by rw [hl]; rfl
  have hline : line * 128 + 127 < 0x8000 := by
    have hlt : line < 256 := BitVec.isLt _
    omega
  obtain ⟨m, hexec, hwritten⟩ :=
    exec_start_copy_end hp hstart (startCursor_default hl data be) hu hrom hline
  obtain ⟨hother, hmerged⟩ := halvesWritten_one hwritten
  rw [merge_halfLanes, hpol] at hmerged
  have hword : storeWord m (line * 128 + col) =
      if (storeWord s.bltReg 4).getLsbD 0 then old.extractLsb' 16 16 ++ (0xAABB#16)
      else (0xAABB#16) ++ old.extractLsb' 0 16 := by
    refine hmerged.trans ?_
    cases (storeWord s.bltReg 4).getLsbD 0 <;> rfl
  refine ⟨_, _, hexec, ?_, fun hzero h0 => ?_, fun b i hne => ?_, rfl, exec_blitDone_pending hp rfl, rfl,
    exec_blitDone_idle rfl⟩
  · exact (congrArg (storeWord · _) (quad_setQuad_self _ _ _)).trans hword
  · have hcol : col = 0 := congrArg (fun w : Word => (w.extractLsb' 0 7).toNat) (hzero 1 (by decide))
    have hline0 : line = 0 := congrArg (fun w : Word => (w.extractLsb' 0 8).toNat) (hzero 2 (by decide))
    have htm : tm = 0 := congrArg (fun w : Word => w.extractLsb' 0 2) (hzero 3 (by decide))
    have hold : old = 0x11223344 := by
      change storeWord (quad s.tile tm) (line * 128 + col) = _
      rw [htm, hline0, hcol]
      exact h0
    rw [hline0, hcol, hzero 4 (by decide), hold] at hword
    change storeWord (quad (setQuad s.tile tm m) 0) 0 = _
    rw [htm, quad_setQuad_self]
    exact hword
  · by_cases hb : b = tm
    · subst hb
      exact (congrArg (storeWord · i) (quad_setQuad_self _ _ _)).trans
        (hother i fun hi => hne ⟨rfl, hi⟩)
    · exact congrArg (storeWord · i) (quad_setQuad_ne _ _ hb)

end Sys2Proof.Machine
end

section
/-! PROOFS. A run that has stopped stays stopped (60_exceptions.md R144, R145, R159): no step that goes on
touches a mark, and the mark a stopped step leaves is the stop of every later step (log 6). -/

namespace Sys2Proof.Machine

/-! ## Steps that go on -/

/-- An instruction that is a run keeps the marks when the run completes, as it does when it stops. -/
theorem run_next_marks {i : Instr} {s t : State} {r : Run State} (hleft : leftByStop i s = leftBy r)
    (ht : finish r = .next t) : t.marks = s.marks := by
  rw [finish_next_iff.1 ht] at hleft
  rw [← leftByStop_marks i s, hleft]
  rfl

/-- Every instruction that completes keeps the marks, RESET included (70_reset_and_hazards.md R160). -/
theorem exec_marks {i : Instr} {s t : State} (ht : exec i s = .next t) : t.marks = s.marks := by
  cases i with
  | refreshLeft => exact run_next_marks (i := .refreshLeft) rfl ht
  | refreshRight => exact run_next_marks (i := .refreshRight) rfl ht
  | bltregWr off data be => exact run_next_marks (i := .bltregWr off data be) rfl ht
  | bltEnd => exact run_next_marks (i := .bltEnd) rfl ht
  | bltCopy amt => exact run_next_marks (i := .bltCopy amt) rfl ht
  | bltFill amt v => exact run_next_marks (i := .bltFill amt v) rfl ht
  | bltNextline => exact run_next_marks (i := .bltNextline) rfl ht
  | bltUnknown c0 => exact run_next_marks (i := .bltUnknown c0) rfl ht
  | brtWr p data be =>
    cases ht
    rw [State.reply_marks, applyBrightness_only]
    rfl
  | blitDone =>
    change execBlitDone s = _ at ht
    unfold execBlitDone at ht
    split at ht <;> cases ht <;> rfl
  | _ => cases ht; rfl

theorem step_marks {s t : State} (ht : step s = .next t) : t.marks = s.marks := by
  rcases step_next_cases ht with rfl | ⟨i, rest, -, hexec⟩
  · rfl
  · exact (exec_marks hexec).trans (State.setInbox_marks s rest)

/-! ## Steps that stop -/

/-- An outcome that is no next state is a stop. -/
theorem outcome_stops {σ : Type} {o : Host.Outcome σ Fault Refusal} (h : ∀ t, o ≠ .next t) :
    ∃ e, o = stopOutcome e := by
  cases o with
  | next t => exact absurd rfl (h t)
  | fault f => exact ⟨.fault f, rfl⟩
  | refused r => exact ⟨.refusal r, rfl⟩

theorem fetch_marked {s : State} {e : Stop} (hm : markedStop s.marks = some e) :
    fetch s = .error e := by
  simp [fetch, hm]

/-- An instruction that stops leaves what it had written, marked (R144). -/
theorem stateAfter_of_exec_stop {s t : State} {i : Instr} {e : Stop}
    (hf : fetch s = .ok (some (i, t))) (he : exec i t = stopOutcome e) :
    stateAfter s = markStop (leftByStop i t) e := by
  unfold stateAfter
  simp only [hf, he]
  cases e <;> rfl

/-- All a step that stops can do: it marks a state with its stop, and that state bore no other mark. -/
theorem step_stop_cases {s : State} (hs : ∀ t, step s ≠ .next t) :
    ∃ e u, step s = stopOutcome e ∧ stateAfter s = markStop u e ∧
      ∀ e', markedStop u.marks = some e' → e' = e := by
  cases hf : fetch s with
  | error e =>
    refine ⟨e, s, by simp [step, hf], by simp [stateAfter, hf], fun e' hm => ?_⟩
    cases (fetch_marked hm).symm.trans hf
    rfl
  | ok next =>
    cases next with
    | none => exact absurd (by simp [step, hf]) (hs s)
    | some run =>
      obtain ⟨i, u⟩ := run
      have hstep : step s = exec i u := step_of_fetch hf
      obtain ⟨e, he⟩ := outcome_stops (hstep ▸ hs)
      refine ⟨e, leftByStop i u, hstep.trans he, stateAfter_of_exec_stop hf he, fun e' hm => ?_⟩
      obtain ⟨rest, rfl⟩ := fetch_some hf
      rw [leftByStop_marks, State.setInbox_marks] at hm
      cases (fetch_marked hm).symm.trans hf

/-- A mark set where no other stands is the one a later step answers. -/
theorem markedStop_markStop {u : State} {e : Stop} (h : ∀ e', markedStop u.marks = some e' → e' = e) :
    markedStop (markStop u e).marks = some e := by
  cases e with
  | fault f => rfl
  | refusal r =>
    cases hf : u.marks.fault with
    | none => simp [markStop, markedStop, hf]
    | some f => cases h (.fault f) (by simp [markedStop, hf])

theorem isFinal_marked {s : State} {e : Stop} (hm : markedStop s.marks = some e) :
    isFinal s = false := by
  have hu : unmarked s = false := by
    rw [← Bool.not_eq_true, unmarked_iff, hm]
    exact Option.some_ne_none e
  rw [isFinal, hu, Bool.false_and]

/-- Settles O24: the state a stopped step leaves bears the mark of its stop. -/
theorem stoppedRunStaysStopped : Obligations.StoppedRunStaysStopped := by
  refine ⟨fun _ _ => step_marks, fun s hs => ?_⟩
  obtain ⟨e, u, hstep, hafter, hother⟩ := step_stop_cases hs
  have hm := markedStop_markStop hother
  rw [hafter, hstep]
  exact ⟨isFinal_marked hm, step_marked hm⟩

end Sys2Proof.Machine
end

section
/-! PROOFS. What a stopped step had written (60_exceptions.md R144, R148): a refresh its picture so far, a
start its register and its commands so far, a COPY or FILL its half-words so far. -/

namespace Sys2Proof.Machine

/-! ## A refresh -/

theorem leftByStop_refresh (scr : Screen) (s : State) :
    leftByStop (refreshInstr scr) s = leftBy (refreshRun s scr) := by
  cases scr <;> rfl

/-- A refresh that stops leaves the picture drawn so far (R148). -/
theorem refresh_stop_leaves {s : State} {scr : Screen} {e : Stop}
    (h : exec (refreshInstr scr) s = stopOutcome e) :
    ∃ f, leftByStop (refreshInstr scr) s = s.setFb scr f ∧ f.base = .black ∧
      leftPicture s scr e f := by
  rw [exec_refresh] at h
  obtain ⟨halt, hr, rfl⟩ := finish_stop_iff.1 h
  obtain ⟨f, hf, hleft⟩ := refreshRun_error hr
  refine ⟨f, ?_, renderFrame_error hf⟩
  rw [leftByStop_refresh, hr]
  exact hleft

/-! ## A start -/

/-- A start that stops leaves its register write, its commands before the one that stopped, and that one as
far as it got (48_blitter_optional.md R131, R132). -/
theorem start_stop_leaves {s : State} {data : Word} {be : Lanes} {e : Stop}
    (hp : s.cfg.blitterPresent = true)
    (h : exec (.bltregWr s.cfg.bltRegLayout.start data be) s = stopOutcome e) :
    ∃ m regs n u cur v, lanesMerged s.bltReg regs s.cfg.bltRegLayout.start.toNat data be ∧
      afterCommands n { s with bltReg := regs
                               cursor := some (startCursor s.cfg regs)
                               out    := none } = some u ∧
      u.cursor = some cur ∧
      ((∃ k, decodeCmd (s.cfg.blitRom.drop cur.src) = .error (.streamShort k) ∧
          e = .fault (.romOutOfRange .blit (cur.src + k)) ∧ v = u) ∨
        ∃ cmd, decodeCmd (s.cfg.blitRom.drop cur.src) = .ok cmd ∧
          exec cmd.instr u = stopOutcome e ∧ v = leftByStop cmd.instr u) ∧
      leftByStop (.bltregWr s.cfg.bltRegLayout.start data be) s = v ∧
      v = { s with tile   := setQuad s.tile (bltField regs s.cfg.bltRegLayout.tm 2) m
                   bltReg := regs
                   cursor := v.cursor
                   out    := none } := by
  change finish (bltregWrRun _ data be s) = _ at h
  obtain ⟨halt, hr, rfl⟩ := finish_stop_iff.1 h
  have hleft : leftByStop (.bltregWr s.cfg.bltRegLayout.start data be) s = halt.left :=
    congrArg leftBy hr
  rw [bltregWrRun_start hp] at hr
  obtain ⟨⟨n, u, cur, hu, hcur, hstop⟩, m, htile, hout⟩ :=
    runBlit_error rfl (by simp only; omega) hr
  rw [hout rfl] at htile
  refine ⟨m, _, n, u, cur, halt.left, lanesMerged_storeMerge _ _ _ _, hu, hcur, ?_, hleft, htile⟩
  rcases hstop with ⟨k, hshort, rfl⟩ | ⟨cmd, hcmd, hrun⟩
  · exact .inl ⟨k, hshort, rfl, rfl⟩
  · refine .inr ⟨cmd, hcmd, ?_, ?_⟩
    · rw [exec_cmd, hrun, finish_error]
    · rw [leftByStop_cmd, hrun]
      rfl

/-! ## COPY and FILL -/

/-- A writing command whose loop stops leaves the loop's bank. -/
theorem writeCommand_halts {s : State} {cur : BltCursor} {amt : Byte} {n : Nat}
    {loop : Nat → BltCursor → Run (Store × BltCursor)} {src : Nat → BltCursor → Nat}
    (hc : s.cursor = some cur) (hn : halfCount s.cfg amt = .ok n) {h : Halt (Store × BltCursor)}
    (hl : loop n cur = .error h) :
    writeCommand s amt loop src =
      .error ⟨h.stop, { s with tile := setQuad s.tile cur.tm h.left.1 }⟩ := by
  rw [writeCommand, atCursor_some _ hc, hn]
  simp only [hl]
  rfl

/-- A half-word past the bank is not written (R134). -/
theorem writeHalf_past {c : Config} {h : Half} {bank : Store} {cur : BltCursor}
    (hpast : tileBankWords ≤ cur.lineBase + cur.col.toNat) :
    writeHalf c h bank cur =
      .error ⟨.fault (.bltDestOutOfRange cur.tm (cur.lineBase + cur.col.toNat)), bank, cur⟩ :=
  if_pos hpast

/-- The loop of COPY at the end of the ROM, which falls on either byte of a half-word (R135). -/
theorem copyHalves_romEnd {c : Config} {n p : Nat} {bank : Store} {cur : BltCursor} (hn : 0 < n)
    (hlo : p ≤ c.blitRom.length) (hhi : c.blitRom.length < p + 2) :
    copyHalves c n p bank cur =
      .error ⟨.fault (.romOutOfRange .blit c.blitRom.length), bank, cur⟩ := by
  obtain ⟨n, rfl⟩ := Nat.exists_eq_succ_of_ne_zero hn.ne'
  rw [copyHalves]
  rcases Nat.eq_or_lt_of_le hlo with rfl | hlt
  · rw [romByte_past c .blit (a := c.blitRom.length) (Nat.le_refl _)]
  · have hend : c.blitRom.length = p + 1 := by omega
    rw [romByte_getD c .blit hlt, romByte_past c .blit (Nat.le_of_eq hend), hend]

/-- The loop of COPY at the end of the bank (R134, R135). -/
theorem copyHalves_bankEnd {c : Config} {n p : Nat} {bank : Store} {cur : BltCursor} (hn : 0 < n)
    (hrom : p + 2 ≤ c.blitRom.length) (hpast : tileBankWords ≤ cur.lineBase + cur.col.toNat) :
    copyHalves c n p bank cur =
      .error ⟨.fault (.bltDestOutOfRange cur.tm (cur.lineBase + cur.col.toNat)), bank, cur⟩ := by
  obtain ⟨n, rfl⟩ := Nat.exists_eq_succ_of_ne_zero hn.ne'
  rw [copyHalves, romByte_getD c .blit (show p < c.blitRom.length by omega),
    romByte_getD c .blit (show p + 1 < c.blitRom.length by omega)]
  simp only [writeHalf_past hpast]

/-- The loop of FILL at the end of the bank (R134, R137). -/
theorem fillHalves_bankEnd {c : Config} {v : Half} {n : Nat} {bank : Store} {cur : BltCursor}
    (hn : 0 < n) (hpast : tileBankWords ≤ cur.lineBase + cur.col.toNat) :
    fillHalves c v n bank cur =
      .error ⟨.fault (.bltDestOutOfRange cur.tm (cur.lineBase + cur.col.toNat)), bank, cur⟩ := by
  obtain ⟨n, rfl⟩ := Nat.exists_eq_succ_of_ne_zero hn.ne'
  rw [fillHalves, writeHalf_past hpast]

section
variable {s : State} {cur : BltCursor} {amt : Byte} {n j : Nat}

/-- A COPY whose payload the end of the ROM cuts short leaves the half-words before it (R135). -/
theorem copyRun_romEnd (hc : s.cursor = some cur) (hn : AmountIs s.cfg amt n) (hj : j < n)
    (hlo : cur.src + 2 + 2 * j ≤ s.cfg.blitRom.length)
    (hhi : s.cfg.blitRom.length < cur.src + 4 + 2 * j) (hline : cur.lineBase + 127 < 0x8000) :
    copyRun amt s = .error ⟨.fault (.romOutOfRange .blit s.cfg.blitRom.length), { s with
      tile := setQuad s.tile cur.tm
        (halvesAfter s.cfg cur (payloadHalf s cur) (quad s.tile cur.tm) j) }⟩ := by
  have hloop := (copyHalves_after (bank := quad s.tile cur.tm) hj.le
    (fun k _ => lineWord_inside hline k) hlo).trans
      (copyHalves_romEnd (Nat.sub_pos_of_lt hj) hlo (by omega))
  have hrun : copyRun amt s = _ := writeCommand_halts hc (halfCount_amount hn) hloop
  exact hrun

/-- A COPY that runs past the bank leaves the half-words inside it (R134, R135). -/
theorem copyRun_bankEnd (hc : s.cursor = some cur) (hn : AmountIs s.cfg amt n) (hj : j < n)
    (hin : ∀ k, k < j → lineWord cur k < tileBankWords) (hout : tileBankWords ≤ lineWord cur j)
    (hrom : cur.src + 4 + 2 * j ≤ s.cfg.blitRom.length) :
    copyRun amt s = .error ⟨.fault (.bltDestOutOfRange cur.tm (lineWord cur j)), { s with
      tile := setQuad s.tile cur.tm
        (halvesAfter s.cfg cur (payloadHalf s cur) (quad s.tile cur.tm) j) }⟩ := by
  rw [← lineWord_eq] at hout ⊢
  have hloop := (copyHalves_after (c := s.cfg) (p := cur.src + 2) (bank := quad s.tile cur.tm) hj.le
    hin (by omega)).trans (copyHalves_bankEnd (Nat.sub_pos_of_lt hj) (by omega) hout)
  have hrun : copyRun amt s = _ := writeCommand_halts hc (halfCount_amount hn) hloop
  exact hrun

/-- A FILL that runs past the bank leaves the half-words inside it (R134, R137). -/
theorem fillRun_bankEnd (hc : s.cursor = some cur) (hn : AmountIs s.cfg amt n) (hj : j < n)
    (hin : ∀ k, k < j → lineWord cur k < tileBankWords) (hout : tileBankWords ≤ lineWord cur j)
    (v : Half) :
    fillRun amt v s = .error ⟨.fault (.bltDestOutOfRange cur.tm (lineWord cur j)), { s with
      tile := setQuad s.tile cur.tm
        (halvesAfter s.cfg cur (fun _ => v) (quad s.tile cur.tm) j) }⟩ := by
  rw [← lineWord_eq] at hout ⊢
  have hloop := (fillHalves_after (c := s.cfg) (v := v) (bank := quad s.tile cur.tm) hj.le hin).trans
    (fillHalves_bankEnd (Nat.sub_pos_of_lt hj) hout)
  have hrun : fillRun amt v s = _ := writeCommand_halts hc (halfCount_amount hn) hloop
  exact hrun

end

/-- Settles O25: the stop of each sort of run, and the half-words written before it. -/
theorem stoppedStepKeepsItsWrites : Obligations.StoppedStepKeepsItsWrites := by
  refine ⟨fun _ _ _ _ => stateAfter_of_exec_stop, fun _ _ _ => refresh_stop_leaves,
    fun _ _ _ _ => start_stop_leaves, fun s cur amt n j hc hn hj => ⟨fun hlo hhi hline => ?_,
      fun hin hout => ⟨fun hrom => ?_, fun v => ?_⟩⟩, fun s cur amt hc hu hodd => ?_⟩
  · have hrun := copyRun_romEnd hc hn hj hlo hhi hline
    exact ⟨congrArg finish hrun, _, congrArg leftBy hrun, halvesAfter_written s cur _ j⟩
  · have hrun := copyRun_bankEnd hc hn hj hin hout hrom
    exact ⟨congrArg finish hrun, _, congrArg leftBy hrun, halvesAfter_written s cur _ j⟩
  · have hrun := fillRun_bankEnd hc hn hj hin hout v
    exact ⟨congrArg finish hrun, _, congrArg leftBy hrun, halvesAfter_written s cur _ j⟩
  · have hrefused := halfCount_odd hu hodd
    exact ⟨congrArg leftBy (writeCommand_refused hc hrefused),
      fun _ => congrArg leftBy (writeCommand_refused hc hrefused)⟩

end Sys2Proof.Machine
end

section
/-! PROOFS. The reset state and the first picture (70_reset_and_hazards.md R160, R162), and what a refresh
leaves alone (R169). -/

namespace Sys2Proof.Machine

/-! ## The reset state -/

theorem quad_same {α : Type} (x : α) (b : BitVec 2) : quad #v[x, x, x, x] b = x :=
  Vector.getElem_replicate (n := 4) b.isLt

theorem pair_same {α : Type} (x : α) (k : BitVec 1) : pair #v[x, x] k = x :=
  Vector.getElem_replicate (n := 2) k.isLt

@[simp] theorem quad_initState_tile (c : Config) (b : BitVec 2) : quad (initState c).tile b = [] :=
  quad_same [] b

@[simp] theorem quad_initState_treg (c : Config) (t : BitVec 2) : quad (initState c).treg t = [] :=
  quad_same [] t

@[simp] theorem pair_initState_brtCache (c : Config) (k : BitVec 1) :
    pair (initState c).brtCache k = c.brtCacheReset :=
  pair_same c.brtCacheReset k

@[simp] theorem pair_initState_contrast (c : Config) (k : BitVec 1) :
    pair (initState c).contrast k = 16 :=
  pair_same 16 k

/-- Settles O28: RESET answers the initial state but for the marks and the model's own fields, and each
part of that state reads as its reset value. -/
theorem resetLeavesTheResetState : Obligations.ResetLeavesTheResetState := by
  intro s
  refine ⟨{ initState s.cfg with marks := s.marks, inbox := s.inbox, draws := s.draws }, rfl,
    fun b i => ?tile, storeWord_nil, fun t i => ?treg, storeWord_nil, storeWord_nil,
    pair_initState_brtCache s.cfg, pair_initState_contrast s.cfg, storeWord_nil, fun scr x y => ?fb,
    storeWord_nil, rfl, rfl, rfl, rfl⟩
  case tile => simp only [quad_initState_tile, storeWord_nil]
  case treg => simp only [quad_initState_treg, storeWord_nil]
  case fb => cases scr <;> exact frameAt_blank x y

/-! ## The frame of a refresh -/

/-- Settles O36: a refresh that completes puts a bitmap on its screen and clears the reply. -/
theorem refreshWritesOnlyItsScreen : Obligations.RefreshWritesOnlyItsScreen := by
  refine fun s t => ⟨fun ht => ?left, fun ht => ?right⟩
  case left =>
    obtain ⟨f, -, rfl⟩ := (exec_refresh_next_iff (scr := .left)).1 ht
    rfl
  case right =>
    obtain ⟨f, -, rfl⟩ := (exec_refresh_next_iff (scr := .right)).1 ht
    rfl

/-! ## Pens of colour bank 0 -/

theorem field_zero (lo n : Nat) : field 0 lo n = 0 :=
  BitVec.extractLsb'_zero

/-- An opaque byte under colour bank 0 is a pen of one byte (30_encoding.md R68). -/
theorem zero_append_byte_lt (b : Byte) : ((0 : Byte) ++ b).toNat < 256 := by
  rw [append_byte_toNat]
  exact b.isLt

/-- Colour bank 0 adds nothing to a nibble, whatever its shift (41_tile_decoder.md R94). -/
theorem nibblePen_zero_lt {c : Config} (h : tile4Unset c = false) (nib : BitVec 4) :
    (nibblePen c nib 0).toNat < 256 := by
  have hpen : nibblePen c nib 0 = nib.setWidth 16 := by
    rw [nibblePen_eq h]
    split <;> simp
  rw [hpen, BitVec.toNat_setWidth]
  omega

theorem tilePixel_pen_lt {c : Config} {d : Word} (hbank : (decodeTile c d).colorBank = 0)
    {size px py : Nat} {p : Pen} (h : tilePixel c d size px py = .ok (some p)) : p.toNat < 256 := by
  cases hdepth : (decodeTile c d).depth with
  | true =>
    rw [tilePixel_eight hdepth] at h
    obtain ⟨b, -, -, rfl⟩ := tilePixel8_pen h
    rw [hbank]
    exact zero_append_byte_lt b
  | false =>
    rw [tilePixel_four hdepth] at h
    cases hset : tile4Unset c with
    | true =>
      rw [tilePixel4_unset hset] at h
      cases h
    | false =>
      obtain ⟨nib, -, rfl⟩ := tilePixel4_pen hset h
      rw [hbank]
      exact nibblePen_zero_lt hset nib

/-- A sprite pixel with a pen read a byte of the ROM that is not transparent (41_tile_decoder.md R98). -/
theorem spritePixel_pen {c : Config} {sp : SpriteDesc} {dx dy : Nat} {p : Pen}
    (h : spritePixel c sp dx dy = .ok (some p)) :
    ∃ b : Byte, b ≠ 255 ∧ b ∈ c.spriteRom ∧ p = sp.colour ++ b := by
  cases ht : resolveSpriteTile c sp.tile with
  | error e =>
    rw [spritePixel_unresolved ht] at h
    cases h
  | ok t =>
    cases hb : c.spriteRom[spriteByteAddr sp t dx dy]? with
    | none =>
      rw [spritePixel_past ht (List.getElem?_eq_none_iff.1 hb)] at h
      cases h
    | some b =>
      rw [spritePixel_byte ht hb] at h
      split at h
      · cases h
      · next hclear =>
        cases h
        exact ⟨b, hclear, List.mem_of_getElem? hb, rfl⟩

/-! ## The first picture -/

theorem opaquePen_eq_some {r : Except Stop (Option Pen)} {p : Pen} :
    opaquePen r = some p ↔ r = .ok (some p) := by
  cases r <;> simp [opaquePen]

/-- Every pixel of the picture is black, or the pen of a tilemap or of a sprite there (R113). -/
theorem pictureAt_cases (s : State) (scr : Screen) (x y : Nat) :
    pictureAt s scr x y = .black ∨
      ∃ p, pictureAt s scr x y = .pen p ∧
        ((∃ t, tileSample s t x y = .ok (some p)) ∨ ∃ k, spriteSample s scr k x y = .ok (some p)) := by
  rw [pictureAt_eq_overlay]
  cases hfront : opaquePen (tileSample s (frontMap scr) x y) with
  | some p => exact .inr ⟨p, rfl, .inl ⟨_, opaquePen_eq_some.1 hfront⟩⟩
  | none =>
    cases hsprite : topSprite s scr x y with
    | some p =>
      obtain ⟨k, -, hk⟩ := List.exists_of_findSome?_eq_some hsprite
      exact .inr ⟨p, rfl, .inr ⟨k, opaquePen_eq_some.1 hk⟩⟩
    | none =>
      cases hback : opaquePen (tileSample s (backMap scr) x y) with
      | some p => exact .inr ⟨p, rfl, .inl ⟨_, opaquePen_eq_some.1 hback⟩⟩
      | none => exact .inl rfl

/-- Every descriptor of the reset state is 0, and so is its colour bank (R162). -/
theorem tileSample_initState_lt {c : Config} {t : BitVec 2} {x y : Nat} {p : Pen}
    (h : tileSample (initState c) t x y = .ok (some p)) : p.toNat < 256 := by
  simp only [tileSample, quad_initState_tile, storeWord_nil] at h
  split at h
  · exact tilePixel_pen_lt (field_zero _ 8) h
  · cases h

theorem spriteSample_initState_lt {c : Config} {scr : Screen} {k x y : Nat} {p : Pen}
    (h : spriteSample (initState c) scr k x y = .ok (some p)) : p.toNat < 256 := by
  have hslots : (initState c).sprite = [] := rfl
  simp only [spriteSample, hslots, storeWord_nil] at h
  split at h
  · obtain ⟨b, -, -, rfl⟩ := spritePixel_pen h
    have hbank : (decodeSprite (initState c).cfg 0 0).colour = 0 := field_zero _ 8
    rw [hbank]
    exact zero_append_byte_lt b
  · cases h

/-- Under an empty palette at full contrast a pen of the palette shows black. -/
theorem showPixel_pen_noPalette {s : State} (hpal : s.pal = []) (hfull : ∀ k, pair s.contrast k = 16)
    {p : Pen} (hp : p.toNat < paletteEntries) (k : Nat) :
    showPixel s k (.pen p) = { r := 0, g := 0, b := 0 } := by
  have hcolour : colourOf s p.toNat = { r := 0, g := 0, b := 0 } := by
    rw [colourOf, hpal, storeWord_nil]
    rfl
  rw [showPixel_pen_entry s k hp, hfull, hcolour, scaleRgb, scaleComponent_full]

/-- Settles O49: the picture of the reset state is black or of pens of one byte, and the refresh leaves
the palette empty and the contrast full. -/
theorem firstPictureIsBlack : Obligations.FirstPictureIsBlack := by
  intro c t scr x y k ht _ _
  rw [displayColour_of_pixel (exec_refresh_pixel ht x y)]
  obtain ⟨f, -, rfl⟩ := exec_refresh_next_iff.1 ht
  rcases pictureAt_cases (initState c) scr x y with hblack | ⟨p, hpen, hsource⟩
  · rw [hblack]
    rfl
  · have hbyte : p.toNat < 256 := by
      rcases hsource with ⟨m, htile⟩ | ⟨slot, hsprite⟩
      · exact tileSample_initState_lt htile
      · exact spriteSample_initState_lt hsprite
    have hpal : (((initState c).setFb scr f).reply none).pal = [] :=
      (State.reply_pal _ _).trans (State.setFb_pal _ _ _)
    have hfull : ∀ b, pair (((initState c).setFb scr f).reply none).contrast b = 16 := fun b => by
      rw [State.reply_contrast, State.setFb_contrast, pair_initState_contrast]
    rw [hpen]
    exact showPixel_pen_noPalette hpal hfull (Nat.lt_trans hbyte (by decide)) k

end Sys2Proof.Machine
end
